-- ==== Sys2Proof/Word.lean ====
section
/-! DEFINITION. The word types of PNE and the fixed group of four like things (stage slots, buffers).
Notation of the spec: `00_scope.md` rule R11 and rule R12. -/

namespace Sys2Proof

/-- A u64: a command operand, a result, a Q31 word, a PCG word (rule R11, rule R15). -/
abbrev Word := BitVec 64

/-- A u32: a coefficient, a gain, an xorshift word, a fill count, a binary32 pattern. -/
abbrev Half := BitVec 32

/-- The bit pattern of an s16 sample (rule R10). -/
abbrev Sample := BitVec 16

/-- Four like things under the numbers 0 to 3: the NSTAGE = 4 stage slots (rule R35), or the buffers
(rule R37; with NBUF = 3 number 3 names no buffer). -/
structure Quad (α : Type) where
  q0 : α
  q1 : α
  q2 : α
  q3 : α
  deriving DecidableEq, Repr

/-- The element numbered `i`. -/
def Quad.get {α : Type} (q : Quad α) (i : Fin 4) : α :=
  match i with
  | 0 => q.q0
  | 1 => q.q1
  | 2 => q.q2
  | 3 => q.q3

/-- The same four with the element numbered `i` replaced. -/
def Quad.set {α : Type} (q : Quad α) (i : Fin 4) (v : α) : Quad α :=
  match i with
  | 0 => { q with q0 := v }
  | 1 => { q with q1 := v }
  | 2 => { q with q2 := v }
  | 3 => { q with q3 := v }

/-- Four copies of one value. -/
def Quad.all {α : Type} (v : α) : Quad α := ⟨v, v, v, v⟩

end Sys2Proof
end

