-- ==== Sys2Proof/Config.lean ====
section
/-! DEFINITION. What an instance of PNE fixes when it is built (`00_scope.md` rule R9) and the one value the
spec leaves free (`93_implementation_defined.md` U7). -/

namespace Sys2Proof

/-- REPR, the numeric representation of the filter state (rule R9). -/
inductive NumRepr where
  | fixed
  | float
  deriving DecidableEq, Repr

/-- The implementation parameters of rule R9. They are fixed when an instance is built; the model carries
them in State so that every claim is made for every instance, and no step changes them (log entry 1).
Their legal ranges are `Params.wf` (WellFormed.lean). NSTAGE is fixed at 4 and is `nstage` below. -/
structure Params where
  /-- NBUF, the number of buffers: 3 or 4. -/
  nbuf : Nat
  /-- CAP, samples per buffer: at least 1, below 2^32. Open in the spec (P1). -/
  cap : Nat
  /-- NDRAW, uniform draws per normal draw: 5 or 6. -/
  ndraw : Nat
  /-- REPR. -/
  repr : NumRepr
  /-- FS, the sample rate in Hz, used only by the host's coefficient derivation (rule R190). Open (P2). -/
  fs : Nat
  deriving DecidableEq, Repr

namespace Config

/-- NSTAGE, fixed at 4 (rule R9, decision D6). -/
def nstage : Nat := 4

/-- The instance State.reset is built for: the spec's defaults NBUF = 3, NDRAW = 6, REPR = FIXED (rule R9);
CAP = 4 as in the spec's test programs (`92_eei_decisions.md` P1) and FS = 48000.
DESIGN CHOICE (log entry 1) for CAP and FS, which the spec leaves open. -/
def instanceParams : Params :=
  { nbuf := 3, cap := 4, ndraw := 6, repr := .fixed, fs := 48000 }

/-- Sign (bit 22) and payload (bits 21 to 0) of the NaN that the n-th NaN-producing operation gives: a free
value (U7, rule R200), so it has no body and no proof can see it (log entry 2). -/
opaque nanFree : Nat → BitVec 23

end Config

end Sys2Proof
end

