-- ==== Sys2Proof/Syntax.lean ====
section
/-! DEFINITION. The instructions of PNE: the sixteen host commands of `30_encoding.md` rule R102 and the four
consumer operations of rule R104, with the operands of rule R103 at their widths. Also the names those
operands stand for (stage kinds, CSRs) and the pseudo-instructions of rule R110. -/

namespace Sys2Proof

/-- One constructor per row of opcode_table.json. Operands are exactly the bits the instruction reads
(rule R103); bits it ignores do not appear. -/
inductive Instr where
  /-- 0x00 NOP, rule R260. -/
  | nop
  /-- 0x01 RDCSR, rule R262: CSR number `n = a[7:0]`. -/
  | rdcsr (n : BitVec 8)
  /-- 0x02 WRCSR, rule R264: CSR number `n = a[7:0]`, value `b`. -/
  | wrcsr (n : BitVec 8) (v : Word)
  /-- 0x10 SEEDX, rule R131: `value = a[31:0]`. -/
  | seedx (value : Half)
  /-- 0x11 SEEDP, rule R134: `init_state = a`, `init_seq = b`. -/
  | seedp (initState initSeq : Word)
  /-- 0x12 NEXTU, rule R137. -/
  | nextu
  /-- 0x13 NEXTN, rule R141. -/
  | nextn
  /-- 0x20 STAGE, rule R170 and rule R206: slot `k = a[7:0]`, input `b` (FLOAT reads `b[31:0]`). -/
  | stage (k : BitVec 8) (x : Word)
  /-- 0x21 CLIP, rule R176 and rule R210: input `a` (FLOAT reads `a[31:0]`). -/
  | clip (x : Word)
  /-- 0x22 SHAPE, rule R178: the signed sample `n = a[31:0]`. -/
  | shape (n : Half)
  /-- 0x30 ACQ, rule R222. -/
  | acq
  /-- 0x31 PUT, rule R224: the sample `a[15:0]`. -/
  | put (v : Sample)
  /-- 0x32 REL, rule R226. -/
  | rel
  /-- 0x33 GEN, rule R228. -/
  | gen
  /-- 0x34 FILL, rule R230. -/
  | fill
  /-- 0x3F START, rule R232. -/
  | start
  /-- c_op 0 C_IDLE, rule R105. -/
  | cIdle
  /-- c_op 1 C_TAKE, rule R234 and rule R237. -/
  | cTake
  /-- c_op 2 C_READ, rule R235: `i = c_idx`, `s = c_slot`. -/
  | cRead (idx : BitVec 2) (slot : Half)
  /-- c_op 3 C_RETURN, rule R236. -/
  | cReturn
  deriving DecidableEq, Repr

/-- What a stage slot holds (`10_state.md` rule R35). Codes 4 to 15 are reserved and cannot be stored. -/
inductive Kind where
  | none
  | integ
  | lpf
  | hpf
  deriving DecidableEq, Repr

/-- A control and status register of rule R41. -/
inductive Csr where
  | status
  | param
  | chain
  | gain
  | rng0
  | rng1
  | pool
  | coef (k : Fin 4)
  | acc (k : Fin 4)
  | prev (k : Fin 4)
  deriving DecidableEq, Repr

/-- The pseudo-instructions of rule R110. -/
inductive Pseudo where
  | rdstat
  | rdparam
  | wrchain (k0 k1 k2 k3 : Kind)
  | wrgain (v : Word)
  | wrcoef (k : Fin 4) (v : Word)
  | wrs (k : Fin 4) (v : Word)
  | wrp (k : Fin 4) (v : Word)
  | rdcoef (k : Fin 4)
  | rds (k : Fin 4)
  | rdp (k : Fin 4)
  | white
  | brown
  | pink
  deriving DecidableEq, Repr

end Sys2Proof
end

