-- ==== Sys2Proof/WellFormed.lean ====
section
/-! DEFINITION. What the hardware accepts: the parameter ranges of `00_scope.md` rule R9, and the operand values
that are not reserved (`30_encoding.md` rule R107). An ill-formed instruction still runs: it takes the fault
BAD_OPERAND, or (C_READ) is never accepted. Ill-formed parameters are refused (`93_implementation_defined.md`
U12). -/

namespace Sys2Proof

/-- The constraint column of rule R9. -/
def Params.wf (p : Params) : Bool :=
  (p.nbuf == 3 || p.nbuf == 4) && decide (1 ≤ p.cap) && decide (p.cap < 2 ^ 32)
    && (p.ndraw == 5 || p.ndraw == 6) && decide (1 ≤ p.fs)

/-- The CSR numbers of rule R41: 0x00 to 0x06, 0x10 to 0x13, 0x20 to 0x23, 0x30 to 0x33. -/
def csrDefined (n : BitVec 8) : Bool :=
  let v := n.toNat
  decide (v ≤ 0x06) || (decide (0x10 ≤ v) && decide (v ≤ 0x13))
    || (decide (0x20 ≤ v) && decide (v ≤ 0x23)) || (decide (0x30 ≤ v) && decide (v ≤ 0x33))

/-- The read-only numbers, rule R41 and rule R264: STATUS, PARAM, RNG0, RNG1, POOL. -/
def csrReadOnly (n : BitVec 8) : Bool :=
  let v := n.toNat
  v == 0x00 || v == 0x01 || v == 0x04 || v == 0x05 || v == 0x06

/-- Every nibble of `b[15:0]` is a kind code 0 to 3 (rule R44). -/
def chainLegal (v : Word) : Bool :=
  decide ((v.extractLsb' 0 4).toNat ≤ 3) && decide ((v.extractLsb' 4 4).toNat ≤ 3)
    && decide ((v.extractLsb' 8 4).toNat ≤ 3) && decide ((v.extractLsb' 12 4).toNat ≤ 3)

/-- No operand of the instruction is a reserved value (rule R107), and a C_READ names a sample that exists
(rule R71, rule R235). -/
def Instr.wf (p : Params) (i : Instr) : Bool :=
  match i with
  | .rdcsr n => csrDefined n
  | .wrcsr n v => csrDefined n && !csrReadOnly n && (n != 0x02 || chainLegal v)
  | .stage k _ => decide (k.toNat < Config.nstage)
  | .cRead idx slot => decide (idx.toNat < p.nbuf) && decide (slot.toNat < p.cap)
  | .nop | .seedx _ | .seedp _ _ | .nextu | .nextn | .clip _ | .shape _ | .acq | .put _ | .rel | .gen
  | .fill | .start | .cIdle | .cTake | .cReturn => true

end Sys2Proof
end

