-- ==== Sys2Proof/Decode.lean ====
section
/-! DEFINITION. From port words to instructions and back (`30_encoding.md` rule R100 to rule R108). A command
arrives as the triple (op, a, b) on the command port, a consumer operation as (c_op, c_idx, c_slot) on the
consumer port: two separate encoding spaces. Decoding is total and refuses an unassigned opcode by name. -/

namespace Sys2Proof

/-- The command triple sampled from `cmd_op`, `cmd_a`, `cmd_b` (rule R100). -/
structure Cmd where
  op : BitVec 8
  a : Word
  b : Word
  deriving DecidableEq, Repr

/-- The consumer triple sampled from `c_op`, `c_idx`, `c_slot` (rule R104). -/
structure ConsOp where
  op : BitVec 2
  idx : BitVec 2
  slot : Half
  deriving DecidableEq, Repr

/-- What is presented at one of the two ports. -/
inductive PortWord where
  | cmd (c : Cmd)
  | cons (o : ConsOp)
  deriving DecidableEq, Repr

/-- Why a port word is no instruction: its opcode is one of the 240 unassigned values of rule R106. -/
inductive DecodeError where
  | illegalCmd (op : BitVec 8)
  deriving DecidableEq, Repr

/-- The 136-bit command word `{op, a, b}` of rule R100. -/
def Cmd.toWord (c : Cmd) : BitVec 136 := c.op ++ c.a ++ c.b

/-- The triple that a 136-bit command word writes (rule R100: the opcode is bits 135 to 128). -/
def Cmd.ofWord (w : BitVec 136) : Cmd :=
  { op := w.extractLsb' 128 8, a := w.extractLsb' 64 64, b := w.extractLsb' 0 64 }

/-- The opcode alone selects the command (rule R100, rule R102); operands are the bits of rule R103. -/
def decodeCmd (c : Cmd) : Except DecodeError Instr :=
  match c.op.toNat with
  | 0x00 => .ok .nop
  | 0x01 => .ok (.rdcsr (c.a.extractLsb' 0 8))
  | 0x02 => .ok (.wrcsr (c.a.extractLsb' 0 8) c.b)
  | 0x10 => .ok (.seedx (c.a.extractLsb' 0 32))
  | 0x11 => .ok (.seedp c.a c.b)
  | 0x12 => .ok .nextu
  | 0x13 => .ok .nextn
  | 0x20 => .ok (.stage (c.a.extractLsb' 0 8) c.b)
  | 0x21 => .ok (.clip c.a)
  | 0x22 => .ok (.shape (c.a.extractLsb' 0 32))
  | 0x30 => .ok .acq
  | 0x31 => .ok (.put (c.a.extractLsb' 0 16))
  | 0x32 => .ok .rel
  | 0x33 => .ok .gen
  | 0x34 => .ok .fill
  | 0x3F => .ok .start
  | _ => .error (.illegalCmd c.op)

/-- All four consumer codes are assigned (rule R104). -/
def decodeCons (o : ConsOp) : Instr :=
  match o.op.toNat with
  | 0 => .cIdle
  | 1 => .cTake
  | 2 => .cRead o.idx o.slot
  | _ => .cReturn

/-- The instruction a port word stands for, or the reason there is none. -/
def decode (w : PortWord) : Except DecodeError Instr :=
  match w with
  | .cmd c => decodeCmd c
  | .cons o => .ok (decodeCons o)

/-- The canonical port word of an instruction: opcode of rule R102 or rule R104, operands where rule R103 puts
them, 0 in every ignored bit (rule R100). -/
def encode (i : Instr) : PortWord :=
  match i with
  | .nop => .cmd ⟨0x00, 0, 0⟩
  | .rdcsr n => .cmd ⟨0x01, n.setWidth 64, 0⟩
  | .wrcsr n v => .cmd ⟨0x02, n.setWidth 64, v⟩
  | .seedx v => .cmd ⟨0x10, v.setWidth 64, 0⟩
  | .seedp st sq => .cmd ⟨0x11, st, sq⟩
  | .nextu => .cmd ⟨0x12, 0, 0⟩
  | .nextn => .cmd ⟨0x13, 0, 0⟩
  | .stage k x => .cmd ⟨0x20, k.setWidth 64, x⟩
  | .clip x => .cmd ⟨0x21, x, 0⟩
  | .shape n => .cmd ⟨0x22, n.setWidth 64, 0⟩
  | .acq => .cmd ⟨0x30, 0, 0⟩
  | .put v => .cmd ⟨0x31, v.setWidth 64, 0⟩
  | .rel => .cmd ⟨0x32, 0, 0⟩
  | .gen => .cmd ⟨0x33, 0, 0⟩
  | .fill => .cmd ⟨0x34, 0, 0⟩
  | .start => .cmd ⟨0x3F, 0, 0⟩
  | .cIdle => .cons ⟨0, 0, 0⟩
  | .cTake => .cons ⟨1, 0, 0⟩
  | .cRead idx slot => .cons ⟨2, idx, slot⟩
  | .cReturn => .cons ⟨3, 0, 0⟩

/-- The command holds 0 in every operand bit its opcode ignores (rule R100, rule R103) and its opcode is in the
map. -/
def Cmd.canonical (c : Cmd) : Bool :=
  match c.op.toNat with
  | 0x00 | 0x12 | 0x13 | 0x30 | 0x32 | 0x33 | 0x34 | 0x3F => c.a == 0 && c.b == 0
  | 0x01 => c.a.extractLsb' 8 56 == 0 && c.b == 0
  | 0x02 | 0x20 => c.a.extractLsb' 8 56 == 0
  | 0x10 | 0x22 => c.a.extractLsb' 32 32 == 0 && c.b == 0
  | 0x31 => c.a.extractLsb' 16 48 == 0 && c.b == 0
  | 0x21 => c.b == 0
  | 0x11 => true
  | _ => false

/-- The consumer triple holds 0 in every bit its operation ignores (rule R104). -/
def ConsOp.canonical (o : ConsOp) : Bool := o.op == 2 || (o.idx == 0 && o.slot == 0)

/-- Canonical encodings put 0 in ignored operands (rule R100). -/
def PortWord.canonical (w : PortWord) : Bool :=
  match w with
  | .cmd c => c.canonical
  | .cons o => o.canonical

/-- The instruction is a command of the host's port, not a consumer operation (rule R102, rule R104). -/
def Instr.isCommand (i : Instr) : Bool :=
  match encode i with
  | .cmd _ => true
  | .cons _ => false

/-- The kind a CHAIN nibble names; codes 4 to 15 are reserved (rule R35). -/
def Kind.ofNibble (v : BitVec 4) : Option Kind :=
  match v.toNat with
  | 0 => some .none
  | 1 => some .integ
  | 2 => some .lpf
  | 3 => some .hpf
  | _ => Option.none

/-- The kind's code (rule R35). -/
def Kind.code (k : Kind) : BitVec 4 :=
  match k with
  | .none => 0
  | .integ => 1
  | .lpf => 2
  | .hpf => 3

/-- The register a CSR number names (rule R41); `none` for an undefined number. -/
def Csr.ofNum (n : BitVec 8) : Option Csr :=
  match n.toNat with
  | 0x00 => some .status
  | 0x01 => some .param
  | 0x02 => some .chain
  | 0x03 => some .gain
  | 0x04 => some .rng0
  | 0x05 => some .rng1
  | 0x06 => some .pool
  | 0x10 => some (.coef 0)
  | 0x11 => some (.coef 1)
  | 0x12 => some (.coef 2)
  | 0x13 => some (.coef 3)
  | 0x20 => some (.acc 0)
  | 0x21 => some (.acc 1)
  | 0x22 => some (.acc 2)
  | 0x23 => some (.acc 3)
  | 0x30 => some (.prev 0)
  | 0x31 => some (.prev 1)
  | 0x32 => some (.prev 2)
  | 0x33 => some (.prev 3)
  | _ => none

/-- The number of a CSR (rule R41). -/
def Csr.num (c : Csr) : BitVec 8 :=
  match c with
  | .status => 0x00
  | .param => 0x01
  | .chain => 0x02
  | .gain => 0x03
  | .rng0 => 0x04
  | .rng1 => 0x05
  | .pool => 0x06
  | .coef k => BitVec.ofNat 8 (0x10 + k.val)
  | .acc k => BitVec.ofNat 8 (0x20 + k.val)
  | .prev k => BitVec.ofNat 8 (0x30 + k.val)

/-- `k0 + 16*k1 + 256*k2 + 4096*k3`, the CHAIN value of four kinds (rule R44, rule R110). -/
def chainWord (k0 k1 k2 k3 : Kind) : BitVec 16 := k3.code ++ k2.code ++ k1.code ++ k0.code

/-- The exact expansion of each pseudo-instruction (rule R110). -/
def Pseudo.expand (p : Pseudo) : Instr :=
  match p with
  | .rdstat => .rdcsr 0x00
  | .rdparam => .rdcsr 0x01
  | .wrchain k0 k1 k2 k3 => .wrcsr 0x02 ((chainWord k0 k1 k2 k3).setWidth 64)
  | .wrgain v => .wrcsr 0x03 v
  | .wrcoef k v => .wrcsr (Csr.num (.coef k)) v
  | .wrs k v => .wrcsr (Csr.num (.acc k)) v
  | .wrp k v => .wrcsr (Csr.num (.prev k)) v
  | .rdcoef k => .rdcsr (Csr.num (.coef k))
  | .rds k => .rdcsr (Csr.num (.acc k))
  | .rdp k => .rdcsr (Csr.num (.prev k))
  | .white => .wrcsr 0x02 ((chainWord .none .none .none .none).setWidth 64)
  | .brown => .wrcsr 0x02 ((chainWord .integ .lpf .none .none).setWidth 64)
  | .pink => .wrcsr 0x02 ((chainWord .hpf .lpf .none .none).setWidth 64)

/-- The port word whose bits, numbered as opcode_table.json numbers a row's `fixed` bits, are `w`. The table's
two spaces overlap once a row is padded to a byte, so (log entry 3): fewer than 8 bits is the consumer space;
136 bits or more is the command word of rule R100; otherwise the low byte is `cmd_op` with the operand bits
counting on from it, but a byte that is no opcode and is below 4 is a `c_op` (this is C_RETURN, 0x3). -/
def tablePort (nbits w : Nat) : PortWord :=
  let c : Cmd :=
    if nbits < 136 then ⟨BitVec.ofNat 8 w, BitVec.ofNat 64 (w / 2 ^ 8), BitVec.ofNat 64 (w / 2 ^ 72)⟩
    else Cmd.ofWord (BitVec.ofNat 136 w)
  let o : ConsOp := ⟨BitVec.ofNat 2 w, BitVec.ofNat 2 (w / 2 ^ 2), BitVec.ofNat 32 (w / 2 ^ 4)⟩
  if nbits < 8 then .cons o
  else if nbits < 136 && w == 3 then .cons o
  else .cmd c

/-- The instruction the decoder reads from a row of opcode_table.json whose bits are `w` (log entry 3). -/
def decodeTableWord (nbits w : Nat) : Option Instr :=
  match decode (tablePort nbits w) with
  | .ok i => some i
  | .error _ => none

end Sys2Proof
end

