-- ==== Sys2Proof/Machine/State.lean ====
section
/-! DEFINITION. The state of PNE as plain data, the reasons a step can stop, and the state after reset.
`10_state.md` rule R33 to rule R38, rule R51; `70_reset_and_hazards.md` rule R301. -/

namespace Sys2Proof.Machine

/-- ALG: which generator is live (rule R33). -/
inductive Alg where
  | xs32
  | pcg32
  deriving DecidableEq, Repr

/-- OWN[i], the ownership state of a buffer (rule R37). -/
inductive Own where
  | free
  | acquired
  | released
  | inflight
  deriving DecidableEq, Repr

/-- The values ERR takes (`60_exceptions.md` rule R271); codes 6 to 15 are never produced. -/
inductive ErrCode where
  | none
  | illegalCmd
  | badOperand
  | notSeeded
  | protocol
  | sinkFail
  deriving DecidableEq, Repr

/-- The loop position of START (rule R32, `43_buffer.md` rule R232). -/
inductive Phase where
  | acquire
  | fill
  | release
  deriving DecidableEq, Repr

/-- A response on `rsp_res`, `rsp_err` (rule R30). -/
structure Rsp where
  res : Word
  err : Bool
  deriving DecidableEq, Repr

/-- What the outside world does next; one is one step (`00_scope.md` rule R7, rule R8). The order of the list in
State is the interleaving of the agents, which the spec leaves to the environment (log entry 4). -/
inductive Input where
  /-- The host presents a command, or the consumer an operation, on its port. -/
  | port (w : PortWord)
  /-- The producer takes a step of its own: a waiting acquire, or the loop of START. -/
  | producer
  /-- The pin `sink_ok` takes a value (rule R30). -/
  | sinkPin (ok : Bool)
  /-- `rst_n` is pulled low and released (rule R300). -/
  | rstPulse
  deriving DecidableEq, Repr

/-- RandomSampler state, PN's RNGState (rule R33). Both variants' words are held; ALG says which is live. -/
structure Rng where
  /-- SEEDED -/
  seeded : Bool
  /-- ALG -/
  alg : Alg
  /-- XS -/
  xs : Half
  /-- PST -/
  pst : Word
  /-- PINC -/
  pinc : Word
  deriving DecidableEq, Repr

/-- NoiseShaper state, PN's FilterState and FilterCoefficients (rule R35). -/
structure Shaper where
  /-- KIND[k], the nibbles of CHAIN (rule R44). -/
  chain : Quad Kind
  /-- COEF[k], stored raw. -/
  coef : Quad Half
  /-- S[k] -/
  acc : Quad Word
  /-- P[k] -/
  prev : Quad Word
  /-- GAIN -/
  gain : Half
  /-- The model's own counter: how many free NaN values (U7) have been used. Not state of the spec; a reset
  pulse keeps it (log entry 2). -/
  nans : Nat
  deriving DecidableEq, Repr

/-- BufferStreamer state, PN's AudioBuffer and BufferPool (rule R37). With NBUF = 3 the entries numbered 3 are
no buffer and stay at their reset values. -/
structure Pool where
  /-- OWN[i] -/
  own : Quad Own
  /-- CNT[i] -/
  cnt : Quad Half
  /-- SMP, the sample memory in the byte view of `20_memory.md` rule R73: byte addresses strictly rising, a
  byte nothing has written is absent (log entry 5). -/
  mem : List Host.Cell
  /-- PP -/
  pp : Fin 4
  /-- TP -/
  tp : Fin 4
  /-- RP -/
  rp : Fin 4
  deriving DecidableEq, Repr

/-- The whole machine: the instance's parameters, the state elements of rule R33 to rule R38, the command in
execution (rule R32), the response pulses, the pin `sink_ok`, and the inputs still to come. -/
structure State where
  /-- The build parameters (rule R9); no step changes them (log entry 1). -/
  par : Params
  rng : Rng
  sh : Shaper
  pool : Pool
  /-- RUNNING -/
  running : Bool
  /-- HALTED -/
  halted : Bool
  /-- ERR -/
  err : ErrCode
  /-- UNDERRUN -/
  underrun : Bool
  /-- An ACQ has been accepted and waits: the command in execution (rule R32, rule R222, rule R288). -/
  waiting : Bool
  /-- The loop position of START, meaningful while RUNNING (rule R32). -/
  phase : Phase
  /-- The pin `sink_ok`. -/
  sinkOk : Bool
  /-- The `rsp_valid` pulse of the last step with its payload; `none` when no command completed. -/
  rsp : Option Rsp
  /-- `c_res` of the consumer operation accepted in the last step; `none` when none was. -/
  cRsp : Option Sample
  /-- What the outside world does next, first element first. -/
  inputs : List Input
  deriving DecidableEq, Repr

/-- Why a step stops outside the architecture. PNE's own faults are not among them: they are next states
(HALTED, ERR; `60_exceptions.md` rule R274). -/
inductive Fault where
  /-- The producer would form a sample address that does not exist (rule R71: it cannot). Raised by PUT, GEN,
  FILL and the fill phase of START when PP names no buffer or CNT[PP] is not below CAP; no run from reset gets
  there. Safe: the machine stops. -/
  | noSuchSample
  /-- C_READ of an INFLIGHT buffer's slot that nothing has written (U2: no run from reset gets there). Raised
  by C_READ. Safe: the machine stops. -/
  | unwrittenSample
  deriving DecidableEq, Repr

/-- Why a step has no meaning. -/
inductive Refusal where
  /-- An arm of exec whose meaning is not written. Raised by exec; safe. -/
  | notModelled (mnemonic : String)
  /-- The parameters are outside rule R9's ranges (U12: refuse). Raised by step; safe. -/
  | badParams
  deriving DecidableEq, Repr

/-- What every step answers. -/
abbrev Out := Host.Outcome State Fault Refusal

/-- GAIN after reset: 0.5 in either representation (rule R35, rule R51). -/
def gainReset (r : NumRepr) : Half :=
  match r with
  | .fixed => 0x00008000
  | .float => 0x3F000000

/-- The instance with parameters `p` right after reset (rule R51, rule R301). XS, PST, PINC are unspecified in
the spec and 0 here, DESIGN CHOICE (log entry 6); the samples are absent. -/
def State.resetOf (p : Params) : State where
  par := p
  rng := { seeded := false, alg := .xs32, xs := 0, pst := 0, pinc := 0 }
  sh :=
    { chain := Quad.all .none
      coef := Quad.all 0x40000000
      acc := Quad.all 0
      prev := Quad.all 0
      gain := gainReset p.repr
      nans := 0 }
  pool :=
    { own := Quad.all .free
      cnt := Quad.all 0
      mem := []
      pp := 0
      tp := 0
      rp := 0 }
  running := false
  halted := false
  err := .none
  underrun := false
  waiting := false
  phase := .acquire
  sinkOk := false
  rsp := none
  cRsp := none
  inputs := []

/-- The state right after reset of the default instance. -/
def State.reset : State := State.resetOf Config.instanceParams

end Sys2Proof.Machine
end

