-- ==== Sys2Proof/Machine/Operands.lean ====
section
/-! DEFINITION. The width and conversion operators of `00_scope.md` rule R12 and rule R13, and the operand and
result forms of `30_encoding.md` rule R103. Arithmetic is exact over Int and narrowed where a rule says so. -/

namespace Sys2Proof.Machine

/-- `asr(x, k) = floor(x / 2^k)` (rule R12). -/
def asr (x : Int) (k : Nat) : Int := x / 2 ^ k

/-- `trunc(p / 2^k)`: the quotient rounded toward zero (rule R12). -/
def truncShift (p : Int) (k : Nat) : Int := Int.tdiv p (2 ^ k)

/-- `clamp(v, lo, hi)` (rule R12). -/
def clamp (v lo hi : Int) : Int := if v < lo then lo else if hi < v then hi else v

/-- `clip16`, also called `saturate16` (rule R13). -/
def clip16 (v : Int) : Int := clamp v (-32768) 32767

/-- `sat64` (rule R13). -/
def sat64 (v : Int) : Int := clamp v (-2 ^ 63) (2 ^ 63 - 1)

/-- `bits_64(v)`: a signed result, sign-extended (rule R12, rule R103). -/
def bits64 (v : Int) : Word := BitVec.ofInt 64 v

/-- `bits_16(v)`: the pattern of an s16 (rule R12). -/
def bits16 (v : Int) : Sample := BitVec.ofInt 16 v

/-- An s16 as a 64-bit result: sign-extended (rule R103). -/
def sampleRes (v : Sample) : Word := v.signExtend 64

/-- The stage or clip input as the instance reads it: all 64 bits in FIXED, the low 32 bits as a binary32
pattern in FLOAT (rule R103). -/
def wordIn (r : NumRepr) (x : Word) : Word :=
  match r with
  | .fixed => x
  | .float => (x.extractLsb' 0 32).setWidth 64

/-- What a WRCSR to S[k] or P[k] stores: `b` in FIXED, `b[31:0]` zero-extended in FLOAT (rule R264, rule
R201). -/
def accIn (r : NumRepr) (b : Word) : Word := wordIn r b

/-- The binary32 pattern held in a stage word in FLOAT (rule R201). -/
def lowPattern (w : Word) : Half := w.extractLsb' 0 32

end Sys2Proof.Machine
end

