-- ==== Sys2Proof/Machine/Flags.lean ====
section
/-! DEFINITION. The derived flags and the assembled registers of `10_state.md` rule R39 to rule R46, and the
output pins of rule R30. Nothing here is stored. -/

namespace Sys2Proof.Machine

/-- HOLD: the producer is holding a buffer, `OWN[PP] = ACQUIRED` (rule R42). -/
def Pool.hold (p : Pool) : Bool := p.own.get p.pp == .acquired

/-- XSZERO: the live xorshift word is 0 (rule R42). -/
def Rng.xsZero (r : Rng) : Bool := r.seeded && r.alg == .xs32 && r.xs == 0

/-- The code of ERR (rule R271). -/
def ErrCode.code (e : ErrCode) : BitVec 4 :=
  match e with
  | .none => 0
  | .illegalCmd => 1
  | .badOperand => 2
  | .notSeeded => 3
  | .protocol => 4
  | .sinkFail => 5

/-- The bit of ALG: 0 XS32, 1 PCG32 (rule R33). -/
def Alg.bit (a : Alg) : Bool := a == .pcg32

/-- STATUS (rule R42). -/
def State.status (s : State) : Word :=
  (0 : BitVec 54) ++ BitVec.ofBool s.rng.xsZero ++ BitVec.ofBool s.pool.hold ++ s.err.code
    ++ BitVec.ofBool s.halted ++ BitVec.ofBool s.running ++ BitVec.ofBool s.rng.alg.bit
    ++ BitVec.ofBool s.rng.seeded

/-- PARAM[12]: 0 FIXED, 1 FLOAT (rule R43). -/
def reprBit (r : NumRepr) : Bool := r == .float

/-- PARAM (rule R43). -/
def paramWord (p : Params) : Word :=
  BitVec.ofNat 32 p.cap ++ (0 : BitVec 19) ++ BitVec.ofBool (reprBit p.repr) ++ BitVec.ofNat 4 p.ndraw
    ++ BitVec.ofNat 4 Config.nstage ++ BitVec.ofNat 4 p.nbuf

/-- CHAIN (rule R44). -/
def Shaper.chainReg (sh : Shaper) : BitVec 16 :=
  chainWord (sh.chain.get 0) (sh.chain.get 1) (sh.chain.get 2) (sh.chain.get 3)

/-- RNG0: the live generator's first word (rule R45). -/
def Rng.word0 (r : Rng) : Word :=
  match r.alg with
  | .xs32 => r.xs.setWidth 64
  | .pcg32 => r.pst

/-- RNG1: 0, or PINC when PCG32 is live (rule R45). -/
def Rng.word1 (r : Rng) : Word :=
  match r.alg with
  | .xs32 => 0
  | .pcg32 => r.pinc

/-- POOL (rule R46). -/
def Pool.word (p : Pool) : Word :=
  (if p.hold then p.cnt.get p.pp else 0) ++ (0 : BitVec 23) ++ BitVec.ofBool p.hold ++ (0 : BitVec 4)
    ++ BitVec.ofNat 4 p.pp.val

/-- The pin `cmd_ready`: a presented command is accepted (rule R32, rule R233, rule R276). -/
def State.cmdReady (s : State) : Bool := !s.running && !s.waiting

/-- The pin `c_avail`: `OWN[TP] = RELEASED` (rule R30). -/
def State.cAvail (s : State) : Bool := s.pool.own.get s.pool.tp == .released

/-- Buffer index `c_idx` as a ring index. -/
def ringIdx (idx : BitVec 2) : Fin 4 := idx.toFin

/-- The condition under which a C_READ is accepted (rule R235). -/
def State.readAccepted (s : State) (idx : BitVec 2) (slot : Half) : Bool :=
  decide (idx.toNat < s.par.nbuf) && decide (slot.toNat < s.par.cap)
    && s.pool.own.get (ringIdx idx) == .inflight

/-- The pin `c_ready` for a presented consumer operation (rule R104, rule R234 to rule R236). -/
def State.cReady (s : State) (o : ConsOp) : Bool :=
  match decodeCons o with
  | .cTake => s.cAvail
  | .cRead idx slot => s.readAccepted idx slot
  | .cReturn => s.pool.own.get s.pool.rp == .inflight
  | _ => true

/-- The output pins of rule R30 after a step, but for `c_ready`, which depends on the operation presented. -/
structure Pins where
  cmdReady : Bool
  rspValid : Bool
  rsp : Option Rsp
  running : Bool
  halted : Bool
  err : BitVec 4
  cRes : Option Sample
  cAvail : Bool
  cUnderrun : Bool
  deriving DecidableEq, Repr

/-- The pins mirror the state (rule R30). `rsp_res`, `rsp_err` and `c_res` have no value without a completed
step (U4). -/
def State.pins (s : State) : Pins where
  cmdReady := s.cmdReady
  rspValid := s.rsp.isSome
  rsp := s.rsp
  running := s.running
  halted := s.halted
  err := s.err.code
  cRes := s.cRsp
  cAvail := s.cAvail
  cUnderrun := s.underrun

end Sys2Proof.Machine
end

