-- ==== Sys2Proof/Machine/Memory.lean ====
section
/-! DEFINITION. The sample memory (`20_memory.md` rule R70 to rule R76): word-addressed samples of 16 bits, held
in the little-endian byte view of rule R73 as a list of (byte address, byte) with strictly rising addresses.
A byte nothing has written is absent (log entry 5). -/

namespace Sys2Proof.Machine

/-- What an unlisted byte address reads as: no value (U2, log entry 5). -/
def Mem.unlisted : Option (BitVec 8) := none

/-- Read one byte. -/
def Mem.read (m : List Host.Cell) (a : Nat) : Option (BitVec 8) :=
  match m with
  | [] => Mem.unlisted
  | (b, v) :: rest => if b = a then some v else Mem.read rest a

/-- Write one byte, keeping the addresses strictly rising. -/
def Mem.write (m : List Host.Cell) (a : Nat) (v : BitVec 8) : List Host.Cell :=
  match m with
  | [] => [(a, v)]
  | (b, w) :: rest =>
    if a < b then (a, v) :: (b, w) :: rest
    else if a = b then (a, v) :: rest
    else (b, w) :: Mem.write rest a v

/-- Addresses strictly rising, the first of them at least `lo`. -/
def Mem.risingFrom (lo : Nat) (m : List Host.Cell) : Bool :=
  match m with
  | [] => true
  | (b, _) :: rest => decide (lo ≤ b) && Mem.risingFrom (b + 1) rest

/-- The canonical form: addresses strictly rising, and no entry equal to what an unlisted address reads as
(an unlisted address reads as no value, so no entry can be). -/
def Mem.wf (m : List Host.Cell) : Bool := Mem.risingFrom 0 m

/-- `MemRead(addr, 2)`: the sample at a word address, byte `2*addr` low and byte `2*addr + 1` high (rule R71,
rule R73). -/
def Mem.readSample (m : List Host.Cell) (addr : Nat) : Option Sample :=
  match Mem.read m (2 * addr), Mem.read m (2 * addr + 1) with
  | some lo, some hi => some (hi ++ lo)
  | _, _ => none

/-- `MemWrite(addr, 2, v)` (rule R71, rule R73). -/
def Mem.writeSample (m : List Host.Cell) (addr : Nat) (v : Sample) : List Host.Cell :=
  Mem.write (Mem.write m (2 * addr) (v.extractLsb' 0 8)) (2 * addr + 1) (v.extractLsb' 8 8)

/-- The word address of slot `slot` of buffer `i` (rule R71). -/
def sampleAddr (cap i slot : Nat) : Nat := i * cap + slot

end Sys2Proof.Machine
end

