-- ==== Sys2Proof/Machine/Ops.lean ====
section
/-! DEFINITION. The shared operations: responses, taking a fault and the one way out of it, the acceptance rules
common to all commands (`60_exceptions.md` rule R272 to rule R277), and the ownership transfers of the pool
(`43_buffer.md` rule R221). -/

namespace Sys2Proof.Machine

/-! ## Responses -/

/-- The command completes with result `res` and `rsp_err = 0` (rule R30, decision D49). -/
def State.respond (s : State) (res : Word) : State := { s with rsp := some ⟨res, false⟩ }

/-- The command completes with `res = 0`, `rsp_err = 1` and changes nothing (rule R276). -/
def State.respondErr (s : State) : State := { s with rsp := some ⟨0, true⟩ }

/-- No command completes: the command presented is not accepted, or waits (rule R233, rule R222). -/
def State.noRsp (s : State) : State := { s with rsp := none }

/-- A consumer operation is accepted with result `v` on `c_res` (rule R104). -/
def State.cRespond (s : State) (v : Sample) : State := { s with cRsp := some v }

/-- The consumer operation presented is not accepted (rule R235, U6). -/
def State.noCRsp (s : State) : State := { s with cRsp := none }

/-! ## Faults and the way out -/

/-- Fault entry (rule R274): HALTED and ERR are set, the command responds with `res = 0`, `rsp_err = 1`,
nothing else changes. -/
def State.takeFault (s : State) (f : ErrCode) : State :=
  { s with halted := true, err := f, rsp := some ⟨0, true⟩ }

/-- A fault condition met by a command that also runs while HALTED (RDCSR): the first fault wins, so then
only the response tells of it (rule R276). -/
def State.raiseFault (s : State) (f : ErrCode) : State := if s.halted then s.respondErr else s.takeFault f

/-- Reset (rule R300, rule R301), the only way out of RUNNING and HALTED (rule R277): every element at its reset
value, the command in execution abandoned without a response. The pin `sink_ok` and the inputs to come are the
outside world's and stay (log entry 10). The model's own counter of free NaN values stays too, so that no NaN after
the reset has to be one from before it (U7; DESIGN CHOICE, log entry 2). -/
def State.applyReset (s : State) : State :=
  let z := State.resetOf s.par
  { z with sh := { z.sh with nans := s.sh.nans }, sinkOk := s.sinkOk, inputs := s.inputs }

/-! ## Acceptance -/

/-- A command other than NOP and RDCSR: not accepted while RUNNING or while a command is in execution (rule
R272 a, rule R233), discarded while HALTED (rule R276), else its own rule. -/
def command (s : State) (body : State → Out) : Out :=
  if s.cmdReady then
    if s.halted then .next s.respondErr else body s
  else .next s.noRsp

/-- NOP and RDCSR, which their own rule governs while HALTED too (rule R276). -/
def systemCommand (s : State) (body : State → Out) : Out :=
  if s.cmdReady then body s else .next s.noRsp

/-- An accepted command whose opcode is not in the map faults ILLEGAL_CMD (rule R106, rule R272 c). -/
def execIllegal (s : State) : Out := command s fun s => .next (s.takeFault .illegalCmd)

/-! ## The pool -/

/-- A ring pointer one further, modulo NBUF (rule R37, rule R221). -/
def ringNext (nbuf : Nat) (i : Fin 4) : Fin 4 := Fin.ofNat 4 ((i.val + 1) % nbuf)

/-- FREE to ACQUIRED on PP, `CNT[PP] <- 0` (rule R221, rule R222). -/
def Pool.acquire (p : Pool) : Pool :=
  { p with own := p.own.set p.pp .acquired, cnt := p.cnt.set p.pp 0 }

/-- ACQUIRED to RELEASED on PP, PP one further (rule R221, rule R226). -/
def Pool.release (nbuf : Nat) (p : Pool) : Pool :=
  { p with own := p.own.set p.pp .released, pp := ringNext nbuf p.pp }

/-- RELEASED to INFLIGHT on TP, TP one further (rule R221, rule R234). -/
def Pool.take (nbuf : Nat) (p : Pool) : Pool :=
  { p with own := p.own.set p.tp .inflight, tp := ringNext nbuf p.tp }

/-- INFLIGHT to FREE on RP, RP one further (rule R221, rule R236). -/
def Pool.giveBack (nbuf : Nat) (p : Pool) : Pool :=
  { p with own := p.own.set p.rp .free, rp := ringNext nbuf p.rp }

/-- The word address the producer's next sample goes to: `PP * CAP + CNT[PP]` (rule R224, rule R241). -/
def Pool.nextAddr (cap : Nat) (p : Pool) : Nat := sampleAddr cap p.pp.val (p.cnt.get p.pp).toNat

/-- One sample into the held buffer: slot `CNT[PP]` written, `CNT[PP] + 1` (rule R224, rule R228). -/
def Pool.store (cap : Nat) (p : Pool) (v : Sample) : Pool :=
  { p with
    mem := Mem.writeSample p.mem (p.nextAddr cap) v
    cnt := p.cnt.set p.pp (p.cnt.get p.pp + 1) }

/-- PP names a buffer and its next slot exists, so the address formed exists (rule R71; log entry 12). -/
def State.canStore (s : State) : Bool :=
  decide (s.pool.pp.val < s.par.nbuf) && decide ((s.pool.cnt.get s.pool.pp).toNat < s.par.cap)

/-- The held buffer is full: `CNT[PP] = CAP` (rule R224, rule R226). -/
def State.full (s : State) : Bool := (s.pool.cnt.get s.pool.pp).toNat == s.par.cap

/-- The blocked acquire (rule R222): it completes with `res = PP` once `OWN[PP] = FREE`, and is the command in
execution until then. -/
def State.acquireOrWait (s : State) : State :=
  if s.pool.own.get s.pool.pp == .free then
    { s with pool := s.pool.acquire, waiting := false, rsp := some ⟨BitVec.ofNat 64 s.pool.pp.val, false⟩ }
  else { s with waiting := true, rsp := none }

end Sys2Proof.Machine
end

