-- ==== Sys2Proof/Machine/Rng.lean ====
section
/-! DEFINITION. RandomSampler: SEEDX, SEEDP, NEXTU, NEXTN (`40_rng.md`). -/

namespace Sys2Proof.Machine

/-- The xorshift recurrence, left 13, right 17, left 5 (rule R138). -/
def xs32Step (x : Half) : Half :=
  let x1 := x ^^^ (x <<< 13)
  let x2 := x1 ^^^ (x1 >>> 17)
  x2 ^^^ (x2 <<< 5)

/-- The PCG multiplier (rule R135). -/
def pcgMul : Word := 6364136223846793005

/-- The PCG state update, modulo 2^64 (rule R135). -/
def pcgAdvance (st inc : Word) : Word := pcgMul * st + inc

/-- The PCG output permutation of the old state: 32 bits rotated right by its top 5 bits (rule R139). -/
def pcgOutput (old : Word) : Half :=
  ((((old >>> 18) ^^^ old) >>> 27).setWidth 32).rotateRight (old >>> 59).toNat

/-- SEEDX's writes (rule R131); PST and PINC stay. -/
def Rng.seedX (r : Rng) (value : Half) : Rng := { r with xs := value, alg := .xs32, seeded := true }

/-- `inc = (init_seq << 1) | 1` (rule R134). -/
def pcgInc (initSeq : Word) : Word := (initSeq <<< 1) ||| 1

/-- SEEDP's writes: advance from 0, add `init_state`, advance again (rule R134); XS stays. -/
def Rng.seedP (r : Rng) (initState initSeq : Word) : Rng :=
  let inc := pcgInc initSeq
  { r with
    pinc := inc
    pst := pcgAdvance (pcgAdvance 0 inc + initState) inc
    alg := .pcg32
    seeded := true }

/-- `draw()`: the xorshift state after its step, or the permutation of the PCG state before its advance (rule
R140). -/
def Rng.draw (r : Rng) : Half × Rng :=
  match r.alg with
  | .xs32 => (xs32Step r.xs, { r with xs := xs32Step r.xs })
  | .pcg32 => (pcgOutput r.pst, { r with pst := pcgAdvance r.pst r.pinc })

/-- `u[15:0] + u[31:16]` (rule R142). -/
def halvesSum (u : Half) : Nat := (u.extractLsb' 0 16).toNat + (u.extractLsb' 16 16).toNat

/-- The sum of both halves of `n` draws, one after the other (rule R142). -/
def Rng.drawSum (n : Nat) (r : Rng) : Nat × Rng :=
  match n with
  | 0 => (0, r)
  | k + 1 =>
    let (u, r1) := r.draw
    let (rest, r2) := Rng.drawSum k r1
    (halvesSum u + rest, r2)

/-- `normal()`: `floor(sum / NDRAW) - 65535` (rule R142). -/
def Rng.normal (ndraw : Nat) (r : Rng) : Int × Rng :=
  let (sum, r1) := r.drawSum ndraw
  (((sum / ndraw : Nat) : Int) - 65535, r1)

/-- The seeding gate (rule R130). -/
def seededOnly (s : State) (body : State → Out) : Out :=
  if s.rng.seeded then body s else .next (s.takeFault .notSeeded)

/-- SEEDX, rule R131. -/
def execSeedx (value : Half) (s : State) : Out :=
  command s fun s => .next (State.respond { s with rng := s.rng.seedX value } 0)

/-- SEEDP, rule R134. -/
def execSeedp (initState initSeq : Word) (s : State) : Out :=
  command s fun s => .next (State.respond { s with rng := s.rng.seedP initState initSeq } 0)

/-- NEXTU, rule R137: the draw, zero-extended. -/
def execNextu (s : State) : Out :=
  command s fun s => seededOnly s fun s =>
    let (u, r) := s.rng.draw
    .next (State.respond { s with rng := r } (u.setWidth 64))

/-- NEXTN, rule R141: the normal draw, sign-extended. -/
def execNextn (s : State) : Out :=
  command s fun s => seededOnly s fun s =>
    let (n, r) := s.rng.normal s.par.ndraw
    .next (State.respond { s with rng := r } (bits64 n))

end Sys2Proof.Machine
end

