-- ==== Sys2Proof/Machine/Float.lean ====
section
/-! DEFINITION. IEEE 754 binary32 on bit patterns, rounded to nearest with ties to even, gradual underflow, no
traps (`42_shaper_float.md` rule R200). A finite value is kept exactly as (sign, m, e) for ± m * 2^e until it is
rounded once. The sign and payload of a NaN result are free (U7). -/

namespace Sys2Proof.Machine

/-- A binary32 datum with its exact value. -/
inductive Datum where
  | nan
  | inf (neg : Bool)
  /-- `(-1)^neg * m * 2^e`; `m = 0` is a signed zero. -/
  | fin (neg : Bool) (m : Nat) (e : Int)
  deriving DecidableEq, Repr

/-- The datum of a pattern: bit 31 sign, bits 30:23 exponent, bits 22:0 fraction (rule R201). -/
def unpack (w : Half) : Datum :=
  let neg := (w.extractLsb' 31 1) == 1
  let ex := (w.extractLsb' 23 8).toNat
  let fr := (w.extractLsb' 0 23).toNat
  if ex = 255 then (if fr = 0 then .inf neg else .nan)
  else if ex = 0 then .fin neg fr (-149)
  else .fin neg (2 ^ 23 + fr) ((ex : Int) - 150)

/-- The magnitude bits (30:0) of infinity. -/
def infMag : Nat := 0x7F800000

/-- A pattern from a sign and magnitude bits. -/
def packBits (neg : Bool) (mag : Nat) : Half := BitVec.ofNat 32 ((if neg then 2 ^ 31 else 0) + mag)

/-- `m / 2^d` rounded to nearest, ties to even. -/
def shiftRoundEven (m d : Nat) : Nat :=
  let n := m / 2 ^ d
  let r := 2 * (m % 2 ^ d)
  if 2 ^ d < r ∨ (r = 2 ^ d ∧ n % 2 = 1) then n + 1 else n

/-- The magnitude bits of `m * 2^e` (`m > 0`) rounded to binary32. The unit of the last place is `2^q` with
`q = max(floor(log2 value) - 23, -149)`; the carry of a rounding up, the step from subnormal to normal and the
step to infinity all come out of the one sum. -/
def roundMag (m : Nat) (e : Int) : Nat :=
  let q : Int := max ((Nat.log2 m : Int) + e - 23) (-149)
  let n := if q ≤ e then m * 2 ^ (e - q).toNat else shiftRoundEven m (q - e).toNat
  min (2 ^ 23 * (q + 149).toNat + n) infMag

/-- `fl(± m * 2^e)` (rule R200). -/
def roundPack (neg : Bool) (m : Nat) (e : Int) : Half :=
  packBits neg (if m = 0 then 0 else roundMag m e)

/-- The NaN an operation gives: quiet, with sign and payload free (rule R200, U7, log entry 2). -/
def nanPattern (fresh : Nat) : Half :=
  let f := Config.nanFree fresh
  f.extractLsb' 22 1 ++ (0x1FF : BitVec 9) ++ f.extractLsb' 0 22

/-- The signed integer mantissa of a finite datum at exponent `e`, at most its own exponent. -/
def alignInt (neg : Bool) (m : Nat) (own e : Int) : Int :=
  let v : Int := (m * 2 ^ (own - e).toNat : Nat)
  if neg then -v else v

/-- `fl(a + b)`. An exact zero sum is +0 unless both operands are negative: the IEEE 754 operation that rule R200
names, also where rule R205 infers otherwise (DEDUCED, log entry 15). -/
def fAdd (fresh : Nat) (a b : Half) : Half :=
  match unpack a, unpack b with
  | .nan, _ => nanPattern fresh
  | _, .nan => nanPattern fresh
  | .inf na, .inf nb => if na = nb then packBits na infMag else nanPattern fresh
  | .inf na, .fin _ _ _ => packBits na infMag
  | .fin _ _ _, .inf nb => packBits nb infMag
  | .fin na ma ea, .fin nb mb eb =>
    let e := min ea eb
    let v := alignInt na ma ea e + alignInt nb mb eb e
    let neg := if v = 0 then na && nb else decide (v < 0)
    roundPack neg v.natAbs e

/-- The pattern with its sign turned over. -/
def fNeg (a : Half) : Half := a ^^^ 0x80000000

/-- `fl(a - b)`. -/
def fSub (fresh : Nat) (a b : Half) : Half := fAdd fresh a (fNeg b)

/-- `fl(a * b)`. Infinity times zero is a NaN. -/
def fMul (fresh : Nat) (a b : Half) : Half :=
  match unpack a, unpack b with
  | .nan, _ => nanPattern fresh
  | _, .nan => nanPattern fresh
  | .inf na, .inf nb => packBits (na != nb) infMag
  | .inf na, .fin nb m _ => if m = 0 then nanPattern fresh else packBits (na != nb) infMag
  | .fin na m _, .inf nb => if m = 0 then nanPattern fresh else packBits (na != nb) infMag
  | .fin na ma ea, .fin nb mb eb => roundPack (na != nb) (ma * mb) (ea + eb)

/-- `fl(a * 2^-k)` (rule R204, INTEG). -/
def fScaleDown (fresh : Nat) (a : Half) (k : Nat) : Half :=
  match unpack a with
  | .nan => nanPattern fresh
  | .inf na => packBits na infMag
  | .fin na m e => roundPack na m (e - (k : Int))

/-- `fl(n)` of an integer (rule R202). -/
def fOfInt (n : Int) : Half := roundPack (decide (n < 0)) n.natAbs 0

/-- The pattern is a NaN. -/
def isNan (a : Half) : Bool := unpack a == .nan

/-- Order of two patterns that are no NaN: sign and magnitude as one integer, both zeros equal. -/
def fKey (a : Half) : Int :=
  let mag : Int := ((a.extractLsb' 0 31).toNat : Int)
  if a.extractLsb' 31 1 == 1 then -mag else mag

/-- `a < b` as IEEE 754 compares: false when either is a NaN. -/
def fLt (a b : Half) : Bool := !isNan a && !isNan b && decide (fKey a < fKey b)

/-- `trunc` of a datum that is no NaN, then `clip16`: infinities go to the rails (rule R209). A NaN gives 0. -/
def fClip16 (a : Half) : Int :=
  match unpack a with
  | .nan => 0
  | .inf neg => if neg then -32768 else 32767
  | .fin neg m e =>
    let t : Int := if 0 ≤ e then ((m * 2 ^ e.toNat : Nat) : Int) else ((m / 2 ^ (-e).toNat : Nat) : Int)
    clip16 (if neg then -t else t)

end Sys2Proof.Machine
end

