-- ==== Sys2Proof/Machine/Shaper.lean ====
section
/-! DEFINITION. NoiseShaper: the stages in both representations, the clip, the chain, and STAGE, CLIP, SHAPE
(`41_shaper_fixed.md`, `42_shaper_float.md`). -/

namespace Sys2Proof.Machine

/-- What evaluating one slot gives: its output and its new S[k] and P[k]. -/
structure SlotOut where
  y : Word
  acc : Word
  prev : Word
  deriving DecidableEq, Repr

/-! ## FIXED -/

/-- `clampA` (rule R163): the alpha used is strictly inside (0, 1). -/
def clampA (c : Half) : Int :=
  if c.toNat = 0 then 1 else if 2 ^ 31 ≤ c.toNat then 2 ^ 31 - 1 else c.toNat

/-- The INTEG shift count `COEF[k][4:0]` (rule R165, rule R204). -/
def integShift (c : Half) : Nat := (c.extractLsb' 0 5).toNat

/-- INTEG: `clamp(S + asr(X, K))` to the Q31 words of -32768.0 and 32767.0 (rule R165). -/
def integFixed (c : Half) (s x : Int) : Int :=
  clamp (s + asr x (integShift c)) (-32768 * 2 ^ 31) (32767 * 2 ^ 31)

/-- LPF: `sat64(asr(A * X + (2^31 - A) * S, 31))` (rule R167). -/
def lpfFixed (c : Half) (s x : Int) : Int :=
  sat64 (asr (clampA c * x + (2 ^ 31 - clampA c) * s) 31)

/-- HPF: `sat64(asr(A * (S + X - P), 31))` (rule R169). -/
def hpfFixed (c : Half) (s p x : Int) : Int := sat64 (asr (clampA c * (s + x - p)) 31)

/-- `stage_fixed` by kind (rule R164 to rule R169). -/
def slotFixed (kind : Kind) (c : Half) (s p x : Word) : SlotOut :=
  match kind with
  | .none => ⟨x, s, p⟩
  | .integ =>
    let y := bits64 (integFixed c s.toInt x.toInt)
    ⟨y, y, p⟩
  | .lpf =>
    let y := bits64 (lpfFixed c s.toInt x.toInt)
    ⟨y, y, p⟩
  | .hpf =>
    let y := bits64 (hpfFixed c s.toInt p.toInt x.toInt)
    ⟨y, y, x⟩

/-- `clip_fixed`: multiply by GAIN, round toward zero, clamp (rule R173). -/
def clipFixed (gain : Half) (x : Word) : Int := clip16 (truncShift (x.toInt * gain.toNat) 47)

/-! ## FLOAT -/

/-- `clampF` (rule R203): NaN and all that is not positive to 2^-31, 1 and above to 1 - 2^-24. -/
def clampF (c : Half) : Half :=
  if isNan c then 0x30000000
  else if fKey c ≤ 0 then 0x30000000
  else if fKey (0x3F800000 : Half) ≤ fKey c then 0x3F7FFFFF
  else c

/-- INTEG's saturation to [-32768.0, 32767.0]; a NaN is kept (rule R204). -/
def fSaturate16 (t : Half) : Half :=
  if fLt 0x46FFFE00 t then 0x46FFFE00 else if fLt t 0xC7000000 then 0xC7000000 else t

/-- INTEG in FLOAT (rule R204). -/
def integFloat (n : Nat) (c s x : Half) : Half :=
  fSaturate16 (fAdd (n + 1) s (fScaleDown n x (integShift c)))

/-- LPF in FLOAT: `fl(fl(A*x) + fl(fl(1.0 - A)*s))` (rule R204). With `x = +0` a negative state that underflows
ends at +0, where rule R205 infers -0 (DEDUCED, log entry 15). -/
def lpfFloat (n : Nat) (c s x : Half) : Half :=
  fAdd (n + 3) (fMul n (clampF c) x) (fMul (n + 2) (fSub (n + 1) 0x3F800000 (clampF c)) s)

/-- HPF in FLOAT: `fl(A * fl(fl(s + x) - p))` (rule R204). Finite but huge S and P can give an infinity, where rule
R205 infers none (DEDUCED, log entry 15). -/
def hpfFloat (n : Nat) (c s p x : Half) : Half :=
  fMul (n + 2) (clampF c) (fSub (n + 1) (fAdd n s x) p)

/-- `stage_float` by kind, on the low patterns of the words; every word written is zero-extended (rule R204,
rule R201). `n` is the number of the first free NaN of this evaluation. -/
def slotFloat (n : Nat) (kind : Kind) (c : Half) (s p x : Word) : SlotOut :=
  match kind with
  | .none => ⟨(lowPattern x).setWidth 64, s, p⟩
  | .integ =>
    let y := (integFloat n c (lowPattern s) (lowPattern x)).setWidth 64
    ⟨y, y, p⟩
  | .lpf =>
    let y := (lpfFloat n c (lowPattern s) (lowPattern x)).setWidth 64
    ⟨y, y, p⟩
  | .hpf =>
    let y := (hpfFloat n c (lowPattern s) (lowPattern p) (lowPattern x)).setWidth 64
    ⟨y, y, (lowPattern x).setWidth 64⟩

/-- `clip_float` (rule R209): a NaN product gives the sample 0. -/
def clipFloat (gain : Half) (x : Word) : Int := fClip16 (fMul 0 (lowPattern x) gain)

/-! ## Both representations -/

/-- How many free NaN values one stage evaluation may use up; the counter moves on by this much in FLOAT. -/
def nanStride (r : NumRepr) : Nat :=
  match r with
  | .fixed => 0
  | .float => 4

/-- One slot evaluated in the instance's representation. -/
def slotEval (r : NumRepr) (n : Nat) (kind : Kind) (c : Half) (s p x : Word) : SlotOut :=
  match r with
  | .fixed => slotFixed kind c s p x
  | .float => slotFloat n kind c s p x

/-- `stage(k, X)`: the output and the shaper with slot `k`'s state updated (rule R160, rule R170). -/
def Shaper.stage (r : NumRepr) (k : Fin 4) (x : Word) (sh : Shaper) : Word × Shaper :=
  let o := slotEval r sh.nans (sh.chain.get k) (sh.coef.get k) (sh.acc.get k) (sh.prev.get k) x
  (o.y, { sh with
    acc := sh.acc.set k o.acc
    prev := sh.prev.set k o.prev
    nans := sh.nans + nanStride r })

/-- `clip(X)` (rule R173, rule R209). -/
def clip (r : NumRepr) (gain : Half) (x : Word) : Int :=
  match r with
  | .fixed => clipFixed gain x
  | .float => clipFloat gain x

/-- The chain's input word of the integer sample `n`: `n << 31`, or `fl(n)` (rule R162, rule R202). -/
def chainInput (r : NumRepr) (n : Int) : Word :=
  match r with
  | .fixed => bits64 (n * 2 ^ 31)
  | .float => (fOfInt n).setWidth 64

/-- The four slots in the order 0, 1, 2, 3, each fed by the one before it (rule R174). -/
def Shaper.chainEval (r : NumRepr) (x : Word) (sh : Shaper) : Word × Shaper :=
  let (x0, sh0) := sh.stage r 0 x
  let (x1, sh1) := sh0.stage r 1 x0
  let (x2, sh2) := sh1.stage r 2 x1
  sh2.stage r 3 x2

/-- `shape(n)`: the chain, then the clip (rule R174). -/
def Shaper.shape (r : NumRepr) (n : Int) (sh : Shaper) : Sample × Shaper :=
  let (x, sh') := sh.chainEval r (chainInput r n)
  (bits16 (clip r sh.gain x), sh')

/-! ## Commands -/

/-- The slot that an 8-bit number names; `none` when it is NSTAGE or more (rule R103, rule R170). -/
def slotOf (k : BitVec 8) : Option (Fin 4) :=
  if h : k.toNat < 4 then some ⟨k.toNat, h⟩ else none

/-- STAGE, rule R170 and rule R206. -/
def execStage (k : BitVec 8) (x : Word) (s : State) : Out :=
  command s fun s =>
    match slotOf k with
    | none => .next (s.takeFault .badOperand)
    | some j =>
      let (y, sh) := s.sh.stage s.par.repr j (wordIn s.par.repr x)
      .next (State.respond { s with sh := sh } y)

/-- CLIP, rule R176 and rule R210. The s16 is sign-extended in both representations, as rule R210, rule R176 and rule
R103 say, where a sentence of rule R201 has STAGE and CLIP zero-extend (DEDUCED, log entry 16). -/
def execClip (x : Word) (s : State) : Out :=
  command s fun s => .next (s.respond (bits64 (clip s.par.repr s.sh.gain (wordIn s.par.repr x))))

/-- SHAPE, rule R178. -/
def execShape (n : Half) (s : State) : Out :=
  command s fun s =>
    let (y, sh) := s.sh.shape s.par.repr n.toInt
    .next (State.respond { s with sh := sh } (sampleRes y))

end Sys2Proof.Machine
end

