-- ==== Sys2Proof/Machine/Buffer.lean ====
section
/-! DEFINITION. BufferStreamer, the producer side: ACQ, PUT, REL, GEN, FILL, START and the generation loop
(`43_buffer.md` rule R220 to rule R233). -/

namespace Sys2Proof.Machine

/-- `gen_body()` (rule R228): one normal draw through the shaper into the next slot. -/
def State.genBody (s : State) : Sample × State :=
  let (n, rng) := s.rng.normal s.par.ndraw
  let (y, sh) := s.sh.shape s.par.repr n
  (y, { s with rng := rng, sh := sh, pool := s.pool.store s.par.cap y })

/-- `repeat m times: gen_body()` (rule R230). -/
def State.genTimes (m : Nat) (s : State) : State :=
  match m with
  | 0 => s
  | k + 1 => State.genTimes k s.genBody.2

/-- ACQ, rule R222: PROTOCOL when already holding, else the blocked acquire. -/
def execAcq (s : State) : Out :=
  command s fun s =>
    if s.pool.hold then .next (s.takeFault .protocol) else .next s.acquireOrWait

/-- PUT, rule R224. -/
def execPut (v : Sample) (s : State) : Out :=
  command s fun s =>
    if !s.pool.hold || s.full then .next (s.takeFault .protocol)
    else if s.canStore then
      .next (State.respond { s with pool := s.pool.store s.par.cap v } 0)
    else .fault .noSuchSample

/-- REL, rule R226: PROTOCOL unless a full buffer is held. -/
def execRel (s : State) : Out :=
  command s fun s =>
    if !s.pool.hold || !s.full then .next (s.takeFault .protocol)
    else .next (State.respond { s with pool := s.pool.release s.par.nbuf } 0)

/-- GEN, rule R228: the sample written, sign-extended. -/
def execGen (s : State) : Out :=
  command s fun s => seededOnly s fun s =>
    if !s.pool.hold || s.full then .next (s.takeFault .protocol)
    else if s.canStore then
      let (y, s') := s.genBody
      .next (s'.respond (sampleRes y))
    else .fault .noSuchSample

/-- FILL, rule R230: `m = CAP - CNT[PP]` samples in one step, which rule R230 makes no observable difference
(log entry 7). -/
def execFill (s : State) : Out :=
  command s fun s => seededOnly s fun s =>
    if !s.pool.hold then .next (s.takeFault .protocol)
    else if s.full || s.canStore then
      let m := s.par.cap - (s.pool.cnt.get s.pool.pp).toNat
      .next ((s.genTimes m).respond (BitVec.ofNat 64 m))
    else .fault .noSuchSample

/-- START, rule R232: NOT_SEEDED, then PROTOCOL, then SINK_FAIL; otherwise RUNNING, with no response. -/
def execStart (s : State) : Out :=
  command s fun s => seededOnly s fun s =>
    if s.pool.hold then .next (s.takeFault .protocol)
    else if !s.sinkOk then .next (s.takeFault .sinkFail)
    else .next { s with running := true, phase := .acquire, rsp := none }

/-- One step of START's loop (rule R232): the acquire phase waits for a FREE buffer, the fill phase makes one
sample, the release phase hands the buffer over (log entry 7). -/
def loopStep (s : State) : Out :=
  match s.phase with
  | .acquire =>
    if s.pool.own.get s.pool.pp == .free then
      .next { s with pool := s.pool.acquire, phase := .fill }
    else .next s
  | .fill =>
    if s.canStore then
      let s' := s.genBody.2
      .next { s' with phase := if s'.full then .release else .fill }
    else .fault .noSuchSample
  | .release => .next { s with pool := s.pool.release s.par.nbuf, phase := .acquire }

end Sys2Proof.Machine
end

