-- ==== Sys2Proof/Machine/Consumer.lean ====
section
/-! DEFINITION. The consumer port: C_IDLE, C_TAKE, C_READ, C_RETURN (`30_encoding.md` rule R105, `43_buffer.md`
rule R234 to rule R237). The port does not depend on RUNNING or HALTED (rule R275). An operation that is not
accepted changes nothing (U6; log entry 8), but a C_TAKE then sets UNDERRUN. -/

namespace Sys2Proof.Machine

/-- C_IDLE, rule R105: always accepted, `c_res = 0`. -/
def execCIdle (s : State) : Out := .next (s.cRespond 0)

/-- C_TAKE, rule R234; not accepted, it sets UNDERRUN, rule R237. -/
def execCTake (s : State) : Out :=
  if s.cAvail then
    .next (State.cRespond { s with pool := s.pool.take s.par.nbuf } (BitVec.ofNat 16 s.pool.tp.val))
  else .next (State.noCRsp { s with underrun := true })

/-- C_READ, rule R235. -/
def execCRead (idx : BitVec 2) (slot : Half) (s : State) : Out :=
  if s.readAccepted idx slot then
    match Mem.readSample s.pool.mem (sampleAddr s.par.cap idx.toNat slot.toNat) with
    | some v => .next (s.cRespond v)
    | none => .fault .unwrittenSample
  else .next s.noCRsp

/-- C_RETURN, rule R236. -/
def execCReturn (s : State) : Out :=
  if s.pool.own.get s.pool.rp == .inflight then
    .next (State.cRespond { s with pool := s.pool.giveBack s.par.nbuf } 0)
  else .next s.noCRsp

end Sys2Proof.Machine
end

