-- ==== Sys2Proof/Machine/System.lean ====
section
/-! DEFINITION. The system commands NOP, RDCSR, WRCSR (`44_system.md`) over the CSR map of `10_state.md` rule
R40 to rule R46. -/

namespace Sys2Proof.Machine

/-- `csr[n]`, zero-extended to 64 bits (rule R40, rule R42 to rule R46). COEF reads back raw (rule R163). -/
def State.csrRead (s : State) (c : Csr) : Word :=
  match c with
  | .status => s.status
  | .param => paramWord s.par
  | .chain => s.sh.chainReg.setWidth 64
  | .gain => s.sh.gain.setWidth 64
  | .rng0 => s.rng.word0
  | .rng1 => s.rng.word1
  | .pool => s.pool.word
  | .coef k => (s.sh.coef.get k).setWidth 64
  | .acc k => s.sh.acc.get k
  | .prev k => s.sh.prev.get k

/-- The CSR shows RNG words, which have no value before a seed (rule R45). -/
def csrNeedsSeed (c : Csr) : Bool := c == .rng0 || c == .rng1

/-- The four kinds of `b[15:0]`, if every nibble is a kind code (rule R44). -/
def chainOf (v : Word) : Option (Quad Kind) :=
  match Kind.ofNibble (v.extractLsb' 0 4), Kind.ofNibble (v.extractLsb' 4 4),
    Kind.ofNibble (v.extractLsb' 8 4), Kind.ofNibble (v.extractLsb' 12 4) with
  | some k0, some k1, some k2, some k3 => some ⟨k0, k1, k2, k3⟩
  | _, _, _, _ => none

/-- The shaper after a write of `v` to a CSR; `none` for a read-only register and for a CHAIN value with a
reserved nibble (rule R264). Values are stored raw. -/
def Shaper.csrWrite (r : NumRepr) (sh : Shaper) (c : Csr) (v : Word) : Option Shaper :=
  match c with
  | .status | .param | .rng0 | .rng1 | .pool => none
  | .chain =>
    match chainOf v with
    | some q => some { sh with chain := q }
    | none => none
  | .gain => some { sh with gain := v.extractLsb' 0 32 }
  | .coef k => some { sh with coef := sh.coef.set k (v.extractLsb' 0 32) }
  | .acc k => some { sh with acc := sh.acc.set k (accIn r v) }
  | .prev k => some { sh with prev := sh.prev.set k (accIn r v) }

/-- NOP, rule R260. -/
def execNop (s : State) : Out := systemCommand s fun s => .next (s.respond 0)

/-- RDCSR, rule R262. -/
def execRdcsr (n : BitVec 8) (s : State) : Out :=
  systemCommand s fun s =>
    match Csr.ofNum n with
    | none => .next (s.raiseFault .badOperand)
    | some c =>
      if csrNeedsSeed c && !s.rng.seeded then .next (s.raiseFault .notSeeded)
      else .next (s.respond (s.csrRead c))

/-- WRCSR, rule R264. -/
def execWrcsr (n : BitVec 8) (v : Word) (s : State) : Out :=
  command s fun s =>
    match Csr.ofNum n with
    | none => .next (s.takeFault .badOperand)
    | some c =>
      match s.sh.csrWrite s.par.repr c v with
      | none => .next (s.takeFault .badOperand)
      | some sh => .next (State.respond { s with sh := sh } 0)

end Sys2Proof.Machine
end

