-- ==== Sys2Proof/Machine/Dispatch.lean ====
section
/-! DEFINITION. One arm per instruction: the effect of presenting it at its port. -/

namespace Sys2Proof.Machine

def exec (i : Instr) (s : State) : Host.Outcome State Fault Refusal :=
  match i with
  -- 44_system.md
  | .nop => Sys2Proof.Machine.execNop s
  | .rdcsr n => Sys2Proof.Machine.execRdcsr n s
  | .wrcsr n v => Sys2Proof.Machine.execWrcsr n v s
  -- 40_rng.md
  | .seedx value => Sys2Proof.Machine.execSeedx value s
  | .seedp initState initSeq => Sys2Proof.Machine.execSeedp initState initSeq s
  | .nextu => Sys2Proof.Machine.execNextu s
  | .nextn => Sys2Proof.Machine.execNextn s
  -- 41_shaper_fixed.md and 42_shaper_float.md
  | .stage k x => Sys2Proof.Machine.execStage k x s
  | .clip x => Sys2Proof.Machine.execClip x s
  | .shape n => Sys2Proof.Machine.execShape n s
  -- 43_buffer.md, producer
  | .acq => Sys2Proof.Machine.execAcq s
  | .put v => Sys2Proof.Machine.execPut v s
  | .rel => Sys2Proof.Machine.execRel s
  | .gen => Sys2Proof.Machine.execGen s
  | .fill => Sys2Proof.Machine.execFill s
  | .start => Sys2Proof.Machine.execStart s
  -- 43_buffer.md, consumer
  | .cIdle => Sys2Proof.Machine.execCIdle s
  | .cTake => Sys2Proof.Machine.execCTake s
  | .cRead idx slot => Sys2Proof.Machine.execCRead idx slot s
  | .cReturn => Sys2Proof.Machine.execCReturn s

end Sys2Proof.Machine
end

