-- ==== Sys2Proof/Machine/Agents.lean ====
section
/-! DEFINITION. The agents of `00_scope.md` rule R7: what happens when the outside world's next input arrives,
and the producer's own steps. -/

namespace Sys2Proof.Machine

/-- The response pulses of the step before are over (rule R30: one pulse per completed command). -/
def State.quiet (s : State) : State := { s with rsp := none, cRsp := none }

/-- A step of the producer's own (rule R7): of START's loop while RUNNING, of a waiting ACQ, else nothing
(rule R300: nothing runs by itself). -/
def producerStep (s : State) : Out :=
  if s.running then loopStep s
  else if s.waiting then .next s.acquireOrWait
  else .next s

/-- One input of the outside world, as one atomic step (rule R7). -/
def perform (e : Input) (s : State) : Out :=
  match e with
  | .port w =>
    match decode w with
    | .ok i => exec i s
    | .error _ => execIllegal s
  | .producer => producerStep s
  | .sinkPin ok => .next { s with sinkOk := ok }
  | .rstPulse => .next s.applyReset

/-- The machine as the next input finds it: that input taken off the list, the pulses over. -/
def State.afterInput (s : State) : State := { s.quiet with inputs := s.inputs.tail }

/-- One step of a legal instance: the next input, or, with none to come, a step of the producer's own (log
entry 4). -/
def stepLegal (s : State) : Out :=
  match s.inputs with
  | [] => producerStep s.afterInput
  | e :: _ => perform e s.afterInput

end Sys2Proof.Machine
end

