-- ==== Sys2Proof/Machine/Step.lean ====
section
/-! DEFINITION. The step, and how an instruction comes to be the next one. PNE has no program counter and
fetches nothing (`10_state.md` rule R32): the next instruction is the next one presented at a port. -/

namespace Sys2Proof.Machine

/-- One step. Parameters outside rule R9's ranges are refused (U12). -/
def step (s : State) : Host.Outcome State Fault Refusal :=
  if s.par.wf then stepLegal s else .refused .badParams

/-- `s` with the port word of `(nbits, w)` presented next (log entries 3 and 4). -/
def State.withFetchWord (s : State) (nbits w : Nat) : State :=
  { s with inputs := .port (tablePort nbits w) :: s.inputs }

end Sys2Proof.Machine
end

