-- ==== Sys2Proof/Machine/Coef.lean ====
section
/-! DEFINITION. The host's coefficient derivation (`41_shaper_fixed.md` rule R190 to rule R194, `42_shaper_float.md`
rule R211). PNE never evaluates it: the host does, and writes the result to COEF[k] with WRCSR (rule R190).
`fc` is the cutoff and `fs` the sample rate in Hz. -/

namespace Sys2Proof.Machine

/-- `TWO_PI_Q16 = 411775` (rule R192). -/
def twoPiQ16 : Nat := 411775

/-- `A_lp(fc, FS) = floor(W * 2^31 / (F + W))` (rule R192). -/
def alphaLpFixed (fc fs : Nat) : Nat :=
  let w := twoPiQ16 * fc
  2 ^ 31 * w / (65536 * fs + w)

/-- `A_hp(fc, FS) = floor(F * 2^31 / (F + W))` (rule R192). -/
def alphaHpFixed (fc fs : Nat) : Nat :=
  let f := 65536 * fs
  2 ^ 31 * f / (f + twoPiQ16 * fc)

/-- Two pi times 10^40, rounded down: the value of pi is general knowledge (log entry 13). -/
def twoPiE40 : Nat := 62831853071795864769252867665590057683943

/-- The binary32 nearest the ratio `num / den` (`den > 0`): 80 further bits and a sticky bit are kept before the
one rounding, enough for any ratio of 2^-50 or more. -/
def roundRatio (num den : Nat) : Half :=
  let m := 2 ^ 80 * num / den
  let sticky := if 2 ^ 80 * num % den = 0 then 0 else 1
  roundPack false (2 * m + sticky) (-81)

/-- The FLOAT reference of `alpha_lp = w / (FS + w)`, `w = 2 * pi * fc` (rule R191, rule R211). -/
def alphaLpFloat (fc fs : Nat) : Half := roundRatio (twoPiE40 * fc) (10 ^ 40 * fs + twoPiE40 * fc)

/-- The FLOAT reference of `alpha_hp = FS / (FS + w)` (rule R191, rule R211). -/
def alphaHpFloat (fc fs : Nat) : Half := roundRatio (10 ^ 40 * fs) (10 ^ 40 * fs + twoPiE40 * fc)

end Sys2Proof.Machine
end

