-- ==== Sys2Proof/Safety.lean ====
section
/-! DEFINITION. The terms claims are made in: when a command is taken up, the invariant of the machine, safe
runs, and the rational value of a binary32 pattern. -/

namespace Sys2Proof.Machine

/-- A command presented now is accepted and governed by its own rule (rule R272): neither RUNNING, nor a command
in execution, nor HALTED. -/
abbrev State.Accepts (s : State) : Prop := s.running = false ∧ s.waiting = false ∧ s.halted = false

/-- The ring index `j` places after `i` (rule R50). -/
def ringAt (nbuf : Nat) (i : Fin 4) (j : Nat) : Fin 4 := Fin.ofNat 4 ((i.val + j) % nbuf)

/-- What the ring holds `j` places after RP when it is INFLIGHT^f RELEASED^r ACQUIRED^h FREE^e (rule R50). -/
def ringOwn (f r h j : Nat) : Own :=
  if j < f then .inflight
  else if j < f + r then .released
  else if j < f + r + h then .acquired
  else .free

/-- The pool invariant of rule R50 with its three run lengths. -/
abbrev Pool.RingIs (nbuf f r h : Nat) (p : Pool) : Prop :=
  f + r + h ≤ nbuf ∧ h ≤ 1 ∧ p.rp.val < nbuf ∧ p.tp = ringAt nbuf p.rp f ∧ p.pp = ringAt nbuf p.rp (f + r) ∧
    ∀ j < nbuf, p.own.get (ringAt nbuf p.rp j) = ringOwn f r h j

/-- The pool invariant of rule R50. -/
def Pool.Ring (nbuf : Nat) (p : Pool) : Prop := ∃ f r h, p.RingIs nbuf f r h

/-- Counts and contents (rule R50, rule R238, U2): a count is at most CAP, equal to CAP on the consumer's side;
every slot below the count of a buffer that is not FREE has been written; a number that names no buffer is at
its reset values. -/
structure Pool.Filled (par : Params) (p : Pool) : Prop where
  count_le : ∀ i, (p.cnt.get i).toNat ≤ par.cap
  handed_over_full : ∀ i, p.own.get i = .released ∨ p.own.get i = .inflight → (p.cnt.get i).toNat = par.cap
  written : ∀ i, p.own.get i ≠ .free → ∀ slot < (p.cnt.get i).toNat,
    (Mem.readSample p.mem (sampleAddr par.cap i.val slot)).isSome = true
  absent : ∀ i, par.nbuf ≤ i.val → p.own.get i = .free ∧ p.cnt.get i = 0

/-- The sample memory is in canonical form and lists only addresses that exist (rule R71). -/
structure Pool.MemOk (par : Params) (p : Pool) : Prop where
  canonical : Mem.wf p.mem = true
  inRange : ∀ c ∈ p.mem, c.1 < 2 * (par.nbuf * par.cap)

/-- RUNNING, HALTED, ERR and the command in execution fit together (rule R38, rule R232, rule R233, rule R274). -/
structure State.ControlOk (s : State) : Prop where
  running_not_halted : s.running = true → s.halted = false
  halted_iff_err : s.halted = true ↔ s.err ≠ .none
  waiting_alone : s.waiting = true → s.running = false ∧ s.halted = false ∧ s.pool.hold = false
  running_seeded : s.running = true → s.rng.seeded = true
  running_phase : s.running = true →
    match s.phase with
    | .acquire => s.pool.hold = false
    | .fill => s.pool.hold = true ∧ s.full = false
    | .release => s.pool.hold = true ∧ s.full = true

/-- The RNG words are as a seed leaves them (rule R33, rule R34 b): PCG32 is selected only by a seed, and its
increment is odd. -/
structure Rng.Ok (r : Rng) : Prop where
  pcg_seeded : r.alg = .pcg32 → r.seeded = true
  inc_odd : r.alg = .pcg32 → r.pinc.getLsbD 0 = true

/-- In FLOAT the upper halves of S and P are 0 (rule R201). -/
def Shaper.PatternsOk (r : NumRepr) (sh : Shaper) : Prop :=
  r = .float → ∀ k, (sh.acc.get k).extractLsb' 32 32 = 0 ∧ (sh.prev.get k).extractLsb' 32 32 = 0

/-- The machine's invariant: what holds of every state a run from reset reaches. -/
structure State.Inv (s : State) : Prop where
  par : s.par.wf = true
  ring : s.pool.Ring s.par.nbuf
  filled : s.pool.Filled s.par
  mem : s.pool.MemOk s.par
  control : s.ControlOk
  rng : s.rng.Ok
  patterns : s.sh.PatternsOk s.par.repr

/-- A safe run: however many steps are taken, none faults and none is refused. -/
def SafeFrom (s : State) : Prop := ∀ k, ∃ t, Sys2Proof.core.run k s = .next t

/-- The command `i` presented and executed `m` times in a row (no other input in between). -/
def execTimes (i : Instr) (m : Nat) (s : State) : Out :=
  match m with
  | 0 => .next s
  | k + 1 =>
    match exec i s with
    | .next t => execTimes i k t
    | .fault r => .fault r
    | .refused r => .refused r

/-- The fault a command meets while HALTED = 0, as `60_exceptions.md` rule R289 tabulates it, in the order of rule
R273; `none` where the table is blank or its conditions do not hold. -/
def faultOf (s : State) (i : Instr) : Option ErrCode :=
  let seedless : Option ErrCode := if s.rng.seeded then none else some .notSeeded
  let holding := s.pool.own.get s.pool.pp = .acquired
  let isFull := (s.pool.cnt.get s.pool.pp).toNat = s.par.cap
  let breach (c : Bool) : Option ErrCode := if c then some .protocol else none
  match i with
  | .rdcsr n =>
    if !csrDefined n then some .badOperand else if n = 0x04 ∨ n = 0x05 then seedless else none
  | .wrcsr n v =>
    if !csrDefined n || csrReadOnly n || (n == 0x02 && !chainLegal v) then some .badOperand else none
  | .nextu | .nextn => seedless
  | .stage k _ => if 4 ≤ k.toNat then some .badOperand else none
  | .acq => breach (decide holding)
  | .put _ => breach (decide (¬holding ∨ isFull))
  | .rel => breach (decide (¬holding ∨ ¬isFull))
  | .gen => seedless <|> breach (decide (¬holding ∨ isFull))
  | .fill => seedless <|> breach (decide ¬holding)
  | .start => seedless <|> breach (decide holding) <|> (if s.sinkOk then none else some .sinkFail)
  | .nop | .seedx _ | .seedp _ _ | .clip _ | .shape _ | .cIdle | .cTake | .cRead _ _ | .cReturn => none

/-- The generator after `j` draws. -/
def Rng.afterDraws (j : Nat) (r : Rng) : Rng := (fun q : Rng => q.draw.2)^[j] r

/-- The rational `± m * 2^e`. -/
def dyadic (neg : Bool) (m : Nat) (e : Int) : ℚ := (if neg then -1 else 1) * (m : ℚ) * (2 : ℚ) ^ e

/-- The value of a binary32 pattern; `none` for infinities and NaNs. -/
def patternValue (w : Half) : Option ℚ :=
  match unpack w with
  | .fin neg m e => some (dyadic neg m e)
  | .inf _ => none
  | .nan => none

/-- A NaN that does not signal: the top bit of its fraction is 1 (rule R200). Nothing is said of the rest. -/
def QuietNan (w : Half) : Prop := unpack w = .nan ∧ w.getLsbD 22 = true

/-- `w` is a binary32 pattern nearest the rational `x`: no other finite pattern is nearer, and one that is as near
without having the same value is not the even one (rule R200). -/
def NearestEven (x : ℚ) (w : Half) : Prop :=
  ∃ v, patternValue w = some v ∧
    ∀ w' v', patternValue w' = some v' → |v - x| ≤ |v' - x| ∧ (|v - x| = |v' - x| → v ≠ v' → w.getLsbD 0 = false)

end Sys2Proof.Machine
end

