-- ==== Sys2Proof/Certificates/Slice0/Obligations.lean ====
section
/-! DEFINITION. The statements for the provers. Each is about the model of PNE and cites the rule of spec/ it
formalises. `s.Accepts` says that a command presented now is governed by its own rule (rule R272). -/

open Sys2Proof Sys2Proof.Machine

/-! ## System commands and registers -/

/-- R260: NOP, whatever its operands, changes nothing and responds with 0, halted or not. -/
def Obligations.NopOnlyResponds : Prop :=
  (∀ a b : Word, decode (.cmd ⟨0x00, a, b⟩) = .ok .nop) ∧
  ∀ s : State, s.running = false → s.waiting = false →
    exec .nop s = .next { s with rsp := some ⟨0, false⟩ }

/-- R262, R41, R45: RDCSR of every register of the map, halted or not, responds with the register and changes
nothing else. -/
def Obligations.RdcsrReturnsRegister : Prop :=
  ∀ (s : State) (c : Csr), s.running = false → s.waiting = false →
    (c = .rng0 ∨ c = .rng1 → s.rng.seeded = true) →
    ∃ w : Word, exec (.rdcsr c.num) s = .next { s with rsp := some ⟨w, false⟩ } ∧
      match c with
      | .status => w = s.status
      | .param => w = paramWord s.par
      | .chain => w = s.sh.chainReg.setWidth 64
      | .gain => w = s.sh.gain.setWidth 64
      | .rng0 => (s.rng.alg = .xs32 → w = s.rng.xs.setWidth 64) ∧ (s.rng.alg = .pcg32 → w = s.rng.pst)
      | .rng1 => (s.rng.alg = .xs32 → w = 0) ∧ (s.rng.alg = .pcg32 → w = s.rng.pinc)
      | .pool => w = Pool.word s.pool
      | .coef k => w = (s.sh.coef.get k).setWidth 64
      | .acc k => w = s.sh.acc.get k
      | .prev k => w = s.sh.prev.get k

/-- R42, R271: the fields of STATUS, HOLD and XSZERO among them, and the codes of ERR. -/
def Obligations.StatusFields : Prop :=
  ∀ s : State,
    s.status.getLsbD 0 = s.rng.seeded ∧
    (s.status.getLsbD 1 = true ↔ s.rng.alg = .pcg32) ∧
    s.status.getLsbD 2 = s.running ∧
    s.status.getLsbD 3 = s.halted ∧
    s.status.extractLsb' 4 4 =
      (match s.err with
        | .none => 0
        | .illegalCmd => 1
        | .badOperand => 2
        | .notSeeded => 3
        | .protocol => 4
        | .sinkFail => 5) ∧
    (s.status.getLsbD 8 = true ↔ s.pool.own.get s.pool.pp = .acquired) ∧
    (s.status.getLsbD 9 = true ↔ s.rng.seeded = true ∧ s.rng.alg = .xs32 ∧ s.rng.xs = 0) ∧
    s.status.extractLsb' 10 54 = 0

/-- R43, R44, R46: the fields of PARAM, CHAIN and POOL. -/
def Obligations.ParamChainPoolFields : Prop :=
  ∀ s : State, s.par.wf = true →
    ((paramWord s.par).extractLsb' 0 4).toNat = s.par.nbuf ∧
    ((paramWord s.par).extractLsb' 4 4).toNat = 4 ∧
    ((paramWord s.par).extractLsb' 8 4).toNat = s.par.ndraw ∧
    ((paramWord s.par).getLsbD 12 = true ↔ s.par.repr = .float) ∧
    (paramWord s.par).extractLsb' 13 19 = 0 ∧
    ((paramWord s.par).extractLsb' 32 32).toNat = s.par.cap ∧
    (∀ k : Fin 4, (s.sh.chainReg.extractLsb' (4 * k.val) 4).toNat =
      match s.sh.chain.get k with
      | .none => 0
      | .integ => 1
      | .lpf => 2
      | .hpf => 3) ∧
    ((Pool.word s.pool).extractLsb' 0 4).toNat = s.pool.pp.val ∧
    (Pool.word s.pool).extractLsb' 4 4 = 0 ∧
    ((Pool.word s.pool).getLsbD 8 = true ↔ s.pool.own.get s.pool.pp = .acquired) ∧
    (Pool.word s.pool).extractLsb' 9 23 = 0 ∧
    (s.pool.own.get s.pool.pp = .acquired → (Pool.word s.pool).extractLsb' 32 32 = s.pool.cnt.get s.pool.pp) ∧
    (s.pool.own.get s.pool.pp ≠ .acquired → (Pool.word s.pool).extractLsb' 32 32 = 0)

/-- R264: what WRCSR stores in each writable register, raw and at the register's width, and nothing else. -/
def Obligations.WrcsrStoresRaw : Prop :=
  ∀ (s : State) (v : Word), s.Accepts →
    (∀ k : Fin 4, exec (.wrcsr (Csr.num (.coef k)) v) s = .next
      { s with sh := { s.sh with coef := s.sh.coef.set k (v.extractLsb' 0 32) }, rsp := some ⟨0, false⟩ }) ∧
    (∀ k : Fin 4, ∃ w : Word,
      (s.par.repr = .fixed → w = v) ∧ (s.par.repr = .float → w = (v.extractLsb' 0 32).setWidth 64) ∧
      exec (.wrcsr (Csr.num (.acc k)) v) s = .next
        { s with sh := { s.sh with acc := s.sh.acc.set k w }, rsp := some ⟨0, false⟩ } ∧
      exec (.wrcsr (Csr.num (.prev k)) v) s = .next
        { s with sh := { s.sh with prev := s.sh.prev.set k w }, rsp := some ⟨0, false⟩ }) ∧
    exec (.wrcsr 0x03 v) s = .next
      { s with sh := { s.sh with gain := v.extractLsb' 0 32 }, rsp := some ⟨0, false⟩ } ∧
    (∀ k0 k1 k2 k3 : Kind, v.extractLsb' 0 16 = k3.code ++ k2.code ++ k1.code ++ k0.code →
      exec (.wrcsr 0x02 v) s = .next
        { s with sh := { s.sh with chain := ⟨k0, k1, k2, k3⟩ }, rsp := some ⟨0, false⟩ })

/-- R107: a command faults BAD_OPERAND exactly when an operand of it is a reserved value. -/
def Obligations.BadOperandExactlyForReservedValues : Prop :=
  ∀ (i : Instr) (s : State), i.isCommand = true → s.Accepts →
    ((∃ t, exec i s = .next t ∧ t.halted = true ∧ t.err = .badOperand) ↔ i.wf s.par = false)

/-! ## RandomSampler -/

/-- R131: SEEDX stores `a[31:0]` unchanged, zero included, selects Xorshift32, and leaves the rest. -/
def Obligations.SeedxStoresTheSeed : Prop :=
  (∀ a b : Word, decode (.cmd ⟨0x10, a, b⟩) = .ok (.seedx (a.extractLsb' 0 32))) ∧
  ∀ (s : State) (v : Half), s.Accepts →
    ∃ t, exec (.seedx v) s = .next t ∧
      t = { s with rng := { s.rng with xs := v, alg := .xs32, seeded := true }, rsp := some ⟨0, false⟩ } ∧
      (t.status.getLsbD 9 = true ↔ v = 0)

/-- R134, R135, R136: SEEDP's increment, which is odd, its state after the two advances, and that bit 63 of
`init_seq` does not matter. -/
def Obligations.SeedpAdvancesTwice : Prop :=
  ∀ (s : State) (a b : Word), s.Accepts →
    let inc : Word := (b <<< 1) ||| 1
    let st1 : Word := 6364136223846793005 * 0 + inc
    let st2 : Word := 6364136223846793005 * (st1 + a) + inc
    decode (.cmd ⟨0x11, a, b⟩) = .ok (.seedp a b) ∧
    exec (.seedp a b) s = .next
      { s with
        rng := { s.rng with pinc := inc, pst := st2, alg := .pcg32, seeded := true }
        rsp := some ⟨0, false⟩ } ∧
    inc.getLsbD 0 = true ∧
    exec (.seedp a (b ^^^ 0x8000000000000000)) s = exec (.seedp a b) s

/-- R137, R138, R140: NEXTU on Xorshift32 steps the word (left 13, right 17, left 5) and returns the new one. -/
def Obligations.NextuStepsXorshift : Prop :=
  ∀ s : State, s.Accepts → s.rng.seeded = true → s.rng.alg = .xs32 →
    let x := s.rng.xs
    let x1 := x ^^^ (x <<< 13)
    let x2 := x1 ^^^ (x1 >>> 17)
    let x3 := x2 ^^^ (x2 <<< 5)
    exec .nextu s = .next
      { s with rng := { s.rng with xs := x3 }, rsp := some ⟨x3.setWidth 64, false⟩ }

/-- R137, R139, R140: NEXTU on PCG32 returns the permutation of the old state and advances it. -/
def Obligations.NextuPermutesPcg : Prop :=
  ∀ s : State, s.Accepts → s.rng.seeded = true → s.rng.alg = .pcg32 →
    let old := s.rng.pst
    let x : Half := (((old >>> 18) ^^^ old) >>> 27).setWidth 32
    let rot := old.toNat / 2 ^ 59
    let out : Half := (x >>> rot) ||| (x <<< ((32 - rot) % 32))
    exec .nextu s = .next
      { s with
        rng := { s.rng with pst := 6364136223846793005 * old + s.rng.pinc }
        rsp := some ⟨out.setWidth 64, false⟩ }

/-- R150, R34: however often it is drawn from, the xorshift word is zero only if it was zero. The spec infers this for
any number of draws, from the passage of R34 it marks as general knowledge. -/
def Obligations.XorshiftZeroTrap : Prop :=
  ∀ (r : Rng) (k : Nat), r.alg = .xs32 → ((r.afterDraws k).xs = 0 ↔ r.xs = 0)

/-- R141, R142: NEXTN sums both halves of NDRAW successive draws, divides, recentres; without a seed it faults. -/
def Obligations.NextnSumsTheHalves : Prop :=
  (∀ a b : Word, decode (.cmd ⟨0x13, a, b⟩) = .ok .nextn) ∧
  (∀ s : State, s.Accepts → s.rng.seeded = false →
    exec .nextn s = .next { s with halted := true, err := .notSeeded, rsp := some ⟨0, true⟩ }) ∧
  ∀ s : State, s.Accepts → s.rng.seeded = true →
    let u := fun j => (s.rng.afterDraws j).draw.1
    let sum := ((List.range s.par.ndraw).map fun j =>
      ((u j).extractLsb' 0 16).toNat + ((u j).extractLsb' 16 16).toNat).sum
    exec .nextn s = .next
      { s with
        rng := s.rng.afterDraws s.par.ndraw
        rsp := some ⟨BitVec.ofInt 64 (((sum / s.par.ndraw : Nat) : Int) - 65535), false⟩ }

/-- R142, R143: a normal draw lies in [-65535, 65535], and is -65535 on the zero xorshift word. -/
def Obligations.NormalDrawBounded : Prop :=
  ∀ (r : Rng) (n : Nat), 1 ≤ n →
    -65535 ≤ (r.normal n).1 ∧ (r.normal n).1 ≤ 65535 ∧
      (r.alg = .xs32 → r.xs = 0 → (r.normal n).1 = -65535)

/-- R144: no instruction but the seeds and the draws changes a word of the generator. -/
def Obligations.OnlySeedsAndDrawsTouchTheGenerator : Prop :=
  ∀ (i : Instr) (s t : State), exec i s = .next t →
    match i with
    | .seedx _ | .seedp _ _ | .nextu | .nextn | .gen | .fill => True
    | _ => t.rng = s.rng

/-! ## NoiseShaper -/

/-- R163 to R170: STAGE in FIXED, by the slot's kind, with the exact value of the output. -/
def Obligations.StageFixedByKind : Prop :=
  ∀ (s : State) (k : BitVec 8) (x : Word) (h : k.toNat < 4), s.Accepts → s.par.repr = .fixed →
    let j : Fin 4 := ⟨k.toNat, h⟩
    let c : Int := (s.sh.coef.get j).toNat
    let A : Int := max 1 (min (2 ^ 31 - 1) c)
    let S := (s.sh.acc.get j).toInt
    let P := (s.sh.prev.get j).toInt
    let X := x.toInt
    match s.sh.chain.get j with
    | .none => exec (.stage k x) s = .next { s with rsp := some ⟨x, false⟩ }
    | .integ => ∃ y : Word,
        y.toInt = max (-32768 * 2 ^ 31) (min (32767 * 2 ^ 31) (S + X / 2 ^ (c % 32).toNat)) ∧
        exec (.stage k x) s = .next
          { s with sh := { s.sh with acc := s.sh.acc.set j y }, rsp := some ⟨y, false⟩ }
    | .lpf => ∃ y : Word,
        y.toInt = max (-2 ^ 63) (min (2 ^ 63 - 1) ((A * X + (2 ^ 31 - A) * S) / 2 ^ 31)) ∧
        exec (.stage k x) s = .next
          { s with sh := { s.sh with acc := s.sh.acc.set j y }, rsp := some ⟨y, false⟩ }
    | .hpf => ∃ y : Word,
        y.toInt = max (-2 ^ 63) (min (2 ^ 63 - 1) (A * (S + X - P) / 2 ^ 31)) ∧
        exec (.stage k x) s = .next
          { s with
            sh := { s.sh with acc := s.sh.acc.set j y, prev := s.sh.prev.set j x }
            rsp := some ⟨y, false⟩ }

/-- R168 a, b: the low-pass output lies between its input and its state; an input equal to the state is a fixed
point. -/
def Obligations.LowPassStaysBetween : Prop :=
  ∀ (s t : State) (k : BitVec 8) (x : Word) (h : k.toNat < 4), s.Accepts → s.par.repr = .fixed →
    s.sh.chain.get ⟨k.toNat, h⟩ = .lpf → exec (.stage k x) s = .next t →
    let S := (s.sh.acc.get ⟨k.toNat, h⟩).toInt
    let y := (t.sh.acc.get ⟨k.toNat, h⟩).toInt
    min x.toInt S ≤ y ∧ y ≤ max x.toInt S ∧ (x.toInt = S → y = S)

/-- R204, R206, R201: STAGE in FLOAT, by the slot's kind, as the rounded operations of rule R204 nest. INTEG's
saturation is said by values: -32768.0 and 32767.0 are the two rails, infinities go to them, a NaN is kept. The
numbers given to the operations name free NaN values (log entry 2): `nans` is the model's own counter. -/
def Obligations.StageFloatByKind : Prop :=
  patternValue 0xC7000000 = some (-32768) ∧ patternValue 0x46FFFE00 = some 32767 ∧
  ∀ (s : State) (k : BitVec 8) (x : Word) (h : k.toNat < 4), s.Accepts → s.par.repr = .float →
    let j : Fin 4 := ⟨k.toNat, h⟩
    let c := s.sh.coef.get j
    let A := clampF c
    let S := (s.sh.acc.get j).extractLsb' 0 32
    let P := (s.sh.prev.get j).extractLsb' 0 32
    let X := x.extractLsb' 0 32
    let n := s.sh.nans
    match s.sh.chain.get j with
    | .none => exec (.stage k x) s = .next
        { s with sh := { s.sh with nans := n + 4 }, rsp := some ⟨X.setWidth 64, false⟩ }
    | .integ =>
        let t := fAdd (n + 1) S (fScaleDown n X (c.toNat % 32))
        ∃ y : Half,
          exec (.stage k x) s = .next
            { s with
              sh := { s.sh with acc := s.sh.acc.set j (y.setWidth 64), nans := n + 4 }
              rsp := some ⟨y.setWidth 64, false⟩ } ∧
          (unpack t = .nan → y = t) ∧
          (∀ neg, unpack t = .inf neg → y = if neg then 0xC7000000 else 0x46FFFE00) ∧
          (∀ q, patternValue t = some q →
            (q < -32768 → y = 0xC7000000) ∧ (32767 < q → y = 0x46FFFE00) ∧ (-32768 ≤ q → q ≤ 32767 → y = t))
    | .lpf =>
        let y := fAdd (n + 3) (fMul n A X) (fMul (n + 2) (fSub (n + 1) 0x3F800000 A) S)
        exec (.stage k x) s = .next
          { s with
            sh := { s.sh with acc := s.sh.acc.set j (y.setWidth 64), nans := n + 4 }
            rsp := some ⟨y.setWidth 64, false⟩ }
    | .hpf =>
        let y := fMul (n + 2) A (fSub (n + 1) (fAdd n S X) P)
        exec (.stage k x) s = .next
          { s with
            sh :=
              { s.sh with
                acc := s.sh.acc.set j (y.setWidth 64)
                prev := s.sh.prev.set j (X.setWidth 64)
                nans := n + 4 }
            rsp := some ⟨y.setWidth 64, false⟩ }

/-- R203: the alpha used in FLOAT lies strictly inside (0, 1): the coefficient itself where that does, 2^-31 for a
NaN and for all that is not positive, 1 - 2^-24 for all that is 1 or more. -/
def Obligations.FloatAlphaInsideUnitInterval : Prop :=
  patternValue 0x30000000 = some (1 / 2 ^ 31) ∧ patternValue 0x3F7FFFFF = some (1 - 1 / 2 ^ 24) ∧
  ∀ c : Half,
    (∃ q, patternValue (clampF c) = some q ∧ 0 < q ∧ q < 1) ∧
    (∀ q, patternValue c = some q →
      (q ≤ 0 → clampF c = 0x30000000) ∧ (1 ≤ q → clampF c = 0x3F7FFFFF) ∧ (0 < q → q < 1 → clampF c = c)) ∧
    (unpack c = .nan → clampF c = 0x30000000) ∧
    (∀ neg, unpack c = .inf neg → clampF c = if neg then 0x30000000 else 0x3F7FFFFF)

/-- R202: the chain's input in FLOAT is the binary32 nearest the integer, which is exact up to magnitude 2^24 and so
for every normal draw. -/
def Obligations.FloatOfSmallIntegerExact : Prop :=
  ∀ n : Int, |n| < 2 ^ 31 →
    ∃ w : Half, chainInput .float n = w.setWidth 64 ∧ NearestEven n w ∧
      (|n| ≤ 2 ^ 24 → patternValue w = some (n : ℚ))

/-- R200: the sum, the difference, the product and the scaling of finite patterns are the exact results rounded to
nearest, ties to even, and overflow to the infinity of the exact result's sign from halfway past the largest finite
value on; zero results have the sign IEEE 754 gives them; infinities propagate as IEEE 754 says; every NaN that
results is quiet, and nothing is said of its sign and payload (U7). -/
def Obligations.FloatOperationsRoundToNearestEven : Prop :=
  ∀ (n : Nat) (a b : Half) (k : Nat),
    (∀ va vb : ℚ, patternValue a = some va → patternValue b = some vb →
      let ok := fun (x : ℚ) (w : Half) =>
        (|x| < 2 ^ 128 - 2 ^ 103 → NearestEven x w) ∧
        (2 ^ 128 - 2 ^ 103 ≤ |x| → unpack w = .inf (decide (x < 0)))
      ok (va + vb) (fAdd n a b) ∧ ok (va - vb) (fSub n a b) ∧ ok (va * vb) (fMul n a b) ∧
        ok (va / 2 ^ k) (fScaleDown n a k) ∧
        (va + vb = 0 → fAdd n a b = if a = 0x80000000 ∧ b = 0x80000000 then 0x80000000 else 0) ∧
        (va - vb = 0 → fSub n a b = if a = 0x80000000 ∧ b = 0 then 0x80000000 else 0) ∧
        (fMul n a b).getLsbD 31 = (a.getLsbD 31 != b.getLsbD 31) ∧
        (fScaleDown n a k).getLsbD 31 = a.getLsbD 31) ∧
    (unpack a = .nan ∨ unpack b = .nan →
      QuietNan (fAdd n a b) ∧ QuietNan (fSub n a b) ∧ QuietNan (fMul n a b)) ∧
    (unpack a = .nan → QuietNan (fScaleDown n a k)) ∧
    (∀ na, unpack a = .inf na → unpack (fScaleDown n a k) = .inf na) ∧
    (∀ na nb, unpack a = .inf na → unpack b = .inf nb →
      unpack (fMul n a b) = .inf (na != nb) ∧
      (na = nb → unpack (fAdd n a b) = .inf na ∧ QuietNan (fSub n a b)) ∧
      (na ≠ nb → QuietNan (fAdd n a b) ∧ unpack (fSub n a b) = .inf na)) ∧
    (∀ na vb, unpack a = .inf na → patternValue b = some vb →
      unpack (fAdd n a b) = .inf na ∧ unpack (fSub n a b) = .inf na ∧
      (vb = 0 → QuietNan (fMul n a b)) ∧ (vb ≠ 0 → unpack (fMul n a b) = .inf (na != decide (vb < 0)))) ∧
    (∀ va nb, patternValue a = some va → unpack b = .inf nb →
      unpack (fAdd n a b) = .inf nb ∧ unpack (fSub n a b) = .inf (!nb) ∧
      (va = 0 → QuietNan (fMul n a b)) ∧ (va ≠ 0 → unpack (fMul n a b) = .inf (nb != decide (va < 0))))

/-- R173, R176: CLIP in FIXED multiplies by GAIN / 65536, rounds toward zero, clamps, and changes nothing. -/
def Obligations.ClipFixedTruncatesThenClamps : Prop :=
  ∀ (s : State) (x : Word), s.Accepts → s.par.repr = .fixed →
    let p : Int := x.toInt * s.sh.gain.toNat
    let t : Int := if 0 ≤ p then p / 2 ^ 47 else -(-p / 2 ^ 47)
    exec (.clip x) s = .next
      { s with rsp := some ⟨BitVec.ofInt 64 (max (-32768) (min 32767 t)), false⟩ }

/-- R209, R210: CLIP in FLOAT: a NaN product gives 0, an infinite one the rail, a finite one is truncated and
clamped; nothing else changes. That the 64-bit result is sign-extended is the model's reading (log entry 16): R210
says so, and a sentence of R201 says zero-extended. -/
def Obligations.ClipFloatTruncatesThenClamps : Prop :=
  ∀ (s : State) (x : Word), s.Accepts → s.par.repr = .float →
    ∃ v : Int, exec (.clip x) s = .next { s with rsp := some ⟨BitVec.ofInt 64 v, false⟩ } ∧
      ∀ n : Nat,
        let p := fMul n (x.extractLsb' 0 32) s.sh.gain
        (unpack p = .nan → v = 0) ∧
        (∀ neg, unpack p = .inf neg → v = if neg then -32768 else 32767) ∧
        (∀ q, patternValue p = some q → v = max (-32768) (min 32767 (if 0 ≤ q then ⌊q⌋ else ⌈q⌉)))

/-- R174, R178: SHAPE converts its sample, feeds the four slots in the order 0, 1, 2, 3 and clips the last output. Of
the shaper only S and P change, and in FLOAT the model's own counter `nans` (log entry 2). -/
def Obligations.ShapeRunsSlotsInOrder : Prop :=
  (∀ a b : Word, decode (.cmd ⟨0x22, a, b⟩) = .ok (.shape (a.extractLsb' 0 32))) ∧
  ∀ (s : State) (n : Half), s.Accepts →
    let r := s.par.repr
    (r = .fixed → (chainInput r n.toInt).toInt = n.toInt * 2 ^ 31) ∧
    let a := s.sh.stage r 0 (chainInput r n.toInt)
    let b := a.2.stage r 1 a.1
    let c := b.2.stage r 2 b.1
    let d := c.2.stage r 3 c.1
    d.2 = { s.sh with acc := d.2.acc, prev := d.2.prev, nans := d.2.nans } ∧
    (r = .fixed → d.2.nans = s.sh.nans) ∧
    ∃ y : Sample, y.toInt = clip r s.sh.gain d.1 ∧
      exec (.shape n) s = .next { s with sh := d.2, rsp := some ⟨y.signExtend 64, false⟩ }

/-- R164, R173, R175: the white chain at gain 0.5 in FIXED halves the sample toward zero and changes nothing; the
clamp does not act on a sample in the range of a normal draw. -/
def Obligations.WhiteChainHalvesTheSample : Prop :=
  ∀ (s : State) (n : Half), s.Accepts → s.par.repr = .fixed → s.sh.gain = 0x00008000 →
    (∀ k : Fin 4, s.sh.chain.get k = .none) →
    ∃ v : Int, exec (.shape n) s = .next { s with rsp := some ⟨BitVec.ofInt 64 v, false⟩ } ∧
      (|n.toInt| ≤ 65535 → v = Int.tdiv n.toInt 2 ∧ |v| ≤ 32767)

/-- R13: clip16 (also saturate16) and sat64. -/
def Obligations.SaturationsIdempotent : Prop :=
  ∀ v : Int,
    (-32768 ≤ v → v ≤ 32767 → clip16 v = v) ∧ (v < -32768 → clip16 v = -32768) ∧ (32767 < v → clip16 v = 32767) ∧
    (-2 ^ 63 ≤ v → v ≤ 2 ^ 63 - 1 → sat64 v = v) ∧ (v < -2 ^ 63 → sat64 v = -2 ^ 63) ∧
    (2 ^ 63 - 1 < v → sat64 v = 2 ^ 63 - 1)

/-- R193, R163: the reference coefficients lie in [1, 2^31 - 1] for every cutoff below half the rate, and are then
used as they are. The spec also says so of every cutoff from 1 up, which its own formula breaks for the high-pass
at rates far below the cutoff (last clause; log entry 13): that is why this holds in part only. -/
def Obligations.ReferenceCoefficientsInRange : Prop :=
  (∀ fc fs : Nat, 1 ≤ fc → fc < 2 ^ 32 → 1 ≤ fs → fs < 2 ^ 32 →
    1 ≤ alphaLpFixed fc fs ∧ alphaLpFixed fc fs ≤ 2 ^ 31 - 1 ∧ alphaHpFixed fc fs ≤ 2 ^ 31 - 1 ∧
    (2 * fc < fs → 1 ≤ alphaHpFixed fc fs ∧
      clampA (BitVec.ofNat 32 (alphaLpFixed fc fs)) = alphaLpFixed fc fs ∧
      clampA (BitVec.ofNat 32 (alphaHpFixed fc fs)) = alphaHpFixed fc fs)) ∧
  alphaHpFixed (2 ^ 32 - 1) 1 = 0

/-- R193, R191, R211: at the reference pair (1000 Hz, 48000 Hz) the fixed-point and the binary32 coefficients agree
with the real formulas of rule R191, and so with each other, to one part in 10^5. -/
def Obligations.CoefficientsAgreeAtReferencePair : Prop :=
  let w : ℝ := 2 * Real.pi * 1000
  let lp : ℝ := w / (48000 + w)
  let hp : ℝ := 48000 / (48000 + w)
  ∃ flp fhp : ℚ, patternValue (alphaLpFloat 1000 48000) = some flp ∧
    patternValue (alphaHpFloat 1000 48000) = some fhp ∧
    |(alphaLpFixed 1000 48000 : ℝ) / 2 ^ 31 - lp| ≤ lp / 10 ^ 5 ∧
    |(alphaHpFixed 1000 48000 : ℝ) / 2 ^ 31 - hp| ≤ hp / 10 ^ 5 ∧
    |(flp : ℝ) - lp| ≤ lp / 10 ^ 5 ∧ |(fhp : ℝ) - hp| ≤ hp / 10 ^ 5 ∧
    |(alphaLpFixed 1000 48000 : ℝ) / 2 ^ 31 - (flp : ℝ)| ≤ (flp : ℝ) / 10 ^ 5 ∧
    |(alphaHpFixed 1000 48000 : ℝ) / 2 ^ 31 - (fhp : ℝ)| ≤ (fhp : ℝ) / 10 ^ 5

/-! ## BufferStreamer, producer -/

/-- R222: ACQ on a FREE buffer at PP takes it, empties its count and returns its index. -/
def Obligations.AcqTakesTheFreeBuffer : Prop :=
  ∀ s : State, s.Accepts → s.pool.own.get s.pool.pp = .free →
    exec .acq s = .next
      { s with
        pool := { s.pool with own := s.pool.own.set s.pool.pp .acquired, cnt := s.pool.cnt.set s.pool.pp 0 }
        rsp := some ⟨BitVec.ofNat 64 s.pool.pp.val, false⟩ }

/-- R222, R223, R288: ACQ on a buffer of the consumer's side waits without a response; a producer step while it
waits changes nothing until that buffer is FREE, and then completes the ACQ. That a wait is a next state is the
model's choice (log entry 8). -/
def Obligations.AcqBlocksUntilFree : Prop :=
  ∀ s : State, s.running = false →
    (s.Accepts → s.pool.own.get s.pool.pp = .released ∨ s.pool.own.get s.pool.pp = .inflight →
      exec .acq s = .next { s with waiting := true, rsp := none }) ∧
    (s.waiting = true → s.pool.own.get s.pool.pp ≠ .free → perform .producer s = .next { s with rsp := none }) ∧
    (s.waiting = true → s.pool.own.get s.pool.pp = .free →
      perform .producer s = .next
        { s with
          pool := { s.pool with own := s.pool.own.set s.pool.pp .acquired, cnt := s.pool.cnt.set s.pool.pp 0 }
          waiting := false
          rsp := some ⟨BitVec.ofNat 64 s.pool.pp.val, false⟩ })

/-- R224, R241: PUT stores its 16 bits at `PP * CAP + CNT[PP]`, counts one sample, and leaves every other byte of
memory and everything else alone; without a held buffer that has room it faults. -/
def Obligations.PutStoresOneSample : Prop :=
  (∀ a b : Word, decode (.cmd ⟨0x31, a, b⟩) = .ok (.put (a.extractLsb' 0 16))) ∧
  (∀ (s : State) (v : Sample), s.Accepts →
    s.pool.own.get s.pool.pp ≠ .acquired ∨ (s.pool.cnt.get s.pool.pp).toNat = s.par.cap →
    exec (.put v) s = .next { s with halted := true, err := .protocol, rsp := some ⟨0, true⟩ }) ∧
  ∀ (s : State) (v : Sample), s.Accepts → s.pool.own.get s.pool.pp = .acquired → s.pool.pp.val < s.par.nbuf →
    (s.pool.cnt.get s.pool.pp).toNat < s.par.cap →
    let addr := s.pool.pp.val * s.par.cap + (s.pool.cnt.get s.pool.pp).toNat
    ∃ mem : List Host.Cell,
      exec (.put v) s = .next
        { s with
          pool :=
            { s.pool with mem := mem, cnt := s.pool.cnt.set s.pool.pp (s.pool.cnt.get s.pool.pp + 1) }
          rsp := some ⟨0, false⟩ } ∧
      Mem.read mem (2 * addr) = some (v.extractLsb' 0 8) ∧
      Mem.read mem (2 * addr + 1) = some (v.extractLsb' 8 8) ∧
      Mem.readSample mem addr = some v ∧
      ∀ a, a ≠ 2 * addr → a ≠ 2 * addr + 1 → Mem.read mem a = Mem.read s.pool.mem a

/-- R226: REL of a full held buffer hands it over and moves PP on, and changes nothing else; without one it
faults. -/
def Obligations.RelHandsOver : Prop :=
  (∀ a b : Word, decode (.cmd ⟨0x32, a, b⟩) = .ok .rel) ∧
  (∀ s : State, s.Accepts →
    s.pool.own.get s.pool.pp ≠ .acquired ∨ (s.pool.cnt.get s.pool.pp).toNat ≠ s.par.cap →
    exec .rel s = .next { s with halted := true, err := .protocol, rsp := some ⟨0, true⟩ }) ∧
  ∀ s : State, s.Accepts → s.pool.own.get s.pool.pp = .acquired →
    (s.pool.cnt.get s.pool.pp).toNat = s.par.cap → s.pool.pp.val < s.par.nbuf →
    ∃ pp : Fin 4, pp.val = (if s.pool.pp.val + 1 = s.par.nbuf then 0 else (s.pool.pp.val + 1) % 4) ∧
      exec .rel s = .next
        { s with
          pool := { s.pool with own := s.pool.own.set s.pool.pp .released, pp := pp }
          rsp := some ⟨0, false⟩ }

/-- R228: GEN pulls one normal draw, pushes it through the shaper, and stores the result in the next slot; every
other byte of memory and everything else stays: of the generator only its live word moves, of the shaper only S and P
(and the model's own counter `nans`, log entry 2). It faults without a seed, and without a held buffer that has
room. -/
def Obligations.GenMakesOneSample : Prop :=
  (∀ a b : Word, decode (.cmd ⟨0x33, a, b⟩) = .ok .gen) ∧
  (∀ s : State, s.Accepts → s.rng.seeded = false →
    exec .gen s = .next { s with halted := true, err := .notSeeded, rsp := some ⟨0, true⟩ }) ∧
  (∀ s : State, s.Accepts → s.rng.seeded = true →
    s.pool.own.get s.pool.pp ≠ .acquired ∨ (s.pool.cnt.get s.pool.pp).toNat = s.par.cap →
    exec .gen s = .next { s with halted := true, err := .protocol, rsp := some ⟨0, true⟩ }) ∧
  ∀ s : State, s.Accepts → s.rng.seeded = true → s.pool.own.get s.pool.pp = .acquired →
    s.pool.pp.val < s.par.nbuf → (s.pool.cnt.get s.pool.pp).toNat < s.par.cap →
    let addr := s.pool.pp.val * s.par.cap + (s.pool.cnt.get s.pool.pp).toNat
    let n := s.rng.normal s.par.ndraw
    let y := s.sh.shape s.par.repr n.1
    n.2 = s.rng.afterDraws s.par.ndraw ∧
    n.2 = { s.rng with
      xs := if s.rng.alg = .xs32 then n.2.xs else s.rng.xs
      pst := if s.rng.alg = .pcg32 then n.2.pst else s.rng.pst } ∧
    y.2 = { s.sh with acc := y.2.acc, prev := y.2.prev, nans := y.2.nans } ∧
    ∃ mem : List Host.Cell,
      exec .gen s = .next
        { s with
          rng := n.2
          sh := y.2
          pool :=
            { s.pool with mem := mem, cnt := s.pool.cnt.set s.pool.pp (s.pool.cnt.get s.pool.pp + 1) }
          rsp := some ⟨y.1.signExtend 64, false⟩ } ∧
      Mem.readSample mem addr = some y.1 ∧
      ∀ a, a ≠ 2 * addr → a ≠ 2 * addr + 1 → Mem.read mem a = Mem.read s.pool.mem a

/-- R230: FILL is CAP - CNT[PP] times GEN, then the buffer is full; it returns that number, and leaves every byte
outside the slots it fills, every other buffer and every configuration register alone. That it is one step is the
model's choice (log entry 7). -/
def Obligations.FillIsRepeatedGen : Prop :=
  ∀ s : State, s.Accepts → s.rng.seeded = true → s.pool.own.get s.pool.pp = .acquired →
    s.pool.pp.val < s.par.nbuf → (s.pool.cnt.get s.pool.pp).toNat ≤ s.par.cap → s.par.cap < 2 ^ 32 →
    let m := s.par.cap - (s.pool.cnt.get s.pool.pp).toNat
    let addr := s.pool.pp.val * s.par.cap + (s.pool.cnt.get s.pool.pp).toNat
    ∃ t, execTimes .gen m s = .next t ∧
      exec .fill s = .next { t with rsp := some ⟨BitVec.ofNat 64 m, false⟩ } ∧
      t = { s with
        rng := t.rng
        sh := { s.sh with acc := t.sh.acc, prev := t.sh.prev, nans := t.sh.nans }
        pool :=
          { s.pool with mem := t.pool.mem, cnt := s.pool.cnt.set s.pool.pp (t.pool.cnt.get s.pool.pp) }
        rsp := t.rsp } ∧
      (t.pool.cnt.get s.pool.pp).toNat = s.par.cap ∧
      ∀ a, a < 2 * addr ∨ 2 * (addr + m) ≤ a → Mem.read t.pool.mem a = Mem.read s.pool.mem a

/-- R232: a START that meets no fault sets RUNNING at the acquire phase, gives no response and changes nothing
else. -/
def Obligations.StartEntersTheLoop : Prop :=
  ∀ s : State, s.Accepts → s.rng.seeded = true → s.pool.own.get s.pool.pp ≠ .acquired → s.sinkOk = true →
    exec .start s = .next { s with running := true, phase := .acquire, rsp := none }

/-- R232: the three phases of the loop, each the same state change as ACQ, GEN and REL. That one sample or one
transfer is one step is the model's choice (log entry 7). -/
def Obligations.LoopPhases : Prop :=
  ∀ s : State, s.running = true →
    (s.phase = .acquire → s.pool.own.get s.pool.pp ≠ .free → perform .producer s = .next s) ∧
    (s.phase = .acquire → s.pool.own.get s.pool.pp = .free →
      perform .producer s = .next
        { s with
          pool := { s.pool with own := s.pool.own.set s.pool.pp .acquired, cnt := s.pool.cnt.set s.pool.pp 0 }
          phase := .fill }) ∧
    (s.phase = .fill → s.pool.pp.val < s.par.nbuf → (s.pool.cnt.get s.pool.pp).toNat < s.par.cap →
      s.par.cap < 2 ^ 32 →
      ∃ t, exec .gen { s with
            running := false
            waiting := false
            halted := false
            rng := { s.rng with seeded := true }
            pool := { s.pool with own := s.pool.own.set s.pool.pp .acquired } } = .next t ∧
        perform .producer s = .next
          { s with
            rng := { t.rng with seeded := s.rng.seeded }
            sh := t.sh
            pool := { s.pool with mem := t.pool.mem, cnt := t.pool.cnt }
            phase :=
              if (s.pool.cnt.get s.pool.pp).toNat + 1 = s.par.cap then .release else .fill }) ∧
    (s.phase = .release →
      perform .producer s = .next
        { s with
          pool :=
            { s.pool with own := s.pool.own.set s.pool.pp .released, pp := ringNext s.par.nbuf s.pool.pp }
          phase := .acquire })

/-- R233, R32: while RUNNING, or while an ACQ waits, no command is accepted: nothing changes and nothing
responds. -/
def Obligations.BusyMachineAcceptsNothing : Prop :=
  ∀ s : State, s.running = true ∨ s.waiting = true →
    (∀ i : Instr, i.isCommand = true → exec i s = .next { s with rsp := none }) ∧
    execIllegal s = .next { s with rsp := none }

/-! ## BufferStreamer, consumer -/

/-- R234, R237: C_TAKE takes the RELEASED buffer at TP; when there is none it is not accepted and sets UNDERRUN. -/
def Obligations.TakeOrUnderrun : Prop :=
  ∀ s : State,
    (s.pool.own.get s.pool.tp = .released →
      exec .cTake s = .next
        { s with
          pool :=
            { s.pool with own := s.pool.own.set s.pool.tp .inflight, tp := ringNext s.par.nbuf s.pool.tp }
          cRsp := some (BitVec.ofNat 16 s.pool.tp.val) }) ∧
    (s.pool.own.get s.pool.tp ≠ .released →
      exec .cTake s = .next { s with underrun := true, cRsp := none })

/-- R235: C_READ of an existing slot of an INFLIGHT buffer returns the sample there and changes nothing; any other
is not accepted and changes nothing (that this is a next state is the model's choice, log entry 8). -/
def Obligations.ReadOnlyWhileInFlight : Prop :=
  ∀ (s : State) (idx : BitVec 2) (slot : Half),
    let ok := idx.toNat < s.par.nbuf ∧ slot.toNat < s.par.cap ∧ s.pool.own.get idx.toFin = .inflight
    (ok → ∀ v, Mem.readSample s.pool.mem (idx.toNat * s.par.cap + slot.toNat) = some v →
      exec (.cRead idx slot) s = .next { s with cRsp := some v }) ∧
    (¬ok → exec (.cRead idx slot) s = .next { s with cRsp := none })

/-- R236: C_RETURN frees the INFLIGHT buffer at RP; with nothing INFLIGHT it is not accepted and changes
nothing. -/
def Obligations.ReturnFreesOldestInFlight : Prop :=
  ∀ s : State,
    (s.pool.own.get s.pool.rp = .inflight →
      exec .cReturn s = .next
        { s with
          pool := { s.pool with own := s.pool.own.set s.pool.rp .free, rp := ringNext s.par.nbuf s.pool.rp }
          cRsp := some 0 }) ∧
    (s.pool.own.get s.pool.rp ≠ .inflight → exec .cReturn s = .next { s with cRsp := none })

/-- R105: C_IDLE is always accepted, `c_res = 0`, and changes nothing. -/
def Obligations.IdleChangesNothing : Prop :=
  ∀ (s : State) (idx : BitVec 2) (slot : Half),
    decode (.cons ⟨0, idx, slot⟩) = .ok .cIdle ∧ s.cReady ⟨0, idx, slot⟩ = true ∧
    exec .cIdle s = .next { s with cRsp := some 0 }

/-- R286, R275: a consumer operation changes no more than OWN, TP, RP, UNDERRUN and its own result, halted or
not. -/
def Obligations.ConsumerTouchesOnlyItsOwn : Prop :=
  ∀ (i : Instr) (s t : State), i.isCommand = false → exec i s = .next t →
    t = { s with
      pool := { s.pool with own := t.pool.own, tp := t.pool.tp, rp := t.pool.rp }
      underrun := t.underrun
      cRsp := t.cRsp }

/-- R286: no command and no step of the producer changes TP, RP, UNDERRUN or the consumer's result. -/
def Obligations.ProducerNeverTouchesConsumerState : Prop :=
  ∀ s t : State, (∃ i : Instr, i.isCommand = true ∧ exec i s = .next t) ∨ producerStep s = .next t →
    t.pool.tp = s.pool.tp ∧ t.pool.rp = s.pool.rp ∧ t.underrun = s.underrun ∧ t.cRsp = s.cRsp

/-! ## Faults, halting, reset -/

/-- R273, R289: a command that is taken up faults exactly as the table of faults says, with the first code in the
order of rule R273, and otherwise leaves HALTED and ERR alone. -/
def Obligations.FaultsExactlyAsTabulated : Prop :=
  ∀ (i : Instr) (s : State), i.isCommand = true → s.Accepts →
    (∀ f, faultOf s i = some f →
      exec i s = .next { s with halted := true, err := f, rsp := some ⟨0, true⟩ }) ∧
    (faultOf s i = none → ∀ t, exec i s = .next t → t.halted = false ∧ t.err = s.err) ∧
    execIllegal s = .next { s with halted := true, err := .illegalCmd, rsp := some ⟨0, true⟩ }

/-- R274: a faulting command, one with an unassigned opcode too, sets HALTED and ERR, responds with 0 and
`rsp_err = 1`, and has no other effect; the pins show it, and RUNNING is 0. -/
def Obligations.FaultsArePrecise : Prop :=
  ∀ s t : State, s.Accepts → (∃ i, exec i s = .next t) ∨ execIllegal s = .next t → t.halted = true →
    t.err ≠ .none ∧ t = { s with halted := true, err := t.err, rsp := some ⟨0, true⟩ } ∧
    t.pins.halted = true ∧ t.pins.err = t.err.code ∧ t.pins.rsp = some ⟨0, true⟩ ∧ t.running = false

/-- R106: each of the 240 unassigned opcodes, presented when a command is taken up, faults ILLEGAL_CMD, whatever its
operands; no other opcode is undecodable. -/
def Obligations.UnassignedOpcodesFault : Prop :=
  ∀ c : Cmd,
    let assigned := c.op ∈ ([0x00, 0x01, 0x02, 0x10, 0x11, 0x12, 0x13, 0x20, 0x21, 0x22, 0x30, 0x31, 0x32, 0x33,
      0x34, 0x3F] : List (BitVec 8))
    (assigned → ∃ i, decode (.cmd c) = .ok i) ∧
    (¬assigned → ∀ (s : State) (rest : List Input), s.par.wf = true → s.Accepts →
      s.inputs = .port (.cmd c) :: rest →
      step s = .next
        { s with
          halted := true
          err := .illegalCmd
          rsp := some ⟨0, true⟩
          cRsp := none
          inputs := rest })

/-- R276: while HALTED every command but NOP and RDCSR is discarded with `rsp_err = 1`, an illegal one too, and an
RDCSR that meets a fault condition changes nothing either. -/
def Obligations.HaltedDiscardsCommands : Prop :=
  ∀ s : State, s.running = false → s.waiting = false → s.halted = true →
    (∀ i : Instr, i.isCommand = true → i ≠ .nop → (∀ n, i ≠ .rdcsr n) →
      exec i s = .next { s with rsp := some ⟨0, true⟩ }) ∧
    (∀ n, csrDefined n = false ∨ ((n = 0x04 ∨ n = 0x05) ∧ s.rng.seeded = false) →
      exec (.rdcsr n) s = .next { s with rsp := some ⟨0, true⟩ }) ∧
    execIllegal s = .next { s with rsp := some ⟨0, true⟩ }

/-- R276, R277: HALTED and ERR never change again until reset, and reset clears both. -/
def Obligations.HaltIsStickyUntilReset : Prop :=
  ∀ s t : State, s.halted = true → step s = .next t →
    (s.inputs.head? ≠ some .rstPulse → t.halted = true ∧ t.err = s.err) ∧
    (s.inputs.head? = some .rstPulse → t.halted = false ∧ t.err = .none)

/-- R300, R301, R51: a reset pulse, in whatever state it comes, leaves the reset values of the spec. The elements
without one (XS, PST, PINC, SMP) are not spoken of; the pin and the inputs to come are the outside world's (log
entry 10). -/
def Obligations.ResetValues : Prop :=
  ∀ (s : State) (rest : List Input), s.par.wf = true → s.inputs = .rstPulse :: rest →
    ∃ t, step s = .next t ∧ t.par = s.par ∧ t.inputs = rest ∧ t.sinkOk = s.sinkOk ∧
      t.rng.seeded = false ∧ t.rng.alg = .xs32 ∧
      (∀ k : Fin 4, t.sh.chain.get k = .none ∧ t.sh.coef.get k = 0x40000000 ∧ t.sh.acc.get k = 0 ∧
        t.sh.prev.get k = 0) ∧
      t.sh.gain = (if s.par.repr = .fixed then 0x00008000 else 0x3F000000) ∧
      (∀ i : Fin 4, t.pool.own.get i = .free ∧ t.pool.cnt.get i = 0) ∧
      t.pool.pp = 0 ∧ t.pool.tp = 0 ∧ t.pool.rp = 0 ∧
      t.running = false ∧ t.halted = false ∧ t.err = .none ∧ t.underrun = false ∧ t.rsp = none ∧
      t.cmdReady = true ∧ t.cAvail = false

/-! ## The whole machine -/

/-- When the next input is a port word that decodes, the step is exec of that instruction, after the input is taken
off the list and the response pulses of the step before are over; and the word placed by withFetchWord is the very
next instruction run. -/
def Obligations.StepRunsTheDecodedInstruction : Prop :=
  (∀ (s : State) (w : PortWord) (rest : List Input) (i : Instr), s.par.wf = true →
    s.inputs = .port w :: rest → decode w = .ok i →
    step s = exec i { s with rsp := none, cRsp := none, inputs := rest }) ∧
  (∀ (s : State) (nbits w : Nat) (i : Instr), s.par.wf = true → decodeTableWord nbits w = some i →
    step (s.withFetchWord nbits w) = exec i { s with rsp := none, cRsp := none })

/-- R100, R102, R104: a few words written out from the encoding tables decode to their instructions. -/
def Obligations.SampleWordsDecode : Prop :=
  decode (.cmd (Cmd.ofWord 0x0100000000000000100000000000000000)) = .ok (.rdcsr 0x10) ∧
  decode (.cmd (Cmd.ofWord 0x100000000032B717000000000000000000)) = .ok (.seedx 0x32B71700) ∧
  decode (.cmd ⟨0x20, 0x0000000000000001, 0x000001F400000000⟩) = .ok (.stage 1 0x000001F400000000) ∧
  decode (.cmd ⟨0x31, 0x0000000000018000, 0⟩) = .ok (.put 0x8000) ∧
  decode (.cons ⟨2, 1, 3⟩) = .ok (.cRead 1 3)

/-- R100 to R104: decoding the encoding of any instruction gives it back; a canonical port word that decodes is the
encoding of what it decodes to; a command word holds its triple. -/
def Obligations.EncodingRoundTrip : Prop :=
  (∀ i : Instr, decode (encode i) = .ok i ∧ (encode i).canonical = true) ∧
  (∀ (w : PortWord) (i : Instr), decode w = .ok i → w.canonical = true → encode i = w) ∧
  (∀ c : Cmd, Cmd.ofWord c.toWord = c)

/-- R50, R38, R201, R34 b, R238: every legal instance has the invariant right after reset. -/
def Obligations.InvariantAtReset : Prop :=
  ∀ (p : Params) (inputs : List Input) (ok : Bool), p.wf = true →
    State.Inv { State.resetOf p with inputs := inputs, sinkOk := ok }

/-- R50, R238, R38, R201, R34 b: every step keeps the invariant: the ring order of the pool, full buffers on the
consumer's side, every slot below a count written, memory canonical and in range, control states consistent, an
odd increment, zero upper halves in FLOAT. -/
def Obligations.InvariantKeptByEveryStep : Prop :=
  ∀ s t : State, s.Inv → step s = .next t → t.Inv

/-- R278, R71, R232: in a state with the invariant every step answers a next state, whatever the next input is. -/
def Obligations.InvariantNeverStops : Prop :=
  ∀ s : State, s.Inv → ∃ t, step s = .next t

/-- R278: from reset, for every legal instance and every list of inputs, in whatever interleaving, the machine never
stops. -/
def Obligations.SafeFromReset : Prop :=
  ∀ (p : Params) (inputs : List Input) (ok : Bool), p.wf = true →
    SafeFrom { State.resetOf p with inputs := inputs, sinkOk := ok }

/-- R50: at most one buffer is ACQUIRED, and it is the one at PP. -/
def Obligations.HeldBufferIsTheOneAtPP : Prop :=
  ∀ s : State, s.Inv → ∀ i : Fin 4, s.pool.own.get i = .acquired → i = s.pool.pp

/-- R221: whatever a step does, OWN moves only along the cycle, each transition at its own pointer. -/
def Obligations.OwnershipMovesAlongTheCycle : Prop :=
  ∀ s t : State, s.Inv → step s = .next t → s.inputs.head? ≠ some .rstPulse → ∀ i : Fin 4,
    t.pool.own.get i = s.pool.own.get i ∨
    (s.pool.own.get i = .free ∧ t.pool.own.get i = .acquired ∧ i = s.pool.pp) ∨
    (s.pool.own.get i = .acquired ∧ t.pool.own.get i = .released ∧ i = s.pool.pp ∧
      (s.pool.cnt.get i).toNat = s.par.cap) ∨
    (s.pool.own.get i = .released ∧ t.pool.own.get i = .inflight ∧ i = s.pool.tp) ∨
    (s.pool.own.get i = .inflight ∧ t.pool.own.get i = .free ∧ i = s.pool.rp)

/-- R77, R78: a step changes a sample of a buffer only while that buffer is ACQUIRED. -/
def Obligations.SamplesChangeOnlyWhileAcquired : Prop :=
  ∀ s t : State, s.Inv → step s = .next t → s.inputs.head? ≠ some .rstPulse →
    ∀ (i : Fin 4) (slot : Nat), slot < s.par.cap → s.pool.own.get i ≠ .acquired →
      Mem.readSample t.pool.mem (i.val * s.par.cap + slot) = Mem.readSample s.pool.mem (i.val * s.par.cap + slot)

/-- R80, R36: what GEN produces depends only on the generator and the shaper, not on the pool, the capacity or the
number of buffers; and no buffer command but GEN and FILL changes either. -/
def Obligations.StreamIgnoresBufferBoundaries : Prop :=
  (∀ s t s' t' : State, exec .gen s = .next t → exec .gen s' = .next t' → s.Accepts → s'.Accepts →
    faultOf s .gen = none → faultOf s' .gen = none →
    s.rng = s'.rng → s.sh = s'.sh → s.par.ndraw = s'.par.ndraw → s.par.repr = s'.par.repr →
    t.rsp = t'.rsp ∧ t.rng = t'.rng ∧ t.sh = t'.sh) ∧
  ∀ (i : Instr) (s t : State), exec i s = .next t →
    match i with
    | .acq | .put _ | .rel | .cIdle | .cTake | .cRead _ _ | .cReturn => t.rng = s.rng ∧ t.sh = s.sh
    | _ => True

/-- R9: the parameters of an instance never change. -/
def Obligations.ParametersNeverChange : Prop :=
  ∀ s t : State, step s = .next t → t.par = s.par
end

