-- ==== Sys2Proof/Laws/Memory.lean ====
section
/-! SUPPORT. The sample memory: read after write, and that every write keeps the canonical form. -/

namespace Sys2Proof.Machine

@[simp] theorem Mem.read_write_same (m : List Host.Cell) (a : Nat) (v : BitVec 8) :
    Mem.read (Mem.write m a v) a = some v := by
  induction m with
  | nil => simp [Mem.write, Mem.read]
  | cons c rest ih =>
    obtain ⟨b, w⟩ := c
    rw [Mem.write]
    split
    · simp [Mem.read]
    · split
      · simp [Mem.read]
      · next h => simp [Mem.read, ih, Ne.symm h]

theorem Mem.read_write_other (m : List Host.Cell) {a b : Nat} (v : BitVec 8) (h : b ≠ a) :
    Mem.read (Mem.write m a v) b = Mem.read m b := by
  induction m with
  | nil => simp [Mem.write, Mem.read, Ne.symm h]
  | cons c rest ih =>
    obtain ⟨d, w⟩ := c
    rw [Mem.write]
    split
    · simp [Mem.read, Ne.symm h]
    · split
      · next hd => subst hd; simp [Mem.read, Ne.symm h]
      · simp only [Mem.read, ih]

/-- The canonical form from a lower bound on is also the form from any smaller bound. -/
theorem Mem.risingFrom_le {m : List Host.Cell} {lo lo' : Nat} (hle : lo' ≤ lo)
    (h : Mem.risingFrom lo m = true) : Mem.risingFrom lo' m = true := by
  cases m with
  | nil => rfl
  | cons c rest =>
    simp only [Mem.risingFrom, Bool.and_eq_true, decide_eq_true_eq] at h ⊢
    exact ⟨by omega, h.2⟩

theorem Mem.write_risingFrom {m : List Host.Cell} {lo a : Nat} (v : BitVec 8) (ha : lo ≤ a)
    (h : Mem.risingFrom lo m = true) : Mem.risingFrom lo (Mem.write m a v) = true := by
  induction m generalizing lo with
  | nil => simp [Mem.write, Mem.risingFrom, ha]
  | cons c rest ih =>
    obtain ⟨b, w⟩ := c
    simp only [Mem.risingFrom, Bool.and_eq_true, decide_eq_true_eq] at h
    rw [Mem.write]
    split
    · simp only [Mem.risingFrom, Bool.and_eq_true, decide_eq_true_eq]
      exact ⟨ha, by omega, h.2⟩
    · split
      · next hab =>
        subst hab
        simp only [Mem.risingFrom, Bool.and_eq_true, decide_eq_true_eq]
        exact ⟨ha, h.2⟩
      · simp only [Mem.risingFrom, Bool.and_eq_true, decide_eq_true_eq]
        exact ⟨h.1, ih (by omega) h.2⟩

/-- A byte write keeps the canonical form. -/
theorem Mem.write_wf {m : List Host.Cell} (a : Nat) (v : BitVec 8) (h : Mem.wf m = true) :
    Mem.wf (Mem.write m a v) = true :=
  Mem.write_risingFrom v (Nat.zero_le a) h

/-- A sample write keeps the canonical form. -/
theorem Mem.writeSample_wf {m : List Host.Cell} (addr : Nat) (v : Sample) (h : Mem.wf m = true) :
    Mem.wf (Mem.writeSample m addr v) = true :=
  Mem.write_wf _ _ (Mem.write_wf _ _ h)

/-- The addresses a write leaves listed are the old ones and the one written. -/
theorem Mem.mem_write {m : List Host.Cell} {a : Nat} {v : BitVec 8} {c : Host.Cell}
    (h : c ∈ Mem.write m a v) : c = (a, v) ∨ c ∈ m := by
  induction m with
  | nil => exact .inl (by simpa [Mem.write] using h)
  | cons d rest ih =>
    obtain ⟨b, w⟩ := d
    rw [Mem.write] at h
    split at h
    · simpa using h
    · split at h
      · rcases List.mem_cons.mp h with h | h
        · exact .inl h
        · exact .inr (List.mem_cons_of_mem _ h)
      · rcases List.mem_cons.mp h with h | h
        · exact .inr (by simp [h])
        · exact (ih h).imp id (List.mem_cons_of_mem _)

theorem Mem.mem_writeSample {m : List Host.Cell} {addr : Nat} {v : Sample} {c : Host.Cell}
    (h : c ∈ Mem.writeSample m addr v) : c.1 = 2 * addr ∨ c.1 = 2 * addr + 1 ∨ c ∈ m := by
  rcases Mem.mem_write h with h | h
  · exact .inr (.inl (by simp [h]))
  · exact (Mem.mem_write h).imp (fun h => by simp [h]) .inr

/-- The two bytes of a sample are the only ones a sample write changes. -/
theorem Mem.read_writeSample_other {m : List Host.Cell} {addr a : Nat} (v : Sample) (h0 : a ≠ 2 * addr)
    (h1 : a ≠ 2 * addr + 1) : Mem.read (Mem.writeSample m addr v) a = Mem.read m a := by
  rw [Mem.writeSample, Mem.read_write_other _ _ h1, Mem.read_write_other _ _ h0]

/-- A sample is two bytes, the high one first. -/
theorem Sample.bytes_append (v : Sample) : v.extractLsb' 8 8 ++ v.extractLsb' 0 8 = v := by
  apply BitVec.eq_of_getLsbD_eq
  intro i hi
  simp only [BitVec.getLsbD_append, BitVec.getLsbD_extractLsb']
  by_cases h : i < 8
  · simp [h]
  · simp only [h, decide_false]
    have : i - 8 < 8 := by omega
    simp [this, show 8 + (i - 8) = i by omega]

/-- A read of the word address just written gives the sample (rule R75). -/
@[simp] theorem Mem.readSample_writeSample_same (m : List Host.Cell) (addr : Nat) (v : Sample) :
    Mem.readSample (Mem.writeSample m addr v) addr = some v := by
  rw [Mem.readSample, Mem.writeSample, Mem.read_write_same,
    Mem.read_write_other _ _ (by omega : 2 * addr ≠ 2 * addr + 1), Mem.read_write_same]
  exact congrArg some (Sample.bytes_append v)

/-- A sample write leaves every other word address alone. -/
theorem Mem.readSample_writeSample_other (m : List Host.Cell) {addr b : Nat} (v : Sample) (h : b ≠ addr) :
    Mem.readSample (Mem.writeSample m addr v) b = Mem.readSample m b := by
  rw [Mem.readSample, Mem.readSample, Mem.read_writeSample_other v (by omega) (by omega),
    Mem.read_writeSample_other v (by omega) (by omega)]

end Sys2Proof.Machine
end

