-- ==== Sys2Proof/Laws/Quad.lean ====
section
/-! SUPPORT. Reading and writing one of four. -/

namespace Sys2Proof

@[simp] theorem Quad.get_set_same {α : Type} (q : Quad α) (i : Fin 4) (v : α) : (q.set i v).get i = v := by
  fin_cases i <;> rfl

theorem Quad.get_set_other {α : Type} (q : Quad α) {i j : Fin 4} (v : α) (h : j ≠ i) :
    (q.set i v).get j = q.get j := by
  fin_cases i <;> fin_cases j <;> first | rfl | exact absurd rfl h

theorem Quad.get_set {α : Type} (q : Quad α) (i j : Fin 4) (v : α) :
    (q.set i v).get j = if j = i then v else q.get j := by
  split
  · next h => rw [h, Quad.get_set_same]
  · next h => exact Quad.get_set_other q v h

@[simp] theorem Quad.set_get {α : Type} (q : Quad α) (i : Fin 4) : q.set i (q.get i) = q := by
  fin_cases i <;> rfl

@[simp] theorem Quad.get_all {α : Type} (v : α) (i : Fin 4) : (Quad.all v).get i = v := by
  fin_cases i <;> rfl

end Sys2Proof
end

