-- ==== Sys2Proof/Laws/State.lean ====
section
/-! SUPPORT. One lemma per field per named update of State, all by rfl; and the same for the pool, the shaper and
the generator. -/

namespace Sys2Proof.Machine

/-! ### respond -/

@[simp] theorem State.respond_par (s : State) (res : Word) : (s.respond res).par = s.par := rfl
@[simp] theorem State.respond_rng (s : State) (res : Word) : (s.respond res).rng = s.rng := rfl
@[simp] theorem State.respond_sh (s : State) (res : Word) : (s.respond res).sh = s.sh := rfl
@[simp] theorem State.respond_pool (s : State) (res : Word) : (s.respond res).pool = s.pool := rfl
@[simp] theorem State.respond_running (s : State) (res : Word) : (s.respond res).running = s.running := rfl
@[simp] theorem State.respond_halted (s : State) (res : Word) : (s.respond res).halted = s.halted := rfl
@[simp] theorem State.respond_err (s : State) (res : Word) : (s.respond res).err = s.err := rfl
@[simp] theorem State.respond_underrun (s : State) (res : Word) : (s.respond res).underrun = s.underrun := rfl
@[simp] theorem State.respond_waiting (s : State) (res : Word) : (s.respond res).waiting = s.waiting := rfl
@[simp] theorem State.respond_phase (s : State) (res : Word) : (s.respond res).phase = s.phase := rfl
@[simp] theorem State.respond_sinkOk (s : State) (res : Word) : (s.respond res).sinkOk = s.sinkOk := rfl
@[simp] theorem State.respond_rsp (s : State) (res : Word) : (s.respond res).rsp = some ⟨res, false⟩ := rfl
@[simp] theorem State.respond_cRsp (s : State) (res : Word) : (s.respond res).cRsp = s.cRsp := rfl
@[simp] theorem State.respond_inputs (s : State) (res : Word) : (s.respond res).inputs = s.inputs := rfl

/-! ### respondErr -/

@[simp] theorem State.respondErr_par (s : State) : s.respondErr.par = s.par := rfl
@[simp] theorem State.respondErr_rng (s : State) : s.respondErr.rng = s.rng := rfl
@[simp] theorem State.respondErr_sh (s : State) : s.respondErr.sh = s.sh := rfl
@[simp] theorem State.respondErr_pool (s : State) : s.respondErr.pool = s.pool := rfl
@[simp] theorem State.respondErr_running (s : State) : s.respondErr.running = s.running := rfl
@[simp] theorem State.respondErr_halted (s : State) : s.respondErr.halted = s.halted := rfl
@[simp] theorem State.respondErr_err (s : State) : s.respondErr.err = s.err := rfl
@[simp] theorem State.respondErr_underrun (s : State) : s.respondErr.underrun = s.underrun := rfl
@[simp] theorem State.respondErr_waiting (s : State) : s.respondErr.waiting = s.waiting := rfl
@[simp] theorem State.respondErr_phase (s : State) : s.respondErr.phase = s.phase := rfl
@[simp] theorem State.respondErr_sinkOk (s : State) : s.respondErr.sinkOk = s.sinkOk := rfl
@[simp] theorem State.respondErr_rsp (s : State) : s.respondErr.rsp = some ⟨0, true⟩ := rfl
@[simp] theorem State.respondErr_cRsp (s : State) : s.respondErr.cRsp = s.cRsp := rfl
@[simp] theorem State.respondErr_inputs (s : State) : s.respondErr.inputs = s.inputs := rfl

/-! ### noRsp -/

@[simp] theorem State.noRsp_par (s : State) : s.noRsp.par = s.par := rfl
@[simp] theorem State.noRsp_rng (s : State) : s.noRsp.rng = s.rng := rfl
@[simp] theorem State.noRsp_sh (s : State) : s.noRsp.sh = s.sh := rfl
@[simp] theorem State.noRsp_pool (s : State) : s.noRsp.pool = s.pool := rfl
@[simp] theorem State.noRsp_running (s : State) : s.noRsp.running = s.running := rfl
@[simp] theorem State.noRsp_halted (s : State) : s.noRsp.halted = s.halted := rfl
@[simp] theorem State.noRsp_err (s : State) : s.noRsp.err = s.err := rfl
@[simp] theorem State.noRsp_underrun (s : State) : s.noRsp.underrun = s.underrun := rfl
@[simp] theorem State.noRsp_waiting (s : State) : s.noRsp.waiting = s.waiting := rfl
@[simp] theorem State.noRsp_phase (s : State) : s.noRsp.phase = s.phase := rfl
@[simp] theorem State.noRsp_sinkOk (s : State) : s.noRsp.sinkOk = s.sinkOk := rfl
@[simp] theorem State.noRsp_rsp (s : State) : s.noRsp.rsp = none := rfl
@[simp] theorem State.noRsp_cRsp (s : State) : s.noRsp.cRsp = s.cRsp := rfl
@[simp] theorem State.noRsp_inputs (s : State) : s.noRsp.inputs = s.inputs := rfl

/-! ### cRespond -/

@[simp] theorem State.cRespond_par (s : State) (v : Sample) : (s.cRespond v).par = s.par := rfl
@[simp] theorem State.cRespond_rng (s : State) (v : Sample) : (s.cRespond v).rng = s.rng := rfl
@[simp] theorem State.cRespond_sh (s : State) (v : Sample) : (s.cRespond v).sh = s.sh := rfl
@[simp] theorem State.cRespond_pool (s : State) (v : Sample) : (s.cRespond v).pool = s.pool := rfl
@[simp] theorem State.cRespond_running (s : State) (v : Sample) : (s.cRespond v).running = s.running := rfl
@[simp] theorem State.cRespond_halted (s : State) (v : Sample) : (s.cRespond v).halted = s.halted := rfl
@[simp] theorem State.cRespond_err (s : State) (v : Sample) : (s.cRespond v).err = s.err := rfl
@[simp] theorem State.cRespond_underrun (s : State) (v : Sample) : (s.cRespond v).underrun = s.underrun := rfl
@[simp] theorem State.cRespond_waiting (s : State) (v : Sample) : (s.cRespond v).waiting = s.waiting := rfl
@[simp] theorem State.cRespond_phase (s : State) (v : Sample) : (s.cRespond v).phase = s.phase := rfl
@[simp] theorem State.cRespond_sinkOk (s : State) (v : Sample) : (s.cRespond v).sinkOk = s.sinkOk := rfl
@[simp] theorem State.cRespond_rsp (s : State) (v : Sample) : (s.cRespond v).rsp = s.rsp := rfl
@[simp] theorem State.cRespond_cRsp (s : State) (v : Sample) : (s.cRespond v).cRsp = some v := rfl
@[simp] theorem State.cRespond_inputs (s : State) (v : Sample) : (s.cRespond v).inputs = s.inputs := rfl

/-! ### noCRsp -/

@[simp] theorem State.noCRsp_par (s : State) : s.noCRsp.par = s.par := rfl
@[simp] theorem State.noCRsp_rng (s : State) : s.noCRsp.rng = s.rng := rfl
@[simp] theorem State.noCRsp_sh (s : State) : s.noCRsp.sh = s.sh := rfl
@[simp] theorem State.noCRsp_pool (s : State) : s.noCRsp.pool = s.pool := rfl
@[simp] theorem State.noCRsp_running (s : State) : s.noCRsp.running = s.running := rfl
@[simp] theorem State.noCRsp_halted (s : State) : s.noCRsp.halted = s.halted := rfl
@[simp] theorem State.noCRsp_err (s : State) : s.noCRsp.err = s.err := rfl
@[simp] theorem State.noCRsp_underrun (s : State) : s.noCRsp.underrun = s.underrun := rfl
@[simp] theorem State.noCRsp_waiting (s : State) : s.noCRsp.waiting = s.waiting := rfl
@[simp] theorem State.noCRsp_phase (s : State) : s.noCRsp.phase = s.phase := rfl
@[simp] theorem State.noCRsp_sinkOk (s : State) : s.noCRsp.sinkOk = s.sinkOk := rfl
@[simp] theorem State.noCRsp_rsp (s : State) : s.noCRsp.rsp = s.rsp := rfl
@[simp] theorem State.noCRsp_cRsp (s : State) : s.noCRsp.cRsp = none := rfl
@[simp] theorem State.noCRsp_inputs (s : State) : s.noCRsp.inputs = s.inputs := rfl

/-! ### takeFault -/

@[simp] theorem State.takeFault_par (s : State) (f : ErrCode) : (s.takeFault f).par = s.par := rfl
@[simp] theorem State.takeFault_rng (s : State) (f : ErrCode) : (s.takeFault f).rng = s.rng := rfl
@[simp] theorem State.takeFault_sh (s : State) (f : ErrCode) : (s.takeFault f).sh = s.sh := rfl
@[simp] theorem State.takeFault_pool (s : State) (f : ErrCode) : (s.takeFault f).pool = s.pool := rfl
@[simp] theorem State.takeFault_running (s : State) (f : ErrCode) : (s.takeFault f).running = s.running := rfl
@[simp] theorem State.takeFault_halted (s : State) (f : ErrCode) : (s.takeFault f).halted = true := rfl
@[simp] theorem State.takeFault_err (s : State) (f : ErrCode) : (s.takeFault f).err = f := rfl
@[simp] theorem State.takeFault_underrun (s : State) (f : ErrCode) : (s.takeFault f).underrun = s.underrun := rfl
@[simp] theorem State.takeFault_waiting (s : State) (f : ErrCode) : (s.takeFault f).waiting = s.waiting := rfl
@[simp] theorem State.takeFault_phase (s : State) (f : ErrCode) : (s.takeFault f).phase = s.phase := rfl
@[simp] theorem State.takeFault_sinkOk (s : State) (f : ErrCode) : (s.takeFault f).sinkOk = s.sinkOk := rfl
@[simp] theorem State.takeFault_rsp (s : State) (f : ErrCode) : (s.takeFault f).rsp = some ⟨0, true⟩ := rfl
@[simp] theorem State.takeFault_cRsp (s : State) (f : ErrCode) : (s.takeFault f).cRsp = s.cRsp := rfl
@[simp] theorem State.takeFault_inputs (s : State) (f : ErrCode) : (s.takeFault f).inputs = s.inputs := rfl

/-! ### quiet -/

@[simp] theorem State.quiet_par (s : State) : s.quiet.par = s.par := rfl
@[simp] theorem State.quiet_rng (s : State) : s.quiet.rng = s.rng := rfl
@[simp] theorem State.quiet_sh (s : State) : s.quiet.sh = s.sh := rfl
@[simp] theorem State.quiet_pool (s : State) : s.quiet.pool = s.pool := rfl
@[simp] theorem State.quiet_running (s : State) : s.quiet.running = s.running := rfl
@[simp] theorem State.quiet_halted (s : State) : s.quiet.halted = s.halted := rfl
@[simp] theorem State.quiet_err (s : State) : s.quiet.err = s.err := rfl
@[simp] theorem State.quiet_underrun (s : State) : s.quiet.underrun = s.underrun := rfl
@[simp] theorem State.quiet_waiting (s : State) : s.quiet.waiting = s.waiting := rfl
@[simp] theorem State.quiet_phase (s : State) : s.quiet.phase = s.phase := rfl
@[simp] theorem State.quiet_sinkOk (s : State) : s.quiet.sinkOk = s.sinkOk := rfl
@[simp] theorem State.quiet_rsp (s : State) : s.quiet.rsp = none := rfl
@[simp] theorem State.quiet_cRsp (s : State) : s.quiet.cRsp = none := rfl
@[simp] theorem State.quiet_inputs (s : State) : s.quiet.inputs = s.inputs := rfl

/-! ### afterInput -/

@[simp] theorem State.afterInput_par (s : State) : s.afterInput.par = s.par := rfl
@[simp] theorem State.afterInput_rng (s : State) : s.afterInput.rng = s.rng := rfl
@[simp] theorem State.afterInput_sh (s : State) : s.afterInput.sh = s.sh := rfl
@[simp] theorem State.afterInput_pool (s : State) : s.afterInput.pool = s.pool := rfl
@[simp] theorem State.afterInput_running (s : State) : s.afterInput.running = s.running := rfl
@[simp] theorem State.afterInput_halted (s : State) : s.afterInput.halted = s.halted := rfl
@[simp] theorem State.afterInput_err (s : State) : s.afterInput.err = s.err := rfl
@[simp] theorem State.afterInput_underrun (s : State) : s.afterInput.underrun = s.underrun := rfl
@[simp] theorem State.afterInput_waiting (s : State) : s.afterInput.waiting = s.waiting := rfl
@[simp] theorem State.afterInput_phase (s : State) : s.afterInput.phase = s.phase := rfl
@[simp] theorem State.afterInput_sinkOk (s : State) : s.afterInput.sinkOk = s.sinkOk := rfl
@[simp] theorem State.afterInput_rsp (s : State) : s.afterInput.rsp = none := rfl
@[simp] theorem State.afterInput_cRsp (s : State) : s.afterInput.cRsp = none := rfl
@[simp] theorem State.afterInput_inputs (s : State) : s.afterInput.inputs = s.inputs.tail := rfl

/-! ### Pool.acquire -/

@[simp] theorem Pool.acquire_own (p : Pool) : p.acquire.own = p.own.set p.pp .acquired := rfl
@[simp] theorem Pool.acquire_cnt (p : Pool) : p.acquire.cnt = p.cnt.set p.pp 0 := rfl
@[simp] theorem Pool.acquire_mem (p : Pool) : p.acquire.mem = p.mem := rfl
@[simp] theorem Pool.acquire_pp (p : Pool) : p.acquire.pp = p.pp := rfl
@[simp] theorem Pool.acquire_tp (p : Pool) : p.acquire.tp = p.tp := rfl
@[simp] theorem Pool.acquire_rp (p : Pool) : p.acquire.rp = p.rp := rfl

/-! ### Pool.release -/

@[simp] theorem Pool.release_own (p : Pool) (n : Nat) : (Pool.release n p).own = p.own.set p.pp .released := rfl
@[simp] theorem Pool.release_cnt (p : Pool) (n : Nat) : (Pool.release n p).cnt = p.cnt := rfl
@[simp] theorem Pool.release_mem (p : Pool) (n : Nat) : (Pool.release n p).mem = p.mem := rfl
@[simp] theorem Pool.release_pp (p : Pool) (n : Nat) : (Pool.release n p).pp = ringNext n p.pp := rfl
@[simp] theorem Pool.release_tp (p : Pool) (n : Nat) : (Pool.release n p).tp = p.tp := rfl
@[simp] theorem Pool.release_rp (p : Pool) (n : Nat) : (Pool.release n p).rp = p.rp := rfl

/-! ### Pool.take -/

@[simp] theorem Pool.take_own (p : Pool) (n : Nat) : (Pool.take n p).own = p.own.set p.tp .inflight := rfl
@[simp] theorem Pool.take_cnt (p : Pool) (n : Nat) : (Pool.take n p).cnt = p.cnt := rfl
@[simp] theorem Pool.take_mem (p : Pool) (n : Nat) : (Pool.take n p).mem = p.mem := rfl
@[simp] theorem Pool.take_pp (p : Pool) (n : Nat) : (Pool.take n p).pp = p.pp := rfl
@[simp] theorem Pool.take_tp (p : Pool) (n : Nat) : (Pool.take n p).tp = ringNext n p.tp := rfl
@[simp] theorem Pool.take_rp (p : Pool) (n : Nat) : (Pool.take n p).rp = p.rp := rfl

/-! ### Pool.giveBack -/

@[simp] theorem Pool.giveBack_own (p : Pool) (n : Nat) : (Pool.giveBack n p).own = p.own.set p.rp .free := rfl
@[simp] theorem Pool.giveBack_cnt (p : Pool) (n : Nat) : (Pool.giveBack n p).cnt = p.cnt := rfl
@[simp] theorem Pool.giveBack_mem (p : Pool) (n : Nat) : (Pool.giveBack n p).mem = p.mem := rfl
@[simp] theorem Pool.giveBack_pp (p : Pool) (n : Nat) : (Pool.giveBack n p).pp = p.pp := rfl
@[simp] theorem Pool.giveBack_tp (p : Pool) (n : Nat) : (Pool.giveBack n p).tp = p.tp := rfl
@[simp] theorem Pool.giveBack_rp (p : Pool) (n : Nat) : (Pool.giveBack n p).rp = ringNext n p.rp := rfl

/-! ### Pool.store -/

@[simp] theorem Pool.store_own (p : Pool) (cap : Nat) (v : Sample) : (p.store cap v).own = p.own := rfl
@[simp] theorem Pool.store_cnt (p : Pool) (cap : Nat) (v : Sample) : (p.store cap v).cnt = p.cnt.set p.pp (p.cnt.get p.pp + 1) := rfl
@[simp] theorem Pool.store_mem (p : Pool) (cap : Nat) (v : Sample) : (p.store cap v).mem = Mem.writeSample p.mem (p.nextAddr cap) v := rfl
@[simp] theorem Pool.store_pp (p : Pool) (cap : Nat) (v : Sample) : (p.store cap v).pp = p.pp := rfl
@[simp] theorem Pool.store_tp (p : Pool) (cap : Nat) (v : Sample) : (p.store cap v).tp = p.tp := rfl
@[simp] theorem Pool.store_rp (p : Pool) (cap : Nat) (v : Sample) : (p.store cap v).rp = p.rp := rfl

end Sys2Proof.Machine
end

