-- ==== Sys2Proof/Laws/Ops.lean ====
section
/-! SUPPORT. The shared operations: what the acceptance rules can do, and the ring. -/

namespace Sys2Proof.Machine

theorem State.cmdReady_iff (s : State) : s.cmdReady = true ↔ s.running = false ∧ s.waiting = false := by
  simp [State.cmdReady]

/-- A command that is taken up is governed by its own rule (rule R272). -/
theorem command_accepts {s : State} {body : State → Out} (hr : s.running = false) (hw : s.waiting = false)
    (hh : s.halted = false) : command s body = body s := by
  simp [command, State.cmdReady, hr, hw, hh]

/-- While HALTED a command is discarded (rule R276). -/
theorem command_halted {s : State} {body : State → Out} (hr : s.running = false) (hw : s.waiting = false)
    (hh : s.halted = true) : command s body = .next s.respondErr := by
  simp [command, State.cmdReady, hr, hw, hh]

/-- While RUNNING, or while an ACQ waits, a command is not accepted (rule R233). -/
theorem command_notReady {s : State} {body : State → Out} (h : s.running = true ∨ s.waiting = true) :
    command s body = .next s.noRsp := by
  rcases h with h | h <;> simp [command, State.cmdReady, h]

/-- Everything the acceptance rules can do with a command. -/
theorem command_next {s t : State} {body : State → Out} (h : command s body = .next t) :
    (s.cmdReady = false ∧ t = s.noRsp) ∨ (s.cmdReady = true ∧ s.halted = true ∧ t = s.respondErr) ∨
      ((s.running = false ∧ s.waiting = false ∧ s.halted = false) ∧ body s = .next t) := by
  unfold command at h
  split at h
  · next hr =>
    rw [State.cmdReady_iff] at hr
    split at h
    · next hh => exact .inr (.inl ⟨by simp [State.cmdReady, hr], hh, by injection h with h; exact h.symm⟩)
    · next hh => exact .inr (.inr ⟨⟨hr.1, hr.2, by simpa using hh⟩, h⟩)
  · next hr => exact .inl ⟨by simpa using hr, by injection h with h; exact h.symm⟩

theorem systemCommand_accepts {s : State} {body : State → Out} (hr : s.running = false)
    (hw : s.waiting = false) : systemCommand s body = body s := by
  simp [systemCommand, State.cmdReady, hr, hw]

theorem systemCommand_notReady {s : State} {body : State → Out} (h : s.running = true ∨ s.waiting = true) :
    systemCommand s body = .next s.noRsp := by
  rcases h with h | h <;> simp [systemCommand, State.cmdReady, h]

/-- Everything the acceptance rules can do with NOP and RDCSR. -/
theorem systemCommand_next {s t : State} {body : State → Out} (h : systemCommand s body = .next t) :
    (s.cmdReady = false ∧ t = s.noRsp) ∨ (s.running = false ∧ s.waiting = false ∧ body s = .next t) := by
  unfold systemCommand at h
  split at h
  · next hr =>
    rw [State.cmdReady_iff] at hr
    exact .inr ⟨hr.1, hr.2, h⟩
  · next hr => exact .inl ⟨by simpa using hr, by injection h with h; exact h.symm⟩

theorem raiseFault_running {s : State} (f : ErrCode) (h : s.halted = false) :
    s.raiseFault f = s.takeFault f := by
  simp [State.raiseFault, h]

theorem raiseFault_halted {s : State} (f : ErrCode) (h : s.halted = true) : s.raiseFault f = s.respondErr := by
  simp [State.raiseFault, h]

/-- A ring pointer stays below NBUF. -/
theorem ringNext_lt {nbuf : Nat} (h : 0 < nbuf) (h4 : nbuf ≤ 4) (i : Fin 4) : (ringNext nbuf i).val < nbuf := by
  have hm : (i.val + 1) % nbuf < nbuf := Nat.mod_lt _ h
  simp only [ringNext, Fin.ofNat]
  omega

@[simp] theorem Pool.hold_eq (p : Pool) : p.hold = (p.own.get p.pp == Own.acquired) := rfl

/-- The two ways a blocked acquire goes (rule R222). -/
theorem acquireOrWait_free {s : State} (h : s.pool.own.get s.pool.pp = .free) :
    s.acquireOrWait =
      { s with pool := s.pool.acquire, waiting := false, rsp := some ⟨BitVec.ofNat 64 s.pool.pp.val, false⟩ } := by
  simp [State.acquireOrWait, h]

theorem acquireOrWait_waits {s : State} (h : s.pool.own.get s.pool.pp ≠ .free) :
    s.acquireOrWait = { s with waiting := true, rsp := none } := by
  simp [State.acquireOrWait, h]

end Sys2Proof.Machine
end

