-- ==== Sys2Proof/Laws/Rng.lean ====
section
/-! SUPPORT. What a draw leaves alone, and the sum of draws. -/

namespace Sys2Proof.Machine

@[simp] theorem Rng.draw_seeded (r : Rng) : r.draw.2.seeded = r.seeded := by
  unfold Rng.draw; split <;> rfl

@[simp] theorem Rng.draw_alg (r : Rng) : r.draw.2.alg = r.alg := by
  unfold Rng.draw; split <;> rfl

@[simp] theorem Rng.draw_pinc (r : Rng) : r.draw.2.pinc = r.pinc := by
  unfold Rng.draw; split <;> rfl

theorem Rng.draw_xs32 {r : Rng} (h : r.alg = .xs32) :
    r.draw = (xs32Step r.xs, { r with xs := xs32Step r.xs }) := by
  unfold Rng.draw; simp [h]

theorem Rng.draw_pcg32 {r : Rng} (h : r.alg = .pcg32) :
    r.draw = (pcgOutput r.pst, { r with pst := pcgAdvance r.pst r.pinc }) := by
  unfold Rng.draw; simp [h]

@[simp] theorem Rng.drawSum_zero (r : Rng) : r.drawSum 0 = (0, r) := rfl

theorem Rng.drawSum_succ (k : Nat) (r : Rng) :
    r.drawSum (k + 1) = (halvesSum r.draw.1 + (r.draw.2.drawSum k).1, (r.draw.2.drawSum k).2) := rfl

/-- Any field a draw leaves alone is left alone by any number of draws. -/
theorem Rng.drawSum_keeps {α : Type} (f : Rng → α) (hf : ∀ r : Rng, f r.draw.2 = f r) (n : Nat) (r : Rng) :
    f (r.drawSum n).2 = f r := by
  induction n generalizing r with
  | zero => rfl
  | succ k ih => rw [Rng.drawSum_succ]; exact (ih _).trans (hf r)

theorem Rng.normal_snd (n : Nat) (r : Rng) : (r.normal n).2 = (r.drawSum n).2 := rfl

@[simp] theorem Rng.normal_seeded (n : Nat) (r : Rng) : (r.normal n).2.seeded = r.seeded :=
  Rng.drawSum_keeps Rng.seeded Rng.draw_seeded n r

@[simp] theorem Rng.normal_alg (n : Nat) (r : Rng) : (r.normal n).2.alg = r.alg :=
  Rng.drawSum_keeps Rng.alg Rng.draw_alg n r

@[simp] theorem Rng.normal_pinc (n : Nat) (r : Rng) : (r.normal n).2.pinc = r.pinc :=
  Rng.drawSum_keeps Rng.pinc Rng.draw_pinc n r

/-- Both halves of a draw together are at most 2 * 65535 (rule R142). -/
theorem halvesSum_le (u : Half) : halvesSum u ≤ 131070 := by
  unfold halvesSum
  have h0 := (u.extractLsb' 0 16).isLt
  have h1 := (u.extractLsb' 16 16).isLt
  omega

theorem seededOnly_seeded {s : State} {body : State → Out} (h : s.rng.seeded = true) :
    seededOnly s body = body s := by
  simp [seededOnly, h]

theorem seededOnly_unseeded {s : State} {body : State → Out} (h : s.rng.seeded = false) :
    seededOnly s body = .next (s.takeFault .notSeeded) := by
  simp [seededOnly, h]

end Sys2Proof.Machine
end

