-- ==== Sys2Proof/Laws/Shaper.lean ====
section
/-! SUPPORT. What the shaper's stages leave alone, and the narrowing of exact results. -/

namespace Sys2Proof.Machine

theorem clamp_ge {lo hi : Int} (h : lo ≤ hi) (v : Int) : lo ≤ clamp v lo hi := by
  unfold clamp; split
  · exact le_refl _
  · split <;> omega

theorem clamp_le {lo hi : Int} (h : lo ≤ hi) (v : Int) : clamp v lo hi ≤ hi := by
  unfold clamp; split
  · exact h
  · split <;> omega

theorem clamp_of_mem {lo hi v : Int} (h0 : lo ≤ v) (h1 : v ≤ hi) : clamp v lo hi = v := by
  unfold clamp; split
  · omega
  · split <;> omega

/-- A value of the s64 range is its 64-bit pattern's value: narrowing loses nothing (rule R12). -/
theorem bits64_toInt {v : Int} (h0 : -2 ^ 63 ≤ v) (h1 : v < 2 ^ 63) : (bits64 v).toInt = v := by
  rw [bits64, BitVec.toInt_ofInt, Int.bmod_eq_of_le] <;> omega

theorem bits16_toInt {v : Int} (h0 : -32768 ≤ v) (h1 : v ≤ 32767) : (bits16 v).toInt = v := by
  rw [bits16, BitVec.toInt_ofInt, Int.bmod_eq_of_le] <;> omega

theorem clampA_bounds (c : Half) : 1 ≤ clampA c ∧ clampA c ≤ 2 ^ 31 - 1 := by
  unfold clampA
  split
  · omega
  · split <;> omega

@[simp] theorem Shaper.stage_chain (r : NumRepr) (k : Fin 4) (x : Word) (sh : Shaper) :
    (sh.stage r k x).2.chain = sh.chain := rfl

@[simp] theorem Shaper.stage_coef (r : NumRepr) (k : Fin 4) (x : Word) (sh : Shaper) :
    (sh.stage r k x).2.coef = sh.coef := rfl

@[simp] theorem Shaper.stage_gain (r : NumRepr) (k : Fin 4) (x : Word) (sh : Shaper) :
    (sh.stage r k x).2.gain = sh.gain := rfl

/-- A slot's state belongs to that slot only (rule R182). -/
theorem Shaper.stage_acc_other (r : NumRepr) {k j : Fin 4} (x : Word) (sh : Shaper) (h : j ≠ k) :
    (sh.stage r k x).2.acc.get j = sh.acc.get j :=
  Quad.get_set_other _ _ h

theorem Shaper.stage_prev_other (r : NumRepr) {k j : Fin 4} (x : Word) (sh : Shaper) (h : j ≠ k) :
    (sh.stage r k x).2.prev.get j = sh.prev.get j :=
  Quad.get_set_other _ _ h

theorem Shaper.chainEval_eq (r : NumRepr) (x : Word) (sh : Shaper) :
    sh.chainEval r x =
      (((sh.stage r 0 x).2.stage r 1 (sh.stage r 0 x).1).2.stage r 2
        ((sh.stage r 0 x).2.stage r 1 (sh.stage r 0 x).1).1).2.stage r 3
        (((sh.stage r 0 x).2.stage r 1 (sh.stage r 0 x).1).2.stage r 2
          ((sh.stage r 0 x).2.stage r 1 (sh.stage r 0 x).1).1).1 := rfl

@[simp] theorem Shaper.shape_chain (r : NumRepr) (n : Int) (sh : Shaper) : (sh.shape r n).2.chain = sh.chain := rfl

@[simp] theorem Shaper.shape_coef (r : NumRepr) (n : Int) (sh : Shaper) : (sh.shape r n).2.coef = sh.coef := rfl

@[simp] theorem Shaper.shape_gain (r : NumRepr) (n : Int) (sh : Shaper) : (sh.shape r n).2.gain = sh.gain := rfl

theorem slotOf_lt {k : BitVec 8} (h : k.toNat < 4) : slotOf k = some ⟨k.toNat, h⟩ := by
  simp [slotOf, h]

theorem slotOf_ge {k : BitVec 8} (h : 4 ≤ k.toNat) : slotOf k = none := by
  simp [slotOf, Nat.not_lt.mpr h]

end Sys2Proof.Machine
end

