-- ==== Sys2Proof/Laws/Buffer.lean ====
section
/-! SUPPORT. One iteration of the generation loop and its repetition: what they change and what they keep. -/

namespace Sys2Proof.Machine

/-- Everything one `gen_body` does. -/
theorem State.genBody_eq (s : State) :
    s.genBody =
      ((s.sh.shape s.par.repr (s.rng.normal s.par.ndraw).1).1,
        { s with
          rng := (s.rng.normal s.par.ndraw).2
          sh := (s.sh.shape s.par.repr (s.rng.normal s.par.ndraw).1).2
          pool := s.pool.store s.par.cap (s.sh.shape s.par.repr (s.rng.normal s.par.ndraw).1).1 }) := rfl

@[simp] theorem State.genTimes_zero (s : State) : s.genTimes 0 = s := rfl

theorem State.genTimes_succ (k : Nat) (s : State) : s.genTimes (k + 1) = (s.genBody.2).genTimes k := rfl

/-- Anything one `gen_body` keeps, any number of them keeps. -/
theorem State.genTimes_keeps {α : Type} (f : State → α) (hf : ∀ s : State, f s.genBody.2 = f s) (m : Nat)
    (s : State) : f (s.genTimes m) = f s := by
  induction m generalizing s with
  | zero => rfl
  | succ k ih => rw [State.genTimes_succ]; exact (ih _).trans (hf s)

/-- Any property one `gen_body` preserves, any number of them preserves. -/
theorem State.genTimes_preserves (P : State → Prop) (hP : ∀ s : State, P s → P s.genBody.2) (m : Nat)
    (s : State) (h : P s) : P (s.genTimes m) := by
  induction m generalizing s with
  | zero => exact h
  | succ k ih => rw [State.genTimes_succ]; exact ih _ (hP s h)

@[simp] theorem State.genTimes_par (m : Nat) (s : State) : (s.genTimes m).par = s.par :=
  State.genTimes_keeps State.par (fun _ => rfl) m s

@[simp] theorem State.genTimes_own (m : Nat) (s : State) : (s.genTimes m).pool.own = s.pool.own :=
  State.genTimes_keeps (fun s => s.pool.own) (fun _ => rfl) m s

@[simp] theorem State.genTimes_pp (m : Nat) (s : State) : (s.genTimes m).pool.pp = s.pool.pp :=
  State.genTimes_keeps (fun s => s.pool.pp) (fun _ => rfl) m s

@[simp] theorem State.genTimes_tp (m : Nat) (s : State) : (s.genTimes m).pool.tp = s.pool.tp :=
  State.genTimes_keeps (fun s => s.pool.tp) (fun _ => rfl) m s

@[simp] theorem State.genTimes_rp (m : Nat) (s : State) : (s.genTimes m).pool.rp = s.pool.rp :=
  State.genTimes_keeps (fun s => s.pool.rp) (fun _ => rfl) m s

@[simp] theorem State.genTimes_halted (m : Nat) (s : State) : (s.genTimes m).halted = s.halted :=
  State.genTimes_keeps State.halted (fun _ => rfl) m s

@[simp] theorem State.genTimes_seeded (m : Nat) (s : State) : (s.genTimes m).rng.seeded = s.rng.seeded :=
  State.genTimes_keeps (fun s => s.rng.seeded) (fun s => Rng.normal_seeded s.par.ndraw s.rng) m s

@[simp] theorem Pool.store_cnt_pp (p : Pool) (cap : Nat) (v : Sample) :
    (p.store cap v).cnt.get p.pp = p.cnt.get p.pp + 1 := by
  simp

/-- Storing a sample keeps the memory's canonical form. -/
theorem Pool.store_wf {p : Pool} (cap : Nat) (v : Sample) (h : Mem.wf p.mem = true) :
    Mem.wf (p.store cap v).mem = true :=
  Mem.writeSample_wf _ _ h

/-- Generating keeps the memory's canonical form. -/
theorem State.genTimes_wf (m : Nat) (s : State) (h : Mem.wf s.pool.mem = true) :
    Mem.wf (s.genTimes m).pool.mem = true :=
  State.genTimes_preserves (fun s => Mem.wf s.pool.mem = true) (fun _ h => Pool.store_wf _ _ h) m s h

end Sys2Proof.Machine
end

