-- ==== Sys2Proof/Laws/Codec.lean ====
section
/-! SUPPORT. The encoding tables: field extraction, and the names the numbers stand for. -/

namespace Sys2Proof

/-- The low bits of a zero-extended field are the field. -/
@[simp] theorem extractLsb'_setWidth_low {w : Nat} (v : BitVec w) (n : Nat) (h : w ≤ n) :
    (v.setWidth n).extractLsb' 0 w = v := by
  apply BitVec.eq_of_getLsbD_eq
  intro i hi
  simp only [BitVec.getLsbD_extractLsb', BitVec.getLsbD_setWidth]
  simp [hi, show i < n by omega]

/-- The bits above a zero-extended field are 0. -/
theorem extractLsb'_setWidth_high {w : Nat} (v : BitVec w) (n lo len : Nat) (h : w ≤ lo) :
    (v.setWidth n).extractLsb' lo len = 0 := by
  apply BitVec.eq_of_getLsbD_eq
  intro i hi
  simp only [BitVec.getLsbD_extractLsb', BitVec.getLsbD_setWidth]
  simp [BitVec.getLsbD_of_ge v (lo + i) (by omega)]

@[simp] theorem Kind.ofNibble_code (k : Kind) : Kind.ofNibble k.code = some k := by
  cases k <;> rfl

@[simp] theorem Csr.ofNum_num (c : Csr) : Csr.ofNum c.num = some c := by
  cases c <;> first | rfl | (rename_i k; fin_cases k <;> rfl)

/-- Everything the command decoder can answer. -/
theorem decodeCmd_inv {c : Cmd} {i : Instr} (h : decodeCmd c = .ok i) :
    (c.op = 0x00 ∧ i = .nop) ∨ (c.op = 0x01 ∧ i = .rdcsr (c.a.extractLsb' 0 8)) ∨
      (c.op = 0x02 ∧ i = .wrcsr (c.a.extractLsb' 0 8) c.b) ∨ (c.op = 0x10 ∧ i = .seedx (c.a.extractLsb' 0 32)) ∨
      (c.op = 0x11 ∧ i = .seedp c.a c.b) ∨ (c.op = 0x12 ∧ i = .nextu) ∨ (c.op = 0x13 ∧ i = .nextn) ∨
      (c.op = 0x20 ∧ i = .stage (c.a.extractLsb' 0 8) c.b) ∨ (c.op = 0x21 ∧ i = .clip c.a) ∨
      (c.op = 0x22 ∧ i = .shape (c.a.extractLsb' 0 32)) ∨ (c.op = 0x30 ∧ i = .acq) ∨
      (c.op = 0x31 ∧ i = .put (c.a.extractLsb' 0 16)) ∨ (c.op = 0x32 ∧ i = .rel) ∨ (c.op = 0x33 ∧ i = .gen) ∨
      (c.op = 0x34 ∧ i = .fill) ∨ (c.op = 0x3F ∧ i = .start) := by
  unfold decodeCmd at h
  have e : ∀ n : Nat, c.op.toNat = n → c.op = BitVec.ofNat 8 n := fun n hn => by rw [← hn]; simp
  split at h
  all_goals first
    | (rename_i hn; have := e _ hn; injection h with h; subst h; simp [this])
    | cases h

/-- A word whose bits from `n` up are 0 is its own low `n` bits, zero-extended. -/
theorem setWidth_extractLsb'_low (a : Word) {n m : Nat} (hm : n + m = 64) (h0 : a.extractLsb' n m = 0) :
    (a.extractLsb' 0 n).setWidth 64 = a := by
  apply BitVec.eq_of_getLsbD_eq
  intro j hj
  simp only [BitVec.getLsbD_setWidth, BitVec.getLsbD_extractLsb']
  by_cases hjn : j < n
  · simp [hj, hjn]
  · have h := congrArg (fun v => BitVec.getLsbD v (j - n)) h0
    simp only [BitVec.getLsbD_extractLsb', show n + (j - n) = j by omega, show j - n < m by omega, decide_true,
      Bool.true_and] at h
    simp [hjn, h]

end Sys2Proof
end

