-- ==== Sys2Proof/Laws/Exec.lean ====
section
/-! SUPPORT. Everything an instruction, or a step of the generation loop, can do when it answers a next state.
Claims about all instructions go by cases on `Effect`, not by unfolding exec. -/

namespace Sys2Proof.Machine

/-- The next states of `exec i s`, one constructor per way an instruction can go. -/
inductive Effect (s : State) : Instr → State → Prop where
  | notReady (i : Instr) (hc : i.isCommand = true) (hr : s.cmdReady = false) : Effect s i s.noRsp
  | discarded (i : Instr) (hc : i.isCommand = true) (hr : s.cmdReady = true) (hh : s.halted = true) :
      Effect s i s.respondErr
  | faulted (i : Instr) (f : ErrCode) (hc : i.isCommand = true) (hr : s.cmdReady = true)
      (hh : s.halted = false) (hf : f ≠ .none) : Effect s i (s.takeFault f)
  | nop (hr : s.cmdReady = true) : Effect s .nop (s.respond 0)
  | rdcsr (n : BitVec 8) (c : Csr) (hr : s.cmdReady = true) (hn : Csr.ofNum n = some c)
      (hs : csrNeedsSeed c = true → s.rng.seeded = true) : Effect s (.rdcsr n) (s.respond (s.csrRead c))
  | wrcsr (n : BitVec 8) (v : Word) (c : Csr) (sh : Shaper) (hr : s.cmdReady = true) (hh : s.halted = false)
      (hn : Csr.ofNum n = some c) (hw : s.sh.csrWrite s.par.repr c v = some sh) :
      Effect s (.wrcsr n v) (State.respond { s with sh := sh } 0)
  | seedx (v : Half) (hr : s.cmdReady = true) (hh : s.halted = false) :
      Effect s (.seedx v) (State.respond { s with rng := s.rng.seedX v } 0)
  | seedp (a b : Word) (hr : s.cmdReady = true) (hh : s.halted = false) :
      Effect s (.seedp a b) (State.respond { s with rng := s.rng.seedP a b } 0)
  | nextu (hr : s.cmdReady = true) (hh : s.halted = false) (hs : s.rng.seeded = true) :
      Effect s .nextu (State.respond { s with rng := s.rng.draw.2 } (s.rng.draw.1.setWidth 64))
  | nextn (hr : s.cmdReady = true) (hh : s.halted = false) (hs : s.rng.seeded = true) :
      Effect s .nextn
        (State.respond { s with rng := (s.rng.normal s.par.ndraw).2 } (bits64 (s.rng.normal s.par.ndraw).1))
  | stage (k : BitVec 8) (j : Fin 4) (x : Word) (hr : s.cmdReady = true) (hh : s.halted = false)
      (hk : slotOf k = some j) :
      Effect s (.stage k x)
        (State.respond { s with sh := (s.sh.stage s.par.repr j (wordIn s.par.repr x)).2 }
          (s.sh.stage s.par.repr j (wordIn s.par.repr x)).1)
  | clip (x : Word) (hr : s.cmdReady = true) (hh : s.halted = false) :
      Effect s (.clip x) (s.respond (bits64 (clip s.par.repr s.sh.gain (wordIn s.par.repr x))))
  | shape (n : Half) (hr : s.cmdReady = true) (hh : s.halted = false) :
      Effect s (.shape n)
        (State.respond { s with sh := (s.sh.shape s.par.repr n.toInt).2 }
          (sampleRes (s.sh.shape s.par.repr n.toInt).1))
  | acq (hr : s.cmdReady = true) (hh : s.halted = false) (ho : s.pool.own.get s.pool.pp ≠ .acquired) :
      Effect s .acq s.acquireOrWait
  | put (v : Sample) (hr : s.cmdReady = true) (hh : s.halted = false)
      (ho : s.pool.own.get s.pool.pp = .acquired) (hf : s.full = false) (hc : s.canStore = true) :
      Effect s (.put v) (State.respond { s with pool := s.pool.store s.par.cap v } 0)
  | rel (hr : s.cmdReady = true) (hh : s.halted = false) (ho : s.pool.own.get s.pool.pp = .acquired)
      (hf : s.full = true) : Effect s .rel (State.respond { s with pool := s.pool.release s.par.nbuf } 0)
  | gen (hr : s.cmdReady = true) (hh : s.halted = false) (hs : s.rng.seeded = true)
      (ho : s.pool.own.get s.pool.pp = .acquired) (hf : s.full = false) (hc : s.canStore = true) :
      Effect s .gen (s.genBody.2.respond (sampleRes s.genBody.1))
  | fill (hr : s.cmdReady = true) (hh : s.halted = false) (hs : s.rng.seeded = true)
      (ho : s.pool.own.get s.pool.pp = .acquired) (hc : s.full = true ∨ s.canStore = true) :
      Effect s .fill
        ((s.genTimes (s.par.cap - (s.pool.cnt.get s.pool.pp).toNat)).respond
          (BitVec.ofNat 64 (s.par.cap - (s.pool.cnt.get s.pool.pp).toNat)))
  | start (hr : s.cmdReady = true) (hh : s.halted = false) (hs : s.rng.seeded = true)
      (ho : s.pool.own.get s.pool.pp ≠ .acquired) (hk : s.sinkOk = true) :
      Effect s .start { s with running := true, phase := .acquire, rsp := none }
  | cIdle : Effect s .cIdle (s.cRespond 0)
  | cTake (ho : s.pool.own.get s.pool.tp = .released) :
      Effect s .cTake
        (State.cRespond { s with pool := s.pool.take s.par.nbuf } (BitVec.ofNat 16 s.pool.tp.val))
  | cTakeStarved (ho : s.pool.own.get s.pool.tp ≠ .released) :
      Effect s .cTake (State.noCRsp { s with underrun := true })
  | cRead (idx : BitVec 2) (slot : Half) (v : Sample) (ha : s.readAccepted idx slot = true)
      (hv : Mem.readSample s.pool.mem (sampleAddr s.par.cap idx.toNat slot.toNat) = some v) :
      Effect s (.cRead idx slot) (s.cRespond v)
  | cReadNot (idx : BitVec 2) (slot : Half) (ha : s.readAccepted idx slot = false) :
      Effect s (.cRead idx slot) s.noCRsp
  | cReturn (ho : s.pool.own.get s.pool.rp = .inflight) :
      Effect s .cReturn (State.cRespond { s with pool := s.pool.giveBack s.par.nbuf } 0)
  | cReturnNot (ho : s.pool.own.get s.pool.rp ≠ .inflight) : Effect s .cReturn s.noCRsp

/-- The three ways a command other than NOP and RDCSR goes, the third being its own rule. -/
theorem command_effect {s t : State} {i : Instr} {body : State → Out} (hc : i.isCommand = true)
    (hb : s.cmdReady = true → s.halted = false → body s = .next t → Effect s i t)
    (h : command s body = .next t) : Effect s i t := by
  rcases command_next h with ⟨hr, rfl⟩ | ⟨hr, hh, rfl⟩ | ⟨⟨hr, hw, hh⟩, h⟩
  · exact .notReady i hc hr
  · exact .discarded i hc hr hh
  · exact hb ((State.cmdReady_iff s).mpr ⟨hr, hw⟩) hh h

/-- The seeding gate, then the command's own rule. -/
theorem seededOnly_effect {s t : State} {i : Instr} {body : State → Out} (hc : i.isCommand = true)
    (hr : s.cmdReady = true) (hh : s.halted = false)
    (hb : s.rng.seeded = true → body s = .next t → Effect s i t)
    (h : seededOnly s body = .next t) : Effect s i t := by
  unfold seededOnly at h
  split at h
  · next hs => exact hb hs h
  · injection h with h; subst h; exact .faulted i _ hc hr hh (by decide)

theorem next_inj {s t : State} (h : (Host.Outcome.next s : Out) = .next t) : s = t := by injection h

theorem execNop_effect {s t : State} (h : execNop s = .next t) : Effect s .nop t := by
  rcases systemCommand_next h with ⟨hr, rfl⟩ | ⟨hr, hw, h⟩
  · exact .notReady _ rfl hr
  · rw [← next_inj h]; exact .nop ((State.cmdReady_iff s).mpr ⟨hr, hw⟩)

theorem raiseFault_effect {s : State} {i : Instr} (f : ErrCode) (hf : f ≠ .none) (hc : i.isCommand = true)
    (hr : s.cmdReady = true) : Effect s i (s.raiseFault f) := by
  cases hh : s.halted
  · rw [raiseFault_running f hh]; exact .faulted i f hc hr hh hf
  · rw [raiseFault_halted f hh]; exact .discarded i hc hr hh

theorem execRdcsr_effect {n : BitVec 8} {s t : State} (h : execRdcsr n s = .next t) :
    Effect s (.rdcsr n) t := by
  rcases systemCommand_next h with ⟨hr, rfl⟩ | ⟨hr, hw, h⟩
  · exact .notReady _ rfl hr
  · have hr := (State.cmdReady_iff s).mpr ⟨hr, hw⟩
    revert h
    cases hn : Csr.ofNum n with
    | none => intro h; rw [← next_inj h]; exact raiseFault_effect _ (by decide) rfl hr
    | some c =>
      intro h
      simp only at h
      split at h
      · rw [← next_inj h]; exact raiseFault_effect _ (by decide) rfl hr
      · next hs => rw [← next_inj h]; exact .rdcsr n c hr hn (by simpa using hs)

theorem execWrcsr_effect {n : BitVec 8} {v : Word} {s t : State} (h : execWrcsr n v s = .next t) :
    Effect s (.wrcsr n v) t := by
  refine command_effect rfl (fun hr hh h => ?_) h
  revert h
  cases hn : Csr.ofNum n with
  | none => intro h; rw [← next_inj h]; exact .faulted _ _ rfl hr hh (by decide)
  | some c =>
    cases hw : s.sh.csrWrite s.par.repr c v with
    | none => intro h; simp only [hw] at h; rw [← next_inj h]; exact .faulted _ _ rfl hr hh (by decide)
    | some sh => intro h; simp only [hw] at h; rw [← next_inj h]; exact .wrcsr n v c sh hr hh hn hw

theorem execSeedx_effect {v : Half} {s t : State} (h : execSeedx v s = .next t) : Effect s (.seedx v) t :=
  command_effect rfl (fun hr hh h => by rw [← next_inj h]; exact .seedx v hr hh) h

theorem execSeedp_effect {a b : Word} {s t : State} (h : execSeedp a b s = .next t) : Effect s (.seedp a b) t :=
  command_effect rfl (fun hr hh h => by rw [← next_inj h]; exact .seedp a b hr hh) h

theorem execNextu_effect {s t : State} (h : execNextu s = .next t) : Effect s .nextu t :=
  command_effect rfl (fun hr hh h => seededOnly_effect rfl hr hh (fun hs h => by rw [← next_inj h]; exact .nextu hr hh hs) h) h

theorem execNextn_effect {s t : State} (h : execNextn s = .next t) : Effect s .nextn t :=
  command_effect rfl (fun hr hh h => seededOnly_effect rfl hr hh (fun hs h => by rw [← next_inj h]; exact .nextn hr hh hs) h) h

theorem execStage_effect {k : BitVec 8} {x : Word} {s t : State} (h : execStage k x s = .next t) :
    Effect s (.stage k x) t := by
  refine command_effect rfl (fun hr hh h => ?_) h
  revert h
  cases hk : slotOf k with
  | none => intro h; rw [← next_inj h]; exact .faulted _ _ rfl hr hh (by decide)
  | some j => intro h; rw [← next_inj h]; exact .stage k j x hr hh hk

theorem execClip_effect {x : Word} {s t : State} (h : execClip x s = .next t) : Effect s (.clip x) t :=
  command_effect rfl (fun hr hh h => by rw [← next_inj h]; exact .clip x hr hh) h

theorem execShape_effect {n : Half} {s t : State} (h : execShape n s = .next t) : Effect s (.shape n) t :=
  command_effect rfl (fun hr hh h => by rw [← next_inj h]; exact .shape n hr hh) h

theorem execAcq_effect {s t : State} (h : execAcq s = .next t) : Effect s .acq t := by
  refine command_effect rfl (fun hr hh h => ?_) h
  split at h
  · rw [← next_inj h]; exact .faulted _ _ rfl hr hh (by decide)
  · next ho => rw [← next_inj h]; exact .acq hr hh (by simpa using ho)

theorem execPut_effect {v : Sample} {s t : State} (h : execPut v s = .next t) : Effect s (.put v) t := by
  refine command_effect rfl (fun hr hh h => ?_) h
  split at h
  · rw [← next_inj h]; exact .faulted _ _ rfl hr hh (by decide)
  · next ho =>
    split at h
    · next hc =>
      rw [← next_inj h]
      simp only [Pool.hold_eq, Bool.or_eq_true, Bool.not_eq_true', beq_eq_false_iff_ne, not_or, ne_eq,
        not_not, Bool.not_eq_true] at ho
      exact .put v hr hh ho.1 ho.2 hc
    · cases h

theorem execRel_effect {s t : State} (h : execRel s = .next t) : Effect s .rel t := by
  refine command_effect rfl (fun hr hh h => ?_) h
  split at h
  · rw [← next_inj h]; exact .faulted _ _ rfl hr hh (by decide)
  · next ho =>
    rw [← next_inj h]
    simp only [Pool.hold_eq, Bool.or_eq_true, Bool.not_eq_true', beq_eq_false_iff_ne, not_or, ne_eq,
      not_not, Bool.not_eq_false] at ho
    exact .rel hr hh ho.1 ho.2

theorem execGen_effect {s t : State} (h : execGen s = .next t) : Effect s .gen t := by
  refine command_effect rfl (fun hr hh h => seededOnly_effect rfl hr hh (fun hs h => ?_) h) h
  split at h
  · rw [← next_inj h]; exact .faulted _ _ rfl hr hh (by decide)
  · next ho =>
    split at h
    · next hc =>
      rw [← next_inj h]
      simp only [Pool.hold_eq, Bool.or_eq_true, Bool.not_eq_true', beq_eq_false_iff_ne, not_or, ne_eq,
        not_not, Bool.not_eq_true] at ho
      exact .gen hr hh hs ho.1 ho.2 hc
    · cases h

theorem execFill_effect {s t : State} (h : execFill s = .next t) : Effect s .fill t := by
  refine command_effect rfl (fun hr hh h => seededOnly_effect rfl hr hh (fun hs h => ?_) h) h
  split at h
  · rw [← next_inj h]; exact .faulted _ _ rfl hr hh (by decide)
  · next ho =>
    split at h
    · next hc =>
      rw [← next_inj h]
      exact .fill hr hh hs (by simpa using ho) (by simpa using hc)
    · cases h

theorem execStart_effect {s t : State} (h : execStart s = .next t) : Effect s .start t := by
  refine command_effect rfl (fun hr hh h => seededOnly_effect rfl hr hh (fun hs h => ?_) h) h
  split at h
  · rw [← next_inj h]; exact .faulted _ _ rfl hr hh (by decide)
  · next ho =>
    split at h
    · rw [← next_inj h]; exact .faulted _ _ rfl hr hh (by decide)
    · next hk => rw [← next_inj h]; exact .start hr hh hs (by simpa using ho) (by simpa using hk)

theorem execCTake_effect {s t : State} (h : execCTake s = .next t) : Effect s .cTake t := by
  unfold execCTake at h
  split at h
  · next ho => rw [← next_inj h]; exact .cTake (by simpa [State.cAvail] using ho)
  · next ho => rw [← next_inj h]; exact .cTakeStarved (by simpa [State.cAvail] using ho)

theorem execCRead_effect {idx : BitVec 2} {slot : Half} {s t : State} (h : execCRead idx slot s = .next t) :
    Effect s (.cRead idx slot) t := by
  unfold execCRead at h
  split at h
  · next ha =>
    revert h
    cases hv : Mem.readSample s.pool.mem (sampleAddr s.par.cap idx.toNat slot.toNat) with
    | none => intro h; cases h
    | some v => intro h; rw [← next_inj h]; exact .cRead idx slot v ha hv
  · next ha => rw [← next_inj h]; exact .cReadNot idx slot (by simpa using ha)

theorem execCReturn_effect {s t : State} (h : execCReturn s = .next t) : Effect s .cReturn t := by
  unfold execCReturn at h
  split at h
  · next ho => rw [← next_inj h]; exact .cReturn (by simpa using ho)
  · next ho => rw [← next_inj h]; exact .cReturnNot (by simpa using ho)

/-- Whatever next state an instruction answers, it is one of the effects. -/
theorem exec_effect {i : Instr} {s t : State} (h : exec i s = .next t) : Effect s i t := by
  cases i with
  | nop => exact execNop_effect h
  | rdcsr n => exact execRdcsr_effect h
  | wrcsr n v => exact execWrcsr_effect h
  | seedx v => exact execSeedx_effect h
  | seedp a b => exact execSeedp_effect h
  | nextu => exact execNextu_effect h
  | nextn => exact execNextn_effect h
  | stage k x => exact execStage_effect h
  | clip x => exact execClip_effect h
  | shape n => exact execShape_effect h
  | acq => exact execAcq_effect h
  | put v => exact execPut_effect h
  | rel => exact execRel_effect h
  | gen => exact execGen_effect h
  | fill => exact execFill_effect h
  | start => exact execStart_effect h
  | cIdle => rw [← next_inj h]; exact .cIdle
  | cTake => exact execCTake_effect h
  | cRead idx slot => exact execCRead_effect h
  | cReturn => exact execCReturn_effect h

/-- Everything a command with an unassigned opcode does. -/
theorem execIllegal_next {s t : State} (h : execIllegal s = .next t) :
    (s.cmdReady = false ∧ t = s.noRsp) ∨ (s.cmdReady = true ∧ s.halted = true ∧ t = s.respondErr) ∨
      (s.cmdReady = true ∧ s.halted = false ∧ t = s.takeFault .illegalCmd) := by
  rcases command_next h with h | h | ⟨⟨hr, hw, hh⟩, h⟩
  · exact .inl h
  · exact .inr (.inl h)
  · exact .inr (.inr ⟨(State.cmdReady_iff s).mpr ⟨hr, hw⟩, hh, (next_inj h).symm⟩)

/-- Everything a step of START's loop can do. -/
theorem loopStep_next {s t : State} (h : loopStep s = .next t) :
    (s.phase = .acquire ∧ s.pool.own.get s.pool.pp = .free ∧
        t = { s with pool := s.pool.acquire, phase := .fill }) ∨
      (s.phase = .acquire ∧ s.pool.own.get s.pool.pp ≠ .free ∧ t = s) ∨
      (s.phase = .fill ∧ s.canStore = true ∧
        t = { s.genBody.2 with phase := if s.genBody.2.full then .release else .fill }) ∨
      (s.phase = .release ∧ t = { s with pool := s.pool.release s.par.nbuf, phase := .acquire }) := by
  unfold loopStep at h
  split at h
  · next hp =>
    split at h
    · next ho => exact .inl ⟨hp, by simpa using ho, (next_inj h).symm⟩
    · next ho => exact .inr (.inl ⟨hp, by simpa using ho, (next_inj h).symm⟩)
  · next hp =>
    split at h
    · next hc => exact .inr (.inr (.inl ⟨hp, hc, (next_inj h).symm⟩))
    · cases h
  · next hp => exact .inr (.inr (.inr ⟨hp, (next_inj h).symm⟩))

end Sys2Proof.Machine
end

