-- ==== Sys2Proof/Laws/Float.lean ====
section
/-! SUPPORT. What can be said of a NaN whose sign and payload are free, and where it ends (rule R200, rule R209). -/

namespace Sys2Proof.Machine

theorem nanBits_toNat (f : BitVec 23) :
    ((f.extractLsb' 22 1 ++ (0x1FF : BitVec 9) ++ f.extractLsb' 0 22 : Half)).toNat =
      (f.toNat / 2 ^ 22 % 2) * 2 ^ 31 + 0x1FF * 2 ^ 22 + f.toNat % 2 ^ 22 := by
  have h := Nat.mod_lt f.toNat (show 0 < 2 ^ 22 by decide)
  have e : (0x1FF : BitVec 9).toNat = 0x1FF := rfl
  rw [BitVec.toNat_append, BitVec.toNat_append, BitVec.extractLsb'_toNat, BitVec.extractLsb'_toNat, e,
    Nat.shiftRight_eq_div_pow, Nat.shiftRight_zero, pow_one, ← Nat.shiftLeft_add_eq_or_of_lt h,
    ← Nat.shiftLeft_add_eq_or_of_lt (show 0x1FF < 2 ^ 9 by decide), Nat.shiftLeft_eq, Nat.shiftLeft_eq]
  omega

/-- A NaN result is a NaN whatever its free bits are. -/
@[simp] theorem unpack_nanPattern (n : Nat) : unpack (nanPattern n) = .nan := by
  have h := nanBits_toNat (Config.nanFree n)
  have hex : ((nanPattern n).extractLsb' 23 8).toNat = 255 := by
    rw [nanPattern, BitVec.extractLsb'_toNat, h, Nat.shiftRight_eq_div_pow]; omega
  have hfr : ((nanPattern n).extractLsb' 0 23).toNat ≠ 0 := by
    rw [nanPattern, BitVec.extractLsb'_toNat, h, Nat.shiftRight_eq_div_pow]; omega
  unfold unpack
  simp only [hex, hfr, if_true, if_false]

@[simp] theorem isNan_nanPattern (n : Nat) : isNan (nanPattern n) = true := by
  simp [isNan]

/-- A NaN result is quiet, whatever its free bits are (rule R200). -/
theorem nanPattern_quiet (n : Nat) : (nanPattern n).getLsbD 22 = true := by
  have h := nanBits_toNat (Config.nanFree n)
  rw [BitVec.getLsbD, nanPattern, h, Nat.testBit_eq_decide_div_mod_eq, decide_eq_true_iff]
  omega

/-- The pattern of an infinity. -/
@[simp] theorem unpack_packBits_inf (neg : Bool) : unpack (packBits neg infMag) = .inf neg := by
  cases neg <;> decide

/-- A NaN that reaches the clip gives the sample 0 (rule R209). -/
@[simp] theorem fClip16_nanPattern (n : Nat) : fClip16 (nanPattern n) = 0 := by
  simp [fClip16]

/-- A NaN operand makes a NaN sum. -/
theorem fAdd_nan_left (n : Nat) {a : Half} (b : Half) (h : unpack a = .nan) : fAdd n a b = nanPattern n := by
  simp [fAdd, h]

theorem fAdd_nan_right (n : Nat) (a : Half) {b : Half} (h : unpack b = .nan) : fAdd n a b = nanPattern n := by
  unfold fAdd; rw [h]; split <;> simp_all

/-- A NaN scaled down is a NaN. -/
theorem fScaleDown_nan (n : Nat) {a : Half} (k : Nat) (h : unpack a = .nan) : fScaleDown n a k = nanPattern n := by
  simp [fScaleDown, h]

/-- An infinity scaled down is itself. -/
theorem fScaleDown_inf (n : Nat) {a : Half} {neg : Bool} (k : Nat) (h : unpack a = .inf neg) :
    fScaleDown n a k = packBits neg infMag := by
  simp [fScaleDown, h]

/-- A NaN operand makes a NaN product. -/
theorem fMul_nan_left (n : Nat) {a : Half} (b : Half) (h : unpack a = .nan) : fMul n a b = nanPattern n := by
  simp [fMul, h]

theorem fMul_nan_right (n : Nat) (a : Half) {b : Half} (h : unpack b = .nan) : fMul n a b = nanPattern n := by
  unfold fMul; rw [h]; split <;> simp_all

end Sys2Proof.Machine
end

