-- ==== Sys2Proof/Laws/PerInstr.lean ====
section
/-! SUPPORT. Families of statements about the instruction as syntax, one lemma per constructor. -/

namespace Sys2Proof.Laws

/-- The encoder writes canonical words: 0 in every operand bit the instruction ignores (rule R100). -/
def EncodeCanonical.Statement (i : Instr) : Prop := (encode i).canonical = true

namespace EncodeCanonical

theorem nop : Statement .nop := rfl

theorem rdcsr (n : BitVec 8) : Statement (.rdcsr n) := by
  simp [Statement, encode, PortWord.canonical, Cmd.canonical, extractLsb'_setWidth_high n 64 8 56 (le_refl _)]

theorem wrcsr (n : BitVec 8) (v : Word) : Statement (.wrcsr n v) := by
  simp [Statement, encode, PortWord.canonical, Cmd.canonical, extractLsb'_setWidth_high n 64 8 56 (le_refl _)]

theorem seedx (v : Half) : Statement (.seedx v) := by
  simp [Statement, encode, PortWord.canonical, Cmd.canonical, extractLsb'_setWidth_high v 64 32 32 (le_refl _)]

theorem seedp (st sq : Word) : Statement (.seedp st sq) := rfl

theorem nextu : Statement .nextu := rfl

theorem nextn : Statement .nextn := rfl

theorem stage (k : BitVec 8) (x : Word) : Statement (.stage k x) := by
  simp [Statement, encode, PortWord.canonical, Cmd.canonical, extractLsb'_setWidth_high k 64 8 56 (le_refl _)]

theorem clip (x : Word) : Statement (.clip x) := rfl

theorem shape (n : Half) : Statement (.shape n) := by
  simp [Statement, encode, PortWord.canonical, Cmd.canonical, extractLsb'_setWidth_high n 64 32 32 (le_refl _)]

theorem acq : Statement .acq := rfl

theorem put (v : Sample) : Statement (.put v) := by
  simp [Statement, encode, PortWord.canonical, Cmd.canonical, extractLsb'_setWidth_high v 64 16 48 (le_refl _)]

theorem rel : Statement .rel := rfl

theorem gen : Statement .gen := rfl

theorem fill : Statement .fill := rfl

theorem start : Statement .start := rfl

theorem cIdle : Statement .cIdle := rfl

theorem cTake : Statement .cTake := rfl

theorem cRead (idx : BitVec 2) (slot : Half) : Statement (.cRead idx slot) := rfl

theorem cReturn : Statement .cReturn := rfl

end EncodeCanonical

end Sys2Proof.Laws
end

