-- ==== Sys2Proof/Laws/Ring.lean ====
section
/-! SUPPORT. The ring of buffers (rule R50): each ownership transfer moves exactly one of the three run lengths. -/

namespace Sys2Proof.Machine

theorem ringAt_val {n : Nat} (h0 : 0 < n) (h4 : n ≤ 4) (i : Fin 4) (j : Nat) : (ringAt n i j).val = (i.val + j) % n := by
  have := Nat.mod_lt (i.val + j) h0
  simp only [ringAt, Fin.ofNat]
  omega

/-- Places of the ring less than a turn apart are different buffers. -/
theorem ringAt_inj {n : Nat} (h0 : 0 < n) (h4 : n ≤ 4) {i : Fin 4} (hi : i.val < n) {j k : Nat} (hj : j < n)
    (hk : k < n) : ringAt n i j = ringAt n i k ↔ j = k := by
  rw [Fin.ext_iff, ringAt_val h0 h4, ringAt_val h0 h4]
  refine ⟨fun h => ?_, fun h => by rw [h]⟩
  have e : ∀ x, x < n → (i.val + x) % n = if i.val + x < n then i.val + x else i.val + x - n := by
    intro x hx
    split
    · next h => exact Nat.mod_eq_of_lt h
    · next h => rw [Nat.mod_eq_sub_mod (by omega), Nat.mod_eq_of_lt (by omega)]
  rw [e j hj, e k hk] at h
  split at h <;> split at h <;> omega

/-- One place further round the ring. -/
theorem ringNext_ringAt {n : Nat} (h0 : 0 < n) (h4 : n ≤ 4) (i : Fin 4) (j : Nat) :
    ringNext n (ringAt n i j) = ringAt n i (j + 1) := by
  simp only [ringNext, ringAt_val h0 h4, Nat.mod_add_mod]
  rfl

/-- A whole turn. -/
theorem ringAt_turn {n : Nat} (i : Fin 4) : ringAt n i n = ringAt n i 0 := by
  simp [ringAt]

theorem ringAt_zero {n : Nat} {i : Fin 4} (hi : i.val < n) : ringAt n i 0 = i := by
  simp [ringAt, Nat.mod_eq_of_lt hi]

/-- Setting one place of the ring. -/
theorem ring_set {n : Nat} (h0 : 0 < n) (h4 : n ≤ 4) {i : Fin 4} (hi : i.val < n) (own : Quad Own) (v : Own) {k : Nat}
    (hk : k < n) {j : Nat} (hj : j < n) :
    (own.set (ringAt n i k) v).get (ringAt n i j) = if j = k then v else own.get (ringAt n i j) := by
  rw [Quad.get_set]
  simp only [ringAt_inj h0 h4 hi hj hk]

variable {n f r h : Nat} {p : Pool}

theorem Pool.RingIs.own_tp (hr : p.RingIs n f r h) (h0 : 0 < n) (h4 : n ≤ 4) :
    p.own.get p.tp = if f < n then ringOwn f r h f else .inflight := by
  obtain ⟨hs, hh, hrp, ht, hp, hown⟩ := hr
  rw [ht]
  split
  · next hf => exact hown f hf
  · next hf =>
    have : f = n := by omega
    subst this
    rw [ringAt_turn, hown 0 h0]
    simp [ringOwn, h0]

theorem Pool.RingIs.own_pp (hr : p.RingIs n f r h) (h0 : 0 < n) (h4 : n ≤ 4) :
    p.own.get p.pp = if f + r < n then (if h = 1 then .acquired else .free) else if f = 0 then .released else .inflight := by
  obtain ⟨hs, hh, hrp, ht, hp, hown⟩ := hr
  rw [hp]
  split
  · next hf =>
    rw [hown _ hf, ringOwn]
    have : h = 0 ∨ h = 1 := by omega
    rcases this with rfl | rfl <;> simp
  · next hf =>
    have e : f + r = n := by omega
    rw [e, ringAt_turn, hown 0 h0]
    simp only [ringOwn]
    split_ifs <;> first | rfl | omega

theorem Pool.RingIs.own_rp (hr : p.RingIs n f r h) (h0 : 0 < n) : p.own.get p.rp = ringOwn f r h 0 := by
  obtain ⟨hs, hh, hrp, ht, hp, hown⟩ := hr
  rw [← hown 0 h0, ringAt_zero hrp]

/-- FREE to ACQUIRED at PP. -/
theorem Pool.RingIs.acquire (hr : p.RingIs n f r h) (h0 : 0 < n) (h4 : n ≤ 4) (ho : p.own.get p.pp = .free) :
    h = 0 ∧ p.acquire.RingIs n f r 1 := by
  have hq := hr.own_pp h0 h4
  obtain ⟨hs, hh, hrp, ht, hp, hown⟩ := hr
  rw [ho] at hq
  have hlt : f + r < n := by
    by_contra hc
    rw [if_neg hc] at hq; split at hq <;> cases hq
  rw [if_pos hlt] at hq
  have hz : h = 0 := by
    by_contra hc
    rw [if_pos (by omega)] at hq; cases hq
  subst hz
  refine ⟨rfl, by omega, le_refl _, hrp, ht, hp, fun j hj => ?_⟩
  rw [Pool.acquire_own, Pool.acquire_rp, hp, ring_set h0 h4 hrp _ _ hlt hj, hown j hj]
  simp only [ringOwn]
  split_ifs <;> first | rfl | omega

/-- ACQUIRED to RELEASED at PP. -/
theorem Pool.RingIs.release (hr : p.RingIs n f r h) (h0 : 0 < n) (h4 : n ≤ 4) (ho : p.own.get p.pp = .acquired) :
    h = 1 ∧ (Pool.release n p).RingIs n f (r + 1) 0 := by
  have hq := hr.own_pp h0 h4
  obtain ⟨hs, hh, hrp, ht, hp, hown⟩ := hr
  rw [ho] at hq
  have hlt : f + r < n := by
    by_contra hc
    rw [if_neg hc] at hq; split at hq <;> cases hq
  rw [if_pos hlt] at hq
  have hz : h = 1 := by
    by_contra hc
    rw [if_neg hc] at hq; cases hq
  subst hz
  refine ⟨rfl, by omega, by omega, hrp, ht, ?_, fun j hj => ?_⟩
  · rw [Pool.release_pp, Pool.release_rp, hp, ringNext_ringAt h0 h4]; rfl
  · rw [Pool.release_own, Pool.release_rp, hp, ring_set h0 h4 hrp _ _ hlt hj, hown j hj]
    simp only [ringOwn]
    split_ifs <;> first | rfl | omega

/-- RELEASED to INFLIGHT at TP. -/
theorem Pool.RingIs.take (hr : p.RingIs n f r h) (h0 : 0 < n) (h4 : n ≤ 4) (ho : p.own.get p.tp = .released) :
    1 ≤ r ∧ (Pool.take n p).RingIs n (f + 1) (r - 1) h := by
  have hq := hr.own_tp h0 h4
  obtain ⟨hs, hh, hrp, ht, hp, hown⟩ := hr
  rw [ho] at hq
  have hlt : f < n := by
    by_contra hc
    rw [if_neg hc] at hq; cases hq
  rw [if_pos hlt] at hq
  have hz : 1 ≤ r := by
    by_contra hc
    simp only [ringOwn] at hq
    split_ifs at hq
    all_goals omega
  refine ⟨hz, by omega, hh, hrp, ?_, ?_, fun j hj => ?_⟩
  · rw [Pool.take_tp, Pool.take_rp, ht, ringNext_ringAt h0 h4]
  · rw [Pool.take_pp, Pool.take_rp, hp]; congr 1; omega
  · rw [Pool.take_own, Pool.take_rp, ht, ring_set h0 h4 hrp _ _ hlt hj, hown j hj]
    simp only [ringOwn]
    split_ifs <;> first | rfl | omega

/-- INFLIGHT to FREE at RP. -/
theorem Pool.RingIs.giveBack (hr : p.RingIs n f r h) (h0 : 0 < n) (h4 : n ≤ 4) (ho : p.own.get p.rp = .inflight) :
    1 ≤ f ∧ (Pool.giveBack n p).RingIs n (f - 1) r h := by
  have hq := hr.own_rp h0
  obtain ⟨hs, hh, hrp, ht, hp, hown⟩ := hr
  rw [ho] at hq
  have hz : 1 ≤ f := by
    by_contra hc
    simp only [ringOwn] at hq
    split_ifs at hq
    all_goals omega
  have hstep : ∀ j, ringAt n (ringNext n p.rp) j = ringAt n p.rp (j + 1) := by
    intro j
    have e : ringNext n p.rp = ringAt n p.rp 1 := by
      conv_lhs => rw [← ringAt_zero hrp]
      exact ringNext_ringAt h0 h4 _ 0
    rw [e, Fin.ext_iff, ringAt_val h0 h4, ringAt_val h0 h4, ringAt_val h0 h4, Nat.mod_add_mod]
    congr 1; omega
  refine ⟨hz, by omega, hh, ringNext_lt h0 h4 _, ?_, ?_, fun j hj => ?_⟩
  · rw [Pool.giveBack_tp, Pool.giveBack_rp, hstep, ht]; congr 1; omega
  · rw [Pool.giveBack_pp, Pool.giveBack_rp, hstep, hp]; congr 1; omega
  · rw [Pool.giveBack_own, Pool.giveBack_rp, hstep]
    have hset : ∀ k (hk : k < n), (p.own.set p.rp .free).get (ringAt n p.rp k) = if k = 0 then .free else ringOwn f r h k := by
      intro k hk
      have := ring_set h0 h4 hrp p.own .free h0 hk
      rw [ringAt_zero hrp] at this
      rw [this, hown k hk]
    by_cases hj1 : j + 1 = n
    · rw [hj1, ringAt_turn, hset 0 h0]
      simp only [ringOwn]
      split_ifs <;> first | rfl | omega
    · rw [hset (j + 1) (by omega)]
      simp only [ringOwn]
      split_ifs <;> first | rfl | omega

end Sys2Proof.Machine
end

