-- ==== Sys2Proof/Laws/Step.lean ====
section
/-! SUPPORT. The step, case by case of what comes next. -/

namespace Sys2Proof.Machine

theorem step_legal {s : State} (h : s.par.wf = true) : step s = stepLegal s := by simp [step, h]

theorem step_illegal {s : State} (h : s.par.wf = false) : step s = .refused .badParams := by simp [step, h]

/-- Everything a step can be: refused, the next input, or the producer's own step. -/
theorem step_cases (s : State) :
    (s.par.wf = false ∧ step s = .refused .badParams) ∨
      (s.par.wf = true ∧ s.inputs = [] ∧ step s = producerStep s.afterInput) ∨
      (s.par.wf = true ∧ ∃ e rest, s.inputs = e :: rest ∧ step s = perform e s.afterInput) := by
  cases hp : s.par.wf
  · exact .inl ⟨rfl, step_illegal hp⟩
  · rw [step_legal hp, stepLegal]
    cases hi : s.inputs with
    | nil => exact .inr (.inl ⟨rfl, rfl, rfl⟩)
    | cons e rest => exact .inr (.inr ⟨rfl, e, rest, rfl, rfl⟩)

/-- Everything a step that answers a next state can have been (one line per cause). -/
theorem perform_next {e : Input} {s t : State} (h : perform e s = .next t) :
    (∃ w i, e = .port w ∧ decode w = .ok i ∧ exec i s = .next t) ∨
      (∃ w d, e = .port w ∧ decode w = .error d ∧ execIllegal s = .next t) ∨
      (e = .producer ∧ producerStep s = .next t) ∨
      (∃ ok, e = .sinkPin ok ∧ t = { s with sinkOk := ok }) ∨
      (e = .rstPulse ∧ t = s.applyReset) := by
  cases e with
  | port w =>
    simp only [perform] at h
    split at h
    · next i hi => exact .inl ⟨w, i, rfl, hi, h⟩
    · next d hd => exact .inr (.inl ⟨w, d, rfl, hd, h⟩)
  | producer => exact .inr (.inr (.inl ⟨rfl, h⟩))
  | sinkPin ok => exact .inr (.inr (.inr (.inl ⟨ok, rfl, by injection h with h; exact h.symm⟩)))
  | rstPulse => exact .inr (.inr (.inr (.inr ⟨rfl, by injection h with h; exact h.symm⟩)))

/-- Everything a step of the producer's own can be. -/
theorem producerStep_cases (s : State) :
    (s.running = true ∧ producerStep s = loopStep s) ∨
      (s.running = false ∧ s.waiting = true ∧ producerStep s = .next s.acquireOrWait) ∨
      (s.running = false ∧ s.waiting = false ∧ producerStep s = .next s) := by
  cases hr : s.running <;> cases hw : s.waiting <;> simp [producerStep, hr, hw]

end Sys2Proof.Machine
end

