-- ==== Sys2Proof/Machine/Asm.lean ====
section
/-! DEFINITION. The text form of a command, one per line, and the pseudo-instructions in it (`30_encoding.md` rule
R109, rule R110). `asmLine` gives the port word of a line, or nothing where the line is not of that form. -/

namespace Sys2Proof.Machine

/-- What stands before the comment that `;` starts. -/
def dropComment (l : List Char) : List Char := l.takeWhile (· ≠ ';')

/-- The words of a line: runs of characters between spaces, `,` and `:` being words of their own. -/
def lineWords (acc : List Char) (l : List Char) : List (List Char) :=
  let flush : List (List Char) := if acc.isEmpty then [] else [acc.reverse]
  match l with
  | [] => flush
  | c :: rest =>
    if c = ' ' then flush ++ lineWords [] rest
    else if c = ',' || c = ':' then flush ++ [c] :: lineWords [] rest
    else lineWords (c :: acc) rest

/-- The value of a digit character, below the base. -/
def digitVal (base : Nat) (c : Char) : Option Nat :=
  let n := c.toNat
  let v :=
    if 48 ≤ n ∧ n ≤ 57 then n - 48
    else if 65 ≤ n ∧ n ≤ 70 then n - 55
    else if 97 ≤ n ∧ n ≤ 102 then n - 87
    else 99
  if v < base then some v else none

/-- The value of a run of digits after `acc`. -/
def digitsVal (base acc : Nat) (l : List Char) : Option Nat :=
  match l with
  | [] => some acc
  | c :: rest =>
    match digitVal base c with
    | some v => digitsVal base (acc * base + v) rest
    | none => none

/-- A u64 value that fits its port; larger numerals are no operand (log entry 14). -/
def fit64 (v : Nat) : Option Nat := if v < 2 ^ 64 then some v else none

/-- An operand: decimal, decimal after `-` standing for `wrap_64(-v)`, or hexadecimal after `0x`; or a kind's
name, which stands for its code (rule R109, rule R110). -/
def operandVal (w : List Char) : Option Nat :=
  if w = "NONE".toList then some 0
  else if w = "INTEG".toList then some 1
  else if w = "LPF".toList then some 2
  else if w = "HPF".toList then some 3
  else
    match w with
    | '0' :: 'x' :: d :: ds => (digitsVal 16 0 (d :: ds)).bind fit64
    | '-' :: d :: ds => (digitsVal 10 0 (d :: ds)).bind fit64 |>.map fun v => (2 ^ 64 - v) % 2 ^ 64
    | d :: ds => (digitsVal 10 0 (d :: ds)).bind fit64
    | [] => none

/-- Operands separated by single commas. -/
def operandVals (ws : List (List Char)) : Option (List Nat) :=
  match ws with
  | [] => some []
  | [w] => (operandVal w).map fun v => [v]
  | w :: c :: rest =>
    if c = [','] ∧ rest ≠ [] then
      match operandVal w, operandVals rest with
      | some v, some vs => some (v :: vs)
      | _, _ => none
    else none

/-- The command `op a, b`, each operand modulo 2^64. Only a pseudo-instruction's sum (`0x10 + k`, `0x20 + k`,
`0x30 + k`, the CHAIN sum of rule R110) can be 2^64 or more, as in `WRCOEF -1, v`; the spec is silent there and
the carry is dropped (DESIGN CHOICE, log entry 14). -/
def asmCmd (op a b : Nat) : Option PortWord :=
  some (.cmd ⟨BitVec.ofNat 8 op, BitVec.ofNat 64 a, BitVec.ofNat 64 b⟩)

/-- The mnemonic with its operands, as many as its format has (rule R100, rule R102, rule R104, rule R110). The spec says nothing of
a `C_READ idx, slot` whose operand does not fit its port (`idx` of 4 or more, `slot` of 2^32 or more, as -1 is
after wrap_64): the line gives no port word (DESIGN CHOICE, log entry 14). -/
def asmOp (m : List Char) (vs : List Nat) : Option PortWord :=
  match String.ofList m, vs with
  | "NOP", [] => asmCmd 0x00 0 0
  | "RDCSR", [a] => asmCmd 0x01 a 0
  | "WRCSR", [a, b] => asmCmd 0x02 a b
  | "SEEDX", [a] => asmCmd 0x10 a 0
  | "SEEDP", [a, b] => asmCmd 0x11 a b
  | "NEXTU", [] => asmCmd 0x12 0 0
  | "NEXTN", [] => asmCmd 0x13 0 0
  | "STAGE", [a, b] => asmCmd 0x20 a b
  | "CLIP", [a] => asmCmd 0x21 a 0
  | "SHAPE", [a] => asmCmd 0x22 a 0
  | "ACQ", [] => asmCmd 0x30 0 0
  | "PUT", [a] => asmCmd 0x31 a 0
  | "REL", [] => asmCmd 0x32 0 0
  | "GEN", [] => asmCmd 0x33 0 0
  | "FILL", [] => asmCmd 0x34 0 0
  | "START", [] => asmCmd 0x3F 0 0
  | "C_IDLE", [] => some (.cons ⟨0, 0, 0⟩)
  | "C_TAKE", [] => some (.cons ⟨1, 0, 0⟩)
  | "C_READ", [i, s] =>
    if i < 4 ∧ s < 2 ^ 32 then some (.cons ⟨2, BitVec.ofNat 2 i, BitVec.ofNat 32 s⟩) else none
  | "C_RETURN", [] => some (.cons ⟨3, 0, 0⟩)
  | "RDSTAT", [] => asmCmd 0x01 0x00 0
  | "RDPARAM", [] => asmCmd 0x01 0x01 0
  | "WRCHAIN", [k0, k1, k2, k3] => asmCmd 0x02 0x02 (k0 + 16 * k1 + 256 * k2 + 4096 * k3)
  | "WRGAIN", [v] => asmCmd 0x02 0x03 v
  | "WRCOEF", [k, v] => asmCmd 0x02 (0x10 + k) v
  | "WRS", [k, v] => asmCmd 0x02 (0x20 + k) v
  | "WRP", [k, v] => asmCmd 0x02 (0x30 + k) v
  | "RDCOEF", [k] => asmCmd 0x01 (0x10 + k) 0
  | "RDS", [k] => asmCmd 0x01 (0x20 + k) 0
  | "RDP", [k] => asmCmd 0x01 (0x30 + k) 0
  | "WHITE", [] => asmCmd 0x02 0x02 0x0000
  | "BROWN", [] => asmCmd 0x02 0x02 0x0021
  | "PINK", [] => asmCmd 0x02 0x02 0x0023
  | _, _ => none

/-- A word of the host's port. -/
def PortWord.isCmd (w : PortWord) : Bool :=
  match w with
  | .cmd _ => true
  | .cons _ => false

/-- One line: an optional agent `H:` or `C:`, which must be the operation's own, then the operation (rule R109). -/
def asmLine (line : String) : Option PortWord :=
  match lineWords [] (dropComment line.toList) with
  | ['H'] :: [':'] :: m :: ws => ((operandVals ws).bind (asmOp m)).filter PortWord.isCmd
  | ['C'] :: [':'] :: m :: ws => ((operandVals ws).bind (asmOp m)).filter fun w => !PortWord.isCmd w
  | m :: ws => (operandVals ws).bind (asmOp m)
  | [] => none

end Sys2Proof.Machine
end

