-- ==== Sys2Proof/Tests/Slice0.lean ====
section
/-! SUPPORT. Small tests. Expected values are those of spec/95_test_vectors.md or of the examples inside the rules
named; nothing here is the model's own answer. Then one witness for the hypotheses of each obligation that has
any. -/

namespace Sys2Proof.Tests

open Sys2Proof Sys2Proof.Machine

/-! ## Helpers -/

/-- The outcome is a next state with property `p`. -/
def nextIs (o : Out) (p : State → Bool) : Bool :=
  match o with
  | .next t => p t
  | .fault _ => false
  | .refused _ => false

/-- The result on the response port, and that the command did not fault. -/
def res (t : State) (v : Word) : Bool := t.rsp == some ⟨v, false⟩

/-- The command faulted with code `e`. -/
def faulted (t : State) (e : ErrCode) : Bool := t.halted && t.err == e && t.rsp == some ⟨0, true⟩

/-- The reset state of the default instance: the state before the vectors of spec/95. -/
def r0 : State := State.reset

/-- After `SEEDX 0x32B71700`. -/
def seeded : State := { r0 with rng := { r0.rng with seeded := true, xs := 0x32B71700 } }

/-- After `SEEDP 42, 54` (rule R134). -/
def seededP : State :=
  { r0 with rng := { r0.rng with seeded := true, alg := .pcg32, pst := 0x185706B82C2E03F8, pinc := 0x6D } }

/-- Seeded with buffer 0 held, `n` samples 0x1234 in it. -/
def holding (n : Nat) : State :=
  { seeded with
    pool :=
      { seeded.pool with
        own := ⟨.acquired, .free, .free, .free⟩
        cnt := ⟨BitVec.ofNat 32 n, 0, 0, 0⟩
        mem := (List.range (2 * n)).map fun a => (a, if a % 2 = 0 then 0x34 else 0x12) } }

/-- The pool of spec/95 section 2.10 before its step 1: buffer 0 released with four samples. -/
def releasedPool : Pool :=
  { r0.pool with
    own := ⟨.released, .free, .free, .free⟩
    cnt := ⟨4, 0, 0, 0⟩
    pp := 1
    mem := [(0, 0x66), (1, 0xFE), (2, 0x34), (3, 0x12), (4, 0xD7), (5, 0xEF), (6, 0x43), (7, 0x00)] }

def released : State := { seeded with pool := releasedPool }

/-- The same after its C_TAKE. -/
def inflight : State :=
  { seeded with pool := { releasedPool with own := ⟨.inflight, .free, .free, .free⟩, tp := 1 } }

/-- The reset state of a FLOAT instance. -/
def f0 : State := State.resetOf { Config.instanceParams with repr := .float }

/-- `s` with slot 0 of the given kind, coefficient, S and P. -/
def slot0 (s : State) (k : Kind) (c : Half) (a p : Word) : State :=
  { s with
    sh :=
      { s.sh with
        chain := s.sh.chain.set 0 k
        coef := s.sh.coef.set 0 c
        acc := s.sh.acc.set 0 a
        prev := s.sh.prev.set 0 p } }

def gained (s : State) (g : Half) : State := { s with sh := { s.sh with gain := g } }

/-- A next state with the property. -/
theorem nextIs_exists {o : Out} {p : State → Bool} (h : nextIs o p = true) : ∃ t, o = .next t ∧ p t = true := by
  cases o with
  | next t => exact ⟨t, rfl, h⟩
  | fault _ => cases h
  | refused _ => cases h

/-! ## WellFormed: what each check refuses -/

def p0 : Params := Config.instanceParams

theorem test_wf_params : p0.wf = true ∧ Params.wf { p0 with nbuf := 4, ndraw := 5, repr := .float } = true := by
  decide

theorem test_wf_nbuf : Params.wf { p0 with nbuf := 2 } = false ∧ Params.wf { p0 with nbuf := 5 } = false := by decide

theorem test_wf_cap : Params.wf { p0 with cap := 0 } = false ∧ Params.wf { p0 with cap := 4294967296 } = false := by
  decide

theorem test_wf_ndraw : Params.wf { p0 with ndraw := 4 } = false ∧ Params.wf { p0 with ndraw := 7 } = false := by
  decide

theorem test_wf_fs : Params.wf { p0 with fs := 0 } = false := by decide

theorem test_wf_rdcsr : Instr.wf p0 (.rdcsr 0x07) = false ∧ Instr.wf p0 (.rdcsr 0x06) = true := by decide

theorem test_wf_wrcsr_undefined : Instr.wf p0 (.wrcsr 0x14 0) = false := by decide

theorem test_wf_wrcsr_readonly : Instr.wf p0 (.wrcsr 0x06 0) = false := by decide

theorem test_wf_wrcsr_kind : Instr.wf p0 (.wrcsr 0x02 0x0041) = false ∧ Instr.wf p0 (.wrcsr 0x02 0x0021) = true := by
  decide

theorem test_wf_stage : Instr.wf p0 (.stage 4 0) = false ∧ Instr.wf p0 (.stage 3 0) = true := by decide

theorem test_wf_cread : Instr.wf p0 (.cRead 3 0) = false ∧ Instr.wf p0 (.cRead 0 4) = false ∧
    Instr.wf p0 (.cRead 2 3) = true := by decide

theorem test_step_refuses_bad_params :
    (match step { r0 with par := { p0 with nbuf := 2 } } with
      | .refused .badParams => true
      | _ => false) = true := by decide

/-! ## Decoding: the words of spec/95 sections 2.8 and 3, and rule R104's table, one per constructor -/

theorem test_decode_nop : decode (.cmd ⟨0x00, 0x0000000000000000, 0x0000000000000000⟩) = .ok .nop := by decide
theorem test_decode_rdcsr : decode (.cmd ⟨0x01, 0xFFFFFFFFFFFFFF10, 0x123456789ABCDEF0⟩) = .ok (.rdcsr 0x10) := by decide
theorem test_decode_wrcsr : decode (.cmd ⟨0x02, 0x0000000000000021, 0x000001F400000000⟩) =
    .ok (.wrcsr 0x21 0x000001F400000000) := by decide
theorem test_decode_seedx : decode (.cmd ⟨0x10, 0xFFFFFFFF32B71700, 0x0000000000000000⟩) = .ok (.seedx 0x32B71700) := by decide
theorem test_decode_seedp : decode (.cmd ⟨0x11, 0x000000000000002A, 0x0000000000000036⟩) = .ok (.seedp 42 54) := by decide
theorem test_decode_nextu : decode (.cmd ⟨0x12, 0xFFFFFFFFFFFFFFFF, 0xFFFFFFFFFFFFFFFF⟩) = .ok .nextu := by decide
theorem test_decode_nextn : decode (.cmd ⟨0x13, 0, 0⟩) = .ok .nextn := by decide
theorem test_decode_stage : decode (.cmd ⟨0x20, 0x0000000000000101, 0x000001F400000000⟩) =
    .ok (.stage 1 0x000001F400000000) := by decide
theorem test_decode_clip : decode (.cmd ⟨0x21, 0x0000003200000000, 0⟩) = .ok (.clip 0x0000003200000000) := by decide
theorem test_decode_shape : decode (.cmd ⟨0x22, 0x00000000FFFFFCCC, 0⟩) = .ok (.shape 0xFFFFFCCC) := by decide
theorem test_decode_acq : decode (.cmd ⟨0x30, 0, 0⟩) = .ok .acq := by decide
theorem test_decode_put : decode (.cmd ⟨0x31, 0x0000000000018000, 0⟩) = .ok (.put 0x8000) := by decide
theorem test_decode_rel : decode (.cmd ⟨0x32, 0, 0⟩) = .ok .rel := by decide
theorem test_decode_gen : decode (.cmd ⟨0x33, 0, 0⟩) = .ok .gen := by decide
theorem test_decode_fill : decode (.cmd ⟨0x34, 0, 0⟩) = .ok .fill := by decide
theorem test_decode_start : decode (.cmd ⟨0x3F, 0, 0⟩) = .ok .start := by decide
theorem test_decode_cidle : decode (.cons ⟨0, 1, 2⟩) = .ok .cIdle := by decide
theorem test_decode_ctake : decode (.cons ⟨1, 3, 0⟩) = .ok .cTake := by decide
theorem test_decode_cread : decode (.cons ⟨2, 1, 3⟩) = .ok (.cRead 1 3) := by decide
theorem test_decode_creturn : decode (.cons ⟨3, 0, 0⟩) = .ok .cReturn := by decide

/-- Rule R106: one opcode from each gap of the map. -/
theorem test_decode_illegal :
    ([0x03, 0x0F, 0x14, 0x23, 0x2F, 0x35, 0x3E, 0x40, 0xFF] : List (BitVec 8)).all
      (fun op => decode (.cmd ⟨op, 0, 0⟩) == .error (.illegalCmd op)) = true := by decide

/-- The 136-bit words of rule R100, `op` in bits 135 to 128, `a` in bits 127 to 64. -/
theorem test_decode_wide : decodeTableWord 136 0x11000000000000002A0000000000000036 = some (.seedp 42 54) := by
  decide +kernel

/-- opcode_table.json's rows: `cmd_op` in a byte, `c_op` in two bits; C_RETURN's 3 in a byte (log entry 3). -/
theorem test_decode_table_rows :
    decodeTableWord 8 0x3F = some .start ∧ decodeTableWord 2 1 = some .cTake ∧ decodeTableWord 8 3 = some .cReturn ∧
      decodeTableWord 8 0x40 = none := by decide

theorem test_encode_put : encode (.put 0xFE66) = .cmd ⟨0x31, 0x000000000000FE66, 0⟩ := by decide

/-! ## System commands (spec/95 section 2.8) -/

theorem test_nop : nextIs (exec .nop r0) (fun t => res t 0 && t.status == 0) = true := by decide
theorem test_rdcsr_param : nextIs (exec (.rdcsr 0x01) r0) (fun t => res t 0x0000000400000643) = true := by decide

theorem test_wrcsr_chain : nextIs (exec (.wrcsr 0x02 0xABCD0023) r0)
    (fun t => res t 0 && t.sh.chainReg == 0x0023) = true := by decide
theorem test_wrcsr_bad_nibble : nextIs (exec (.wrcsr 0x02 0x0041) r0)
    (fun t => faulted t .badOperand && t.sh.chainReg == 0 && t.status == 0x28) = true := by decide
theorem test_illegal : nextIs (step { r0 with inputs := [.port (.cmd ⟨0x03, 0, 0⟩)] })
    (fun t => faulted t .illegalCmd && t.status == 0x18) = true := by decide

/-- Program P6 a: halted, SEEDX is discarded, a faulting RDCSR keeps the first code, NOP works. -/
def haltedP6a : State := { r0 with halted := true, err := .notSeeded }

theorem test_halted_seedx : nextIs (exec (.seedx 5) haltedP6a)
    (fun t => t.rsp == some ⟨0, true⟩ && t.status == 0x38) = true := by decide
theorem test_halted_rdcsr : nextIs (exec (.rdcsr 0x04) haltedP6a)
    (fun t => t.rsp == some ⟨0, true⟩ && t.err == .notSeeded) = true := by decide

/-! ## RandomSampler (spec/95 sections 2.1 to 2.3) -/

theorem test_seedx : nextIs (exec (.seedx 0) r0) (fun t => res t 0 && t.status == 0x201) = true := by decide
theorem test_seedp : nextIs (exec (.seedp 42 54) r0)
    (fun t => t.rng.pst == 0x185706B82C2E03F8 && t.rng.pinc == 0x6D && t.status == 0x03) = true := by decide
theorem test_seedp_bit63 : nextIs (exec (.seedp 0x32B71700 0x8000000000000000) r0)
    (fun t => t.rng.pst == 0x1A98F7C36E2D8A2E && t.rng.pinc == 1) = true := by decide
theorem test_nextu_xs : nextIs (exec .nextu seeded) (fun t => res t 0xDAB89A4B && t.rng.xs == 0xDAB89A4B) = true := by
  decide
theorem test_nextu_pcg : nextIs (exec .nextu seededP)
    (fun t => res t 0xA15C02B7 && t.rng.pst == 0x2B47FED88766BB05) = true := by decide
theorem test_xs32_corners : xs32Step 0 = 0 ∧ xs32Step 1 = 0x00042021 ∧ xs32Step 0xFFFFFFFF = 0x0003E01F := by decide
theorem test_pcg_output_corners : pcgOutput 0 = 0 ∧ pcgOutput 0x07FFFFFFFFFFFFFF = 0xFFFFC000 ∧
    pcgOutput 0xFFFFFFFFFFFFFFFF = 0xFFF00001 := by decide
theorem test_nextn_xs : nextIs (exec .nextn seeded)
    (fun t => res t 0xFFFFFFFFFFFFFCCC && t.rng.xs == 0x5D7977CB) = true := by decide
theorem test_nextn_pcg : nextIs (exec .nextn seededP) (fun t => res t 9360) = true := by decide

/-! ## NoiseShaper, FIXED (spec/95 sections 2.4 and 2.5) -/

theorem test_stage_hpf :
    nextIs (exec (.stage 0 0) (slot0 r0 .hpf 0x40000000 0x0000000640000000 0x0000003200000000))
      (fun t => res t 0xFFFFFFEA20000000 && t.sh.prev.q0 == 0) = true := by decide +kernel


/-- The stage operations on the rows of section 2.4: floors, the integrator's rails, a saturated high-pass. -/
theorem test_integFixed :
    integFixed 4 0x000007FFF8000000 (-1) = 0x000007FFF7FFFFFF ∧
      integFixed 0 0x00003FFF00000005 0x80000000 = 0x00003FFF80000000 := by decide +kernel
theorem test_lpfFixed :
    lpfFixed 0x40000000 (-3) 0 = -2 ∧ lpfFixed 0x0ED0D74B 0x00000ED0C87A28B5 0x00007FFF80000000 = 0x00001BEA8ED5CF61 ∧
      lpfFixed 0 0 0x4000000000000000 = 0x80000000 := by decide +kernel
theorem test_hpfFixed :
    hpfFixed 0x7FFFFFFF 0x7FFFFFFFFFFFFFFF (-0x00007FFF80000000) 0x00007FFF80000000 = 0x7FFFFFFFFFFFFFFF := by
  decide +kernel
theorem test_clipFixed :
    clipFixed 0xFFFFFFFF 0x8000000000000000 = -32768 ∧ clipFixed 0x00010000 0xFFFFFFFF80000001 = 0 ∧
      clipFixed 0x00018000 0x0000003200000000 = 150 := by decide +kernel
theorem test_clip_negative_truncates :
    nextIs (exec (.clip 0xFFFF800080000000) r0) (fun t => res t 0xFFFFFFFFFFFF8001) = true := by decide +kernel

/-- Program P2, sample 0: the brown preset, INTEG then LPF, at gain 1.0 with the normal draw 9360. -/
theorem test_shape_brown :
    nextIs
      (exec (.shape 9360)
        { r0 with
          sh := { r0.sh with chain := ⟨.integ, .lpf, .none, .none⟩, coef := ⟨4, 0x0ED0D74B, 0, 0⟩, gain := 0x10000 } })
      (fun t => res t 67 && t.sh.acc.q0 == 0x0000012480000000 && t.sh.acc.q1 == 0x00000021DB3BFA63) = true := by
  decide +kernel

/-! ## NoiseShaper, FLOAT (spec/95 section 2.7) -/

theorem test_float_integ :
    nextIs (exec (.stage 0 0x477FFF00) (slot0 f0 .integ 4 0x457FFF00 0)) (fun t => res t 0x45FFFF00) = true := by
  decide +kernel

theorem test_float_clip : nextIs (exec (.clip 0xC7000100) (gained f0 0x3F800000))
    (fun t => res t 0xFFFFFFFFFFFF8000) = true := by decide +kernel


theorem test_float_shape : nextIs (exec (.shape 0xFFFFFCCC) f0) (fun t => res t 0xFFFFFFFFFFFFFE66) = true := by
  decide +kernel

/-- The operations on the rows of section 2.7: decay, the clamped alpha of 2.0, the rails, infinity. -/
theorem test_lpfFloat : lpfFloat 0 0x3F000000 0x447A0000 0 = 0x43FA0000 ∧ lpfFloat 0 0x40000000 0 0x3F800000 = 0x3F7FFFFF := by
  decide +kernel
theorem test_hpfFloat : hpfFloat 0 0x3F000000 0x41480000 0x42C80000 0 = 0xC22F0000 := by decide +kernel
theorem test_integFloat : integFloat 0 0 0x46FFFE00 0x477FFF00 = 0x46FFFE00 := by decide +kernel
theorem test_clipFloat : clipFloat 0x3F800000 0x7F800000 = 32767 ∧ clipFloat 0x3F800000 0xBFC00000 = -1 := by
  decide +kernel

/-- `CLIP 0x7FC00000` (a NaN) gives 0, whatever the free sign and payload of the NaN product are. -/
theorem test_clipFloat_nan : clipFloat 0x3F800000 0x7FC00000 = 0 := by
  have h : unpack (lowPattern 0x7FC00000) = .nan := by decide
  rw [clipFloat, fMul_nan_left 0 _ h, fClip16_nanPattern]

/-- Rounding, from IEEE 754's rules by hand: 1 + 2^-24 ties to the even 1; 2^24 + 1 ties to 2^24; the largest finite
number doubled is infinity; half of the least subnormal ties to 0. -/
theorem test_float_rounding :
    fAdd 0 0x3F800000 0x33800000 = 0x3F800000 ∧ fOfInt 16777217 = 0x4B800000 ∧
      fAdd 0 0x7F7FFFFF 0x7F7FFFFF = 0x7F800000 ∧ fScaleDown 0 0x00000001 1 = 0 := by decide +kernel

/-! ## BufferStreamer (spec/95 sections 2.9 and 2.10, program P6 b) -/

theorem test_acq : nextIs (exec .acq r0) (fun t => res t 0 && t.status == 0x100 && t.pool.own.q0 == .acquired) = true := by
  decide
theorem test_acq_waits :
    nextIs (exec .acq { seeded with pool := { releasedPool with own := Quad.all .released, pp := 0 } })
      (fun t => t.rsp == none && t.waiting && t.pool.own == Quad.all .released) = true := by decide
theorem test_put : nextIs (exec (.put 0x1234) (holding 1))
    (fun t => res t 0 && Mem.readSample t.pool.mem 1 == some 0x1234 && t.pool.cnt.q0 == 2) = true := by decide
theorem test_put_full : nextIs (exec (.put 0x1234) (holding 4)) (fun t => faulted t .protocol) = true := by decide
theorem test_rel : nextIs (exec .rel (holding 4))
    (fun t => res t 0 && t.pool.own.q0 == .released && t.pool.pp == 1 && t.cAvail && t.pool.word == 1) = true := by decide
theorem test_rel_underfilled : nextIs (exec .rel (holding 1))
    (fun t => faulted t .protocol && t.status == 0x149 && t.pool.word == 0x0000000100000100) = true := by decide
theorem test_gen : nextIs (exec .gen (holding 0))
    (fun t => res t 0xFFFFFFFFFFFFFE66 && Mem.readSample t.pool.mem 0 == some 0xFE66 && t.rng.xs == 0x5D7977CB &&
      t.pool.word == 0x0000000100000100) = true := by decide +kernel
theorem test_fill : nextIs (exec .fill (holding 0))
    (fun t => res t 4 && t.rng.xs == 0x2BCE80FF && t.pool.cnt.q0 == 4 &&
      t.pool.mem == [(0, 0x66), (1, 0xFE), (2, 0xD7), (3, 0xEF), (4, 0x43), (5, 0x00), (6, 0xEA), (7, 0xE7)]) = true := by
  decide +kernel
theorem test_fill_full : nextIs (exec .fill (holding 4)) (fun t => res t 0 && t.rng == (holding 4).rng) = true := by decide
theorem test_start : nextIs (exec .start { seeded with sinkOk := true }) (fun t => t.running && t.rsp == none) = true := by
  decide
theorem test_start_no_sink : nextIs (exec .start seededP) (fun t => faulted t .sinkFail && t.status == 0x5B) = true := by
  decide

/-- Program P5: after START the first producer step acquires buffer 0, the second makes the first sample. -/
theorem test_loop_acquires : nextIs (step { seeded with running := true, inputs := [.producer] })
    (fun t => t.pool.own.q0 == .acquired && t.phase == .fill) = true := by decide
theorem test_loop_fills :
    nextIs (step { holding 0 with running := true, phase := .fill, inputs := [.producer] })
      (fun t => Mem.readSample t.pool.mem 0 == some 0xFE66 && t.phase == .fill && t.rsp == none) = true := by
  decide +kernel

theorem test_cread_not_taken : nextIs (exec (.cRead 0 0) released) (fun t => t.cRsp == none && t.pool == releasedPool) = true := by
  decide
theorem test_ctake : nextIs (exec .cTake released)
    (fun t => t.cRsp == some 0 && t.pool.own.q0 == .inflight && t.pool.tp == 1 && !t.cAvail) = true := by decide
theorem test_cread : nextIs (exec (.cRead 0 3) inflight) (fun t => t.cRsp == some 0x0043) = true := by decide
theorem test_ctake_underrun : nextIs (exec .cTake inflight) (fun t => t.cRsp == none && t.underrun) = true := by decide
theorem test_creturn : nextIs (exec .cReturn inflight)
    (fun t => t.cRsp == some 0 && t.pool.own.q0 == .free && t.pool.rp == 1) = true := by decide
theorem test_creturn_nothing : nextIs (exec .cReturn released)
    (fun t => t.cRsp == none && t.pool == releasedPool) = true := by decide
theorem test_cidle : nextIs (exec .cIdle released) (fun t => t.cRsp == some 0 && t.pool == releasedPool) = true := by decide

theorem test_reset_pulse :
    nextIs (step { inflight with running := true, underrun := true, inputs := [.rstPulse] })
      (fun t => t == State.reset) = true := by decide

/-! ## Assembler text and coefficients (rule R109, rule R110; spec/95 section 2.6) -/

theorem test_asm_wrcsr : asmLine "H: WRCSR 0x11, 0x0ED0D74B   ; A_lp(1000, 48000)" =
    some (.cmd ⟨0x02, 0x11, 0x0ED0D74B⟩) := by decide +kernel
theorem test_asm_negative : asmLine "SHAPE -820" = some (.cmd ⟨0x22, 0xFFFFFFFFFFFFFCCC, 0⟩) := by decide +kernel
theorem test_asm_consumer : asmLine "C: C_READ 0, 3" = some (.cons ⟨2, 0, 3⟩) ∧ asmLine "C: NOP" = none ∧
    asmLine "C: C_READ 4, 0" = none ∧ asmLine "C: C_READ 0, -1" = none := by
  decide +kernel
theorem test_asm_brown : asmLine "BROWN" = asmLine "WRCHAIN INTEG, LPF, NONE, NONE" ∧
    asmLine "PINK" = some (encode Pseudo.pink.expand) ∧ asmLine "PINK" = asmLine "WRCSR 0x02, 0x0023" := by decide +kernel
theorem test_coef_fixed : alphaLpFixed 1000 48000 = 0x0ED0D74B ∧ alphaHpFixed 100 48000 = 0x7E589C20 := by decide +kernel
theorem test_coef_float : alphaLpFloat 1000 48000 = 0x3DED0D6F ∧ alphaHpFloat 1000 48000 = 0x3F625E52 := by
  decide +kernel

/-! ## Witnesses: a state and operands that meet the hypotheses of each obligation, clause by clause -/

/-- A pool in mid-run: buffer 0 INFLIGHT, buffer 1 RELEASED, buffer 2 held with two samples. -/
def midPool : Pool :=
  { own := ⟨.inflight, .released, .acquired, .free⟩
    cnt := ⟨4, 4, 2, 0⟩
    mem := (List.range 20).map fun a => (a, BitVec.ofNat 8 (3 * a + 1))
    pp := 2
    tp := 1
    rp := 0 }

/-- The generation loop in its fill phase over that pool. -/
def midRun : State :=
  { seeded with pool := midPool, running := true, phase := .fill, sinkOk := true, inputs := [.producer] }

theorem ring_midPool : midPool.Ring 3 := ⟨1, 1, 1, by decide⟩

theorem filled_midPool : midPool.Filled p0 where
  count_le := by decide
  handed_over_full := by decide
  written := by decide
  absent := by decide

theorem memOk_midPool : midPool.MemOk p0 := ⟨by decide, by decide⟩

/-- The invariant holds of a state with buffers in three of the four ownership states. -/
theorem witness_Inv : midRun.Inv where
  par := by decide
  ring := ring_midPool
  filled := filled_midPool
  mem := memOk_midPool
  control := ⟨by decide, by decide, by decide, by decide,
    fun _ => (⟨by decide, by decide⟩ : midRun.pool.hold = true ∧ midRun.full = false)⟩
  rng := ⟨by decide, by decide⟩
  patterns := fun h => by cases h

/-- The same pool with the producer stopped, `j` the next input. -/
def midIdle (e : Input) : State := { midRun with running := false, phase := .acquire, inputs := [e] }

theorem witness_Inv_idle (e : Input) : (midIdle e).Inv where
  par := rfl
  ring := ring_midPool
  filled := filled_midPool
  mem := memOk_midPool
  control := ⟨by simp [midIdle], by simp [midIdle, midRun, seeded, r0, State.reset, State.resetOf],
    by simp [midIdle, midRun, seeded, r0, State.reset, State.resetOf], by simp [midIdle], by simp [midIdle]⟩
  rng := ⟨by simp [midIdle, midRun, seeded, r0, State.reset, State.resetOf],
    by simp [midIdle, midRun, seeded, r0, State.reset, State.resetOf]⟩
  patterns := fun h => by cases h

/-- After reset nothing runs, waits or is halted. -/
theorem accepts_r0 : r0.Accepts := by decide
theorem accepts_seeded : seeded.Accepts := by decide
theorem accepts_seededP : seededP.Accepts := by decide
theorem accepts_holding0 : (holding 0).Accepts := by decide
theorem accepts_f0 : f0.Accepts := by decide

theorem witness_NopOnlyResponds : haltedP6a.running = false ∧ haltedP6a.waiting = false := by decide
theorem witness_RdcsrReturnsRegister :
    seeded.running = false ∧ seeded.waiting = false ∧ (Csr.rng1 = .rng0 ∨ Csr.rng1 = .rng1 → seeded.rng.seeded = true) := by
  decide
theorem witness_ParamChainPoolFields : (holding 4).par.wf = true ∧
    (holding 4).pool.own.get (holding 4).pool.pp = .acquired ∧ r0.pool.own.get r0.pool.pp ≠ .acquired := by decide
theorem witness_WrcsrStoresRaw : r0.Accepts ∧ r0.par.repr = .fixed ∧ f0.Accepts ∧ f0.par.repr = .float ∧
    (0xABCD0023 : Word).extractLsb' 0 16 = Kind.none.code ++ Kind.none.code ++ Kind.lpf.code ++ Kind.hpf.code := by decide
theorem witness_BadOperand : (Instr.stage 4 0).isCommand = true ∧ r0.Accepts ∧ Instr.wf r0.par (.stage 4 0) = false := by
  decide
theorem witness_SeedxSeedp : r0.Accepts := accepts_r0
theorem witness_NextuStepsXorshift : seeded.Accepts ∧ seeded.rng.seeded = true ∧ seeded.rng.alg = .xs32 := by decide
theorem witness_NextuPermutesPcg : seededP.Accepts ∧ seededP.rng.seeded = true ∧ seededP.rng.alg = .pcg32 := by decide
theorem witness_XorshiftZeroTrap : seeded.rng.alg = .xs32 ∧ seeded.rng.xs ≠ 0 ∧ r0.rng.alg = .xs32 ∧ r0.rng.xs = 0 := by
  decide
theorem witness_NextnSumsTheHalves : seededP.Accepts ∧ seededP.rng.seeded = true ∧ r0.Accepts ∧ r0.rng.seeded = false := by
  decide
theorem witness_NormalDrawBounded : 1 ≤ r0.par.ndraw ∧ r0.rng.alg = .xs32 ∧ r0.rng.xs = 0 := by decide
theorem witness_OnlySeedsAndDraws : ∃ t, exec (.clip 0) r0 = .next t := ⟨_, rfl⟩
theorem witness_StageFixedByKind : r0.Accepts ∧ r0.par.repr = .fixed ∧ (3 : BitVec 8).toNat < 4 ∧
    r0.sh.chain.get 0 = .none ∧ (slot0 r0 .integ 4 0 0).sh.chain.get 0 = .integ ∧
    (slot0 r0 .lpf 4 0 0).sh.chain.get 0 = .lpf ∧ (slot0 r0 .hpf 4 0 0).sh.chain.get 0 = .hpf := by decide
theorem witness_LowPassStaysBetween : (slot0 r0 .lpf 4 0 0).Accepts ∧ (slot0 r0 .lpf 4 0 0).par.repr = .fixed ∧
    (slot0 r0 .lpf 4 0 0).sh.chain.get 0 = .lpf ∧ ∃ t, exec (.stage 0 0) (slot0 r0 .lpf 4 0 0) = .next t :=
  ⟨by decide, by decide, by decide, _, rfl⟩
theorem witness_StageFloatByKind : f0.Accepts ∧ f0.par.repr = .float ∧ (3 : BitVec 8).toNat < 4 ∧
    f0.sh.chain.get 0 = .none ∧ (slot0 f0 .integ 4 0 0).sh.chain.get 0 = .integ ∧
    (slot0 f0 .lpf 4 0 0).sh.chain.get 0 = .lpf ∧ (slot0 f0 .hpf 4 0 0).sh.chain.get 0 = .hpf := by decide

/-- INTEG's unsaturated sum by its clauses: a NaN and an infinite one, and finite ones on both rails and just past
them (`S` is 32767.0 and -32768.0, the input 0.0, 1.0 and -1.0). -/
theorem witness_StageFloat_integ : (∀ n, unpack (fAdd (n + 1) 0 (fScaleDown n 0x7FC00000 4)) = .nan) ∧
    unpack (fAdd 1 0 (fScaleDown 0 0xFF800000 4)) = .inf true ∧
    fAdd 1 0x46FFFE00 (fScaleDown 0 0 4) = 0x46FFFE00 ∧ fAdd 1 0x46FFFE00 (fScaleDown 0 0x3F800000 0) = 0x47000000 ∧
    fAdd 1 0xC7000000 (fScaleDown 0 0 4) = 0xC7000000 ∧ fAdd 1 0xC7000000 (fScaleDown 0 0xBF800000 0) = 0xC7000100 := by
  refine ⟨fun n => ?_, by decide +kernel, by decide +kernel, by decide +kernel, by decide +kernel, by decide +kernel⟩
  rw [fScaleDown_nan n 4 (by decide), fAdd_nan_right _ _ (unpack_nanPattern n), unpack_nanPattern]

/-- Where rule R204 and what rule R205 infers of it part (log entry 15): LPF's `fl(+0 + -0)` is +0, and HPF's
`fl(fl(s + x) - p)` is an infinity for the two largest finite values. The smallest negative state does reach -0.0 in an
LPF slot with the input -0, and in an HPF slot. -/
theorem test_rule_R204_over_R205 : lpfFloat 0 0x3F000000 0x80000001 0 = 0 ∧
    lpfFloat 0 0x3F000000 0x80000001 0x80000000 = 0x80000000 ∧ hpfFloat 0 0x3F000000 0x80000001 0 0 = 0x80000000 ∧
    hpfFloat 0 0x3F000000 0x7F7FFFFF 0xFF7FFFFF 0 = 0x7F800000 := by decide +kernel

/-- A reset pulse does not use free NaN values a second time (log entry 2). -/
theorem test_reset_keeps_nans (s : State) : s.applyReset.sh.nans = s.sh.nans := rfl

/-- The values of the patterns of 0.5, 1.0, -0.0. -/
theorem values : patternValue 0x3F000000 = some (1 / 2) ∧ patternValue 0x3F800000 = some 1 ∧
    patternValue 0x80000000 = some 0 := by
  have h0 : unpack 0x3F000000 = .fin false 8388608 (-24) := by decide
  have h1 : unpack 0x3F800000 = .fin false 8388608 (-23) := by decide
  have h2 : unpack 0x80000000 = .fin true 0 (-149) := by decide
  simp only [patternValue, h0, h1, h2, dyadic]
  norm_num

theorem witness_FloatAlpha : (∃ q, patternValue 0x80000000 = some q ∧ q ≤ 0) ∧ (∃ q, patternValue 0x3F800000 = some q ∧ 1 ≤ q) ∧
    (∃ q, patternValue 0x3F000000 = some q ∧ 0 < q ∧ q < 1) ∧ unpack 0x7FC00000 = .nan ∧ unpack 0xFF800000 = .inf true :=
  ⟨⟨_, values.2.2, by norm_num⟩, ⟨_, values.2.1, by norm_num⟩, ⟨_, values.1, by norm_num, by norm_num⟩, by decide, by decide⟩
theorem witness_FloatOfSmallInteger : |(-2147483647 : Int)| < 2 ^ 31 ∧ |(-16777216 : Int)| ≤ 2 ^ 24 := by decide

/-- The largest finite binary32. -/
theorem value_max : patternValue 0x7F7FFFFF = some ((2 : ℚ) ^ 128 - 2 ^ 104) := by
  have h : unpack 0x7F7FFFFF = .fin false 16777215 104 := by decide
  simp only [patternValue, h, dyadic]
  norm_num

theorem witness_FloatOperations : (∃ va vb, patternValue 0x3F000000 = some va ∧ patternValue 0x3F800000 = some vb ∧
      |va + vb| < 2 ^ 128 - 2 ^ 103) ∧
    (∃ va vb, patternValue 0x7F7FFFFF = some va ∧ patternValue 0x7F7FFFFF = some vb ∧ 2 ^ 128 - 2 ^ 103 ≤ |va + vb|) :=
  ⟨⟨_, _, values.1, values.2.1, by norm_num [abs_of_pos]⟩, ⟨_, _, value_max, value_max, by norm_num [abs_of_pos]⟩⟩
/-- The special operands of the same statement: zero sums, NaNs, infinities of both signs, an infinity and a finite. -/
theorem witness_FloatOperations_special : fAdd 0 0x80000000 0 = 0 ∧ fAdd 0 0x80000000 0x80000000 = 0x80000000 ∧
    unpack 0x7FC00000 = .nan ∧ unpack 0x7F800000 = .inf false ∧ unpack 0xFF800000 = .inf true ∧
    (∃ vb, patternValue 0x80000000 = some vb ∧ vb = 0) ∧ (∃ vb, patternValue 0x3F800000 = some vb ∧ vb ≠ 0) ∧
    (∀ n, QuietNan (fAdd n 0x7F800000 0xFF800000)) :=
  ⟨by decide +kernel, by decide +kernel, by decide, by decide, by decide, ⟨_, values.2.2, rfl⟩,
    ⟨_, values.2.1, one_ne_zero⟩, fun n => ⟨unpack_nanPattern n, nanPattern_quiet n⟩⟩
theorem witness_ClipFixed : r0.Accepts ∧ r0.par.repr = .fixed := by decide

/-- Each clause of the FLOAT clip: a NaN, an infinite and a finite product. -/
theorem witness_ClipFloat : f0.Accepts ∧ f0.par.repr = .float ∧ (∀ n, unpack (fMul n 0x7FC00000 0x3F800000) = .nan) ∧
    (∀ n, unpack (fMul n 0xFF800000 0x3F800000) = .inf true) ∧
    (∀ n, patternValue (fMul n 0x3F000000 0x3F800000) = some (1 / 2)) := by
  refine ⟨by decide, by decide, fun n => ?_, fun n => ?_, fun n => ?_⟩
  · rw [fMul_nan_left n _ (by decide), unpack_nanPattern]
  · have ha : unpack 0xFF800000 = .inf true := by decide
    have hb : unpack 0x3F800000 = .fin false 8388608 (-23) := by decide
    simp only [fMul, ha, hb, if_neg (show ¬(8388608 = 0) by decide)]
    decide
  · have h : fMul n 0x3F000000 0x3F800000 = 0x3F000000 := rfl
    rw [h, values.1]
theorem witness_ShapeRunsSlotsInOrder : r0.Accepts ∧ r0.par.repr = .fixed ∧ f0.Accepts := by decide
theorem witness_WhiteChain : r0.Accepts ∧ r0.par.repr = .fixed ∧ r0.sh.gain = 0x00008000 ∧
    (∀ k : Fin 4, r0.sh.chain.get k = .none) ∧ |(0xFFFF0001 : Half).toInt| ≤ 65535 := by decide
theorem witness_Saturations : clip16 32767 = 32767 ∧ clip16 (-32769) = -32768 ∧ clip16 32768 = 32767 ∧
    sat64 (2 ^ 63 - 1) = 2 ^ 63 - 1 ∧ sat64 (-2 ^ 63 - 1) = -2 ^ 63 ∧ sat64 (2 ^ 63) = 2 ^ 63 - 1 := by decide +kernel
theorem witness_ReferenceCoefficients : (1 ≤ 23999 ∧ 23999 < 2 ^ 32 ∧ 1 ≤ 48000 ∧ 48000 < 2 ^ 32) ∧ 2 * 23999 < 48000 ∧
    alphaLpFixed 23999 48000 = 0x6117D1FB := by decide +kernel
theorem witness_AcqTakesTheFreeBuffer : r0.Accepts ∧ r0.pool.own.get r0.pool.pp = .free := by decide

/-- Every buffer on the consumer's side, an ACQ waiting. -/
def acqWaits (o : Own) : State :=
  { seeded with pool := { releasedPool with own := ⟨o, .released, .released, .free⟩, pp := 0 }, waiting := true }

theorem witness_AcqBlocksUntilFree : (acqWaits .inflight).running = false ∧ (acqWaits .inflight).waiting = true ∧
    (acqWaits .inflight).pool.own.get 0 ≠ .free ∧ (acqWaits .free).pool.own.get 0 = .free ∧
    State.Accepts { acqWaits .released with waiting := false } := by decide
theorem witness_PutStoresOneSample : (holding 3).Accepts ∧ (holding 3).pool.own.get (holding 3).pool.pp = .acquired ∧
    (holding 3).pool.pp.val < (holding 3).par.nbuf ∧ ((holding 3).pool.cnt.get (holding 3).pool.pp).toNat < (holding 3).par.cap ∧
    ((holding 4).pool.cnt.get (holding 4).pool.pp).toNat = (holding 4).par.cap ∧ r0.pool.own.get r0.pool.pp ≠ .acquired := by
  decide
theorem witness_RelHandsOver : (holding 4).Accepts ∧ (holding 4).pool.own.get (holding 4).pool.pp = .acquired ∧
    ((holding 4).pool.cnt.get (holding 4).pool.pp).toNat = (holding 4).par.cap ∧
    (holding 4).pool.pp.val < (holding 4).par.nbuf ∧
    ((holding 3).pool.cnt.get (holding 3).pool.pp).toNat ≠ (holding 3).par.cap := by decide
theorem witness_GenMakesOneSample : (holding 3).Accepts ∧ (holding 3).rng.seeded = true ∧
    (holding 3).pool.own.get (holding 3).pool.pp = .acquired ∧ (holding 3).pool.pp.val < (holding 3).par.nbuf ∧
    ((holding 3).pool.cnt.get (holding 3).pool.pp).toNat < (holding 3).par.cap ∧ r0.rng.seeded = false ∧
    seeded.Accepts ∧ seeded.pool.own.get seeded.pool.pp ≠ .acquired := by decide
theorem witness_FillIsRepeatedGen : (holding 0).Accepts ∧ (holding 0).rng.seeded = true ∧
    (holding 0).pool.own.get (holding 0).pool.pp = .acquired ∧ (holding 0).pool.pp.val < (holding 0).par.nbuf ∧
    ((holding 0).pool.cnt.get (holding 0).pool.pp).toNat ≤ (holding 0).par.cap ∧ (holding 0).par.cap < 2 ^ 32 := by decide
theorem witness_StartEntersTheLoop : State.Accepts { seeded with sinkOk := true } ∧ seeded.rng.seeded = true ∧
    seeded.pool.own.get seeded.pool.pp ≠ .acquired := by decide
theorem witness_LoopPhases : midRun.running = true ∧ midRun.phase = .fill ∧ midRun.pool.pp.val < midRun.par.nbuf ∧
    (midRun.pool.cnt.get midRun.pool.pp).toNat < midRun.par.cap ∧ midRun.par.cap < 2 ^ 32 := by decide
theorem witness_LoopPhases_others :
    (let s := { seeded with running := true, phase := .acquire }; s.running = true ∧ s.phase = .acquire ∧ s.pool.own.get s.pool.pp = .free) ∧
    (let s := { acqWaits .inflight with running := true, phase := .acquire }; s.phase = .acquire ∧ s.pool.own.get s.pool.pp ≠ .free) ∧
    (let s := { holding 4 with running := true, phase := .release }; s.running = true ∧ s.phase = .release) := by decide
theorem witness_BusyMachine : midRun.running = true ∧ (acqWaits .inflight).waiting = true ∧ Instr.nop.isCommand = true := by
  decide
theorem witness_TakeOrUnderrun : released.pool.own.get released.pool.tp = .released ∧
    inflight.pool.own.get inflight.pool.tp ≠ .released := by decide
theorem witness_ReadOnlyWhileInFlight : (0 : BitVec 2).toNat < inflight.par.nbuf ∧ (3 : Half).toNat < inflight.par.cap ∧
    inflight.pool.own.get (0 : BitVec 2).toFin = .inflight ∧ Mem.readSample inflight.pool.mem (0 * 4 + 3) = some 0x0043 ∧
    ¬((4 : Half).toNat < inflight.par.cap) ∧ ¬((3 : BitVec 2).toNat < inflight.par.nbuf) := by decide
theorem witness_ReturnFrees : inflight.pool.own.get inflight.pool.rp = .inflight ∧
    released.pool.own.get released.pool.rp ≠ .inflight := by decide
theorem witness_ConsumerTouchesOnlyItsOwn : Instr.cTake.isCommand = false ∧ ∃ t, exec .cTake released = .next t :=
  ⟨by decide, _, rfl⟩
theorem witness_ProducerNeverTouches : (∃ i : Instr, i.isCommand = true ∧ ∃ t, exec i (holding 4) = .next t) ∧
    ∃ t, producerStep midRun = .next t :=
  ⟨⟨.rel, by decide, _, rfl⟩, _, rfl⟩
theorem witness_FaultsExactlyAsTabulated : seededP.Accepts ∧ Instr.start.isCommand = true ∧
    faultOf seededP .start = some .sinkFail ∧ faultOf r0 .start = some .notSeeded ∧ faultOf (holding 4) .rel = none ∧
    ∃ t, exec .rel (holding 4) = .next t :=
  ⟨by decide, by decide, by decide, by decide, by decide, _, rfl⟩
theorem witness_FaultsArePrecise : ∃ t, (∃ i, exec i (holding 1) = .next t) ∧ t.halted = true :=
  ⟨_, ⟨.rel, rfl⟩, rfl⟩
theorem witness_UnassignedOpcodes : (0x3E : BitVec 8) ∉ ([0x00, 0x01, 0x02, 0x10, 0x11, 0x12, 0x13, 0x20, 0x21, 0x22,
      0x30, 0x31, 0x32, 0x33, 0x34, 0x3F] : List (BitVec 8)) ∧ r0.par.wf = true ∧ r0.Accepts := by decide
theorem witness_HaltedDiscards : haltedP6a.running = false ∧ haltedP6a.waiting = false ∧ haltedP6a.halted = true ∧
    Instr.gen.isCommand = true ∧ csrDefined 0x07 = false ∧ haltedP6a.rng.seeded = false := by decide
theorem witness_HaltIsSticky : haltedP6a.halted = true ∧ (∃ t, step haltedP6a = .next t) ∧
    haltedP6a.inputs.head? ≠ some .rstPulse ∧ ∃ t, step { haltedP6a with inputs := [.rstPulse] } = .next t :=
  ⟨by decide, ⟨_, rfl⟩, by decide, _, rfl⟩
theorem witness_ResetValues : State.par { inflight with inputs := [.rstPulse] } = p0 ∧ p0.wf = true := by decide
theorem witness_StepRuns : p0.wf = true ∧ decode (.cmd ⟨0x12, 0, 0⟩) = .ok .nextu ∧ decodeTableWord 8 0x12 = some .nextu := by
  decide
theorem witness_RoundTrip : decode (.cmd ⟨0x31, 0xFE66, 0⟩) = .ok (.put 0xFE66) ∧
    (PortWord.cmd ⟨0x31, 0xFE66, 0⟩).canonical = true := by decide
theorem witness_InvariantAtReset : Params.wf { p0 with nbuf := 4, ndraw := 5, repr := .float } = true := by decide
theorem witness_InvariantKept : midRun.Inv ∧ ∃ t, step midRun = .next t := ⟨witness_Inv, _, rfl⟩
theorem witness_HeldBuffer : midRun.Inv ∧ midRun.pool.own.get 2 = .acquired := ⟨witness_Inv, by decide⟩
theorem witness_OwnershipMoves :
    (∃ t, step (midIdle (.port (.cons ⟨1, 0, 0⟩))) = .next t ∧ t.pool.own.q1 = .inflight) ∧
    (∃ t, step (midIdle (.port (.cons ⟨3, 0, 0⟩))) = .next t ∧ t.pool.own.q0 = .free) ∧
    (midIdle (.port (.cons ⟨1, 0, 0⟩))).Inv ∧ (midIdle (.port (.cons ⟨3, 0, 0⟩))).Inv ∧
    midRun.inputs.head? ≠ some .rstPulse :=
  ⟨⟨_, rfl, by decide⟩, ⟨_, rfl, by decide⟩, witness_Inv_idle _, witness_Inv_idle _, by decide⟩
theorem witness_SamplesChange : midRun.Inv ∧ (∃ t, step midRun = .next t) ∧ 3 < midRun.par.cap ∧
    midRun.pool.own.get 1 ≠ .acquired := ⟨witness_Inv, ⟨_, rfl⟩, by decide, by decide⟩
theorem witness_StreamIgnoresBoundaries : (∃ t, exec .gen (holding 0) = .next t) ∧ (∃ t, exec .gen (holding 3) = .next t) ∧
    (holding 0).rng = (holding 3).rng ∧ (holding 0).sh = (holding 3).sh ∧ faultOf (holding 0) .gen = none ∧
    faultOf (holding 3) .gen = none ∧ ∃ t, exec .rel (holding 4) = .next t :=
  ⟨⟨_, rfl⟩, ⟨_, rfl⟩, by decide, by decide, by decide, by decide, _, rfl⟩
theorem witness_ParametersNeverChange : ∃ t, step r0 = .next t := ⟨_, rfl⟩

end Sys2Proof.Tests
end

