-- ==== Sys2Proof/Proofs/Scope.lean ====
section
/-! SUPPORT. The saturations (`00_scope.md` rule R13) and the parameters an instance keeps (rule R9). -/

namespace Sys2Proof.Machine

/-! ## Saturation -/

theorem clamp_of_lt {v lo : Int} (h : v < lo) (hi : Int) : clamp v lo hi = lo := if_pos h

theorem clamp_of_gt {v lo hi : Int} (hle : lo ≤ hi) (h : hi < v) : clamp v lo hi = hi := by
  have hlo : ¬v < lo := by omega
  simp [clamp, hlo, h]

/-- Settles O25: `clip16` and `sat64` are `clamp`, taken inside, below and above its range. -/
theorem saturationsIdempotent : Obligations.SaturationsIdempotent := fun _ =>
  ⟨clamp_of_mem, (clamp_of_lt · _), clamp_of_gt (by decide),
    clamp_of_mem, (clamp_of_lt · _), clamp_of_gt (by decide)⟩

/-! ## The parameters -/

@[simp] theorem acquireOrWait_par (s : State) : s.acquireOrWait.par = s.par := by
  unfold State.acquireOrWait
  split <;> rfl

@[simp] theorem State.applyReset_par (s : State) : s.applyReset.par = s.par := rfl

/-- Every effect is an update of other fields; only the blocked acquire and FILL need a lemma to see it. -/
theorem Effect.par_eq {s t : State} {i : Instr} (h : Effect s i t) : t.par = s.par := by
  cases h with
  | acq => exact acquireOrWait_par s
  | fill => exact State.genTimes_par _ s
  | _ => rfl

theorem execIllegal_par {s t : State} (h : execIllegal s = .next t) : t.par = s.par := by
  rcases execIllegal_next h with ⟨_, rfl⟩ | ⟨_, _, rfl⟩ | ⟨_, _, rfl⟩ <;> rfl

theorem loopStep_par {s t : State} (h : loopStep s = .next t) : t.par = s.par := by
  rcases loopStep_next h with ⟨_, _, rfl⟩ | ⟨_, _, rfl⟩ | ⟨_, _, rfl⟩ | ⟨_, rfl⟩ <;> rfl

theorem producerStep_par {s t : State} (h : producerStep s = .next t) : t.par = s.par := by
  rcases producerStep_cases s with ⟨_, hp⟩ | ⟨_, _, hp⟩ | ⟨_, _, hp⟩ <;> rw [hp] at h
  · exact loopStep_par h
  · rw [← next_inj h, acquireOrWait_par]
  · rw [next_inj h]

theorem perform_par {e : Input} {s t : State} (h : perform e s = .next t) : t.par = s.par := by
  rcases perform_next h with ⟨_, _, _, _, hx⟩ | ⟨_, _, _, _, hx⟩ | ⟨_, hx⟩ | ⟨_, _, rfl⟩ | ⟨_, rfl⟩
  · exact (exec_effect hx).par_eq
  · exact execIllegal_par hx
  · exact producerStep_par hx
  · rfl
  · exact State.applyReset_par s

/-- Taking the input off the list keeps the parameters, and so does whatever the step then does. -/
theorem step_par {s t : State} (h : step s = .next t) : t.par = s.par := by
  rcases step_cases s with ⟨_, hs⟩ | ⟨_, _, hs⟩ | ⟨_, _, _, _, hs⟩ <;> rw [hs] at h
  · cases h
  · exact (producerStep_par h).trans s.afterInput_par
  · exact (perform_par h).trans s.afterInput_par

/-- Settles O60, by the cases of a step: the next input, or the producer's own step. -/
theorem parametersNeverChange : Obligations.ParametersNeverChange := fun _ _ => step_par

end Sys2Proof.Machine
end

/-! SUPPORT. The invariant of the machine (`10_state.md` rule R50): it holds at reset and every step keeps it. -/

namespace Sys2Proof.Machine

/-! ## The legal parameters -/

theorem Params.wf_bounds {p : Params} (h : p.wf = true) :
    (p.nbuf = 3 ∨ p.nbuf = 4) ∧ 1 ≤ p.cap ∧ p.cap < 2 ^ 32 ∧ (p.ndraw = 5 ∨ p.ndraw = 6) := by
  simp only [Params.wf, Bool.and_eq_true, Bool.or_eq_true, beq_iff_eq, decide_eq_true_eq] at h
  obtain ⟨⟨⟨⟨hn, h1⟩, h32⟩, hd⟩, -⟩ := h
  exact ⟨hn, h1, h32, hd⟩

theorem Params.wf_nbuf_pos {p : Params} (h : p.wf = true) : 0 < p.nbuf := by
  have := (Params.wf_bounds h).1
  omega

theorem Params.wf_nbuf_le {p : Params} (h : p.wf = true) : p.nbuf ≤ 4 := by
  have := (Params.wf_bounds h).1
  omega

/-! ## Places of the ring -/

theorem ringAt_lt {n : Nat} (h0 : 0 < n) (h4 : n ≤ 4) (i : Fin 4) (j : Nat) : (ringAt n i j).val < n := by
  rw [ringAt_val h0 h4]
  exact Nat.mod_lt _ h0

/-- Every buffer is somewhere on the ring. -/
theorem exists_ringAt_eq {n : Nat} (h0 : 0 < n) (h4 : n ≤ 4) {b i : Fin 4} (hb : b.val < n) (hi : i.val < n) :
    ∃ j < n, ringAt n b j = i := by
  refine ⟨(i.val + (n - b.val)) % n, Nat.mod_lt _ h0, ?_⟩
  rw [Fin.ext_iff, ringAt_val h0 h4, Nat.add_mod_mod, show b.val + (i.val + (n - b.val)) = i.val + n by omega,
    Nat.add_mod_right, Nat.mod_eq_of_lt hi]

theorem ringOwn_eq_acquired {f r h j : Nat} (hh : h ≤ 1) (ho : ringOwn f r h j = .acquired) : j = f + r := by
  simp only [ringOwn] at ho
  split_ifs at ho
  omega

theorem Pool.Ring.pp_lt {n : Nat} {p : Pool} (hr : p.Ring n) (h0 : 0 < n) (h4 : n ≤ 4) : p.pp.val < n := by
  obtain ⟨f, r, h, -, -, -, -, hpp, -⟩ := hr
  rw [hpp]
  exact ringAt_lt h0 h4 _ _

/-- The ring has one ACQUIRED place, the one PP points to. -/
theorem Pool.Ring.eq_pp_of_acquired {n : Nat} {p : Pool} (hr : p.Ring n) (h0 : 0 < n) (h4 : n ≤ 4) {i : Fin 4}
    (hi : i.val < n) (ho : p.own.get i = .acquired) : i = p.pp := by
  obtain ⟨f, r, h, -, hh, hrp, -, hpp, hown⟩ := hr
  obtain ⟨j, hj, rfl⟩ := exists_ringAt_eq h0 h4 hrp hi
  rw [hown j hj] at ho
  rw [hpp, ringOwn_eq_acquired hh ho]

/-- A number whose OWN is not FREE names a buffer. -/
theorem Pool.Filled.lt_nbuf {par : Params} {p : Pool} (hp : p.Filled par) {i : Fin 4} (ho : p.own.get i ≠ .free) :
    i.val < par.nbuf := by
  by_contra hc
  exact ho (hp.absent i (Nat.le_of_not_lt hc)).1

/-- Settles O56: the buffer stands on the ring, and the ring has its ACQUIRED place at PP. -/
theorem heldBufferIsTheOneAtPP : Obligations.HeldBufferIsTheOneAtPP := fun _ hs _ ho =>
  hs.ring.eq_pp_of_acquired (Params.wf_nbuf_pos hs.par) (Params.wf_nbuf_le hs.par)
    (hs.filled.lt_nbuf (by rw [ho]; decide)) ho

/-! ## The pool: what the invariant says of it, kept by each transfer and by each sample stored -/

/-- The part of the invariant that speaks of the pool alone. -/
structure Pool.Ok (par : Params) (p : Pool) : Prop where
  ring : p.Ring par.nbuf
  filled : p.Filled par
  mem : p.MemOk par

/-- What `Pool.Filled` asks of a number that names a buffer. -/
structure Pool.BufferOk (par : Params) (p : Pool) (i : Fin 4) : Prop where
  count_le : (p.cnt.get i).toNat ≤ par.cap
  handed_over_full : p.own.get i = .released ∨ p.own.get i = .inflight → (p.cnt.get i).toNat = par.cap
  written : p.own.get i ≠ .free → ∀ slot < (p.cnt.get i).toNat,
    (Mem.readSample p.mem (sampleAddr par.cap i.val slot)).isSome = true

section
variable {par : Params} {p q : Pool}

theorem Pool.Filled.bufferOk (hp : p.Filled par) (i : Fin 4) : p.BufferOk par i :=
  ⟨hp.count_le i, hp.handed_over_full i, hp.written i⟩

/-- Only buffer `i` has changed, and no sample has been lost: then buffer `i` is all there is to check. -/
theorem Pool.Filled.of_bufferOk (hp : p.Filled par) {i : Fin 4} (hi : i.val < par.nbuf)
    (hown : ∀ j ≠ i, q.own.get j = p.own.get j) (hcnt : ∀ j ≠ i, q.cnt.get j = p.cnt.get j)
    (hmem : ∀ a, (Mem.readSample p.mem a).isSome = true → (Mem.readSample q.mem a).isSome = true)
    (hq : q.BufferOk par i) : q.Filled par := by
  have hbuf : ∀ j, q.BufferOk par j := fun j => by
    by_cases hj : j = i
    · rw [hj]; exact hq
    · refine ⟨?_, ?_, ?_⟩ <;> rw [hcnt j hj]
      · exact hp.count_le j
      · rw [hown j hj]; exact hp.handed_over_full j
      · rw [hown j hj]; exact fun ho slot hs => hmem _ (hp.written j ho slot hs)
  refine ⟨fun j => (hbuf j).count_le, fun j => (hbuf j).handed_over_full, fun j => (hbuf j).written, fun j hj => ?_⟩
  have hji : j ≠ i := by rintro rfl; omega
  rw [hown j hji, hcnt j hji]
  exact hp.absent j hj

/-- An ownership transfer of buffer `i`, its count and the samples left alone. -/
theorem Pool.Filled.transfer (hp : p.Filled par) {i : Fin 4} {o : Own} (hi : p.own.get i ≠ .free)
    (hfull : o = .released ∨ o = .inflight → (p.cnt.get i).toNat = par.cap)
    (hown : q.own = p.own.set i o) (hcnt : q.cnt = p.cnt) (hmem : q.mem = p.mem) : q.Filled par := by
  refine hp.of_bufferOk (hp.lt_nbuf hi) (fun j hj => ?_) (fun j _ => by rw [hcnt]) (fun a ha => by rwa [hmem])
    ⟨?_, ?_, ?_⟩
  · rw [hown, Quad.get_set_other _ _ hj]
  · rw [hcnt]; exact hp.count_le i
  · rw [hown, hcnt, Quad.get_set_same]; exact hfull
  · rw [hcnt, hmem]; exact fun _ => hp.written i hi

theorem Pool.Filled.acquire (hp : p.Filled par) (hpp : p.pp.val < par.nbuf) : p.acquire.Filled par := by
  refine hp.of_bufferOk hpp (fun j hj => Quad.get_set_other _ _ hj) (fun j hj => Quad.get_set_other _ _ hj)
    (fun _ => id) ⟨?_, ?_, ?_⟩ <;> simp

theorem Pool.Ok.acquire (hw : par.wf = true) (hp : p.Ok par) (ho : p.own.get p.pp = .free) : p.acquire.Ok par := by
  have h0 := Params.wf_nbuf_pos hw
  have h4 := Params.wf_nbuf_le hw
  obtain ⟨f, r, h, hr⟩ := hp.ring
  exact ⟨⟨f, r, 1, (hr.acquire h0 h4 ho).2⟩, hp.filled.acquire (hp.ring.pp_lt h0 h4),
    ⟨hp.mem.canonical, hp.mem.inRange⟩⟩

theorem Pool.Ok.release (hw : par.wf = true) (hp : p.Ok par) (ho : p.own.get p.pp = .acquired)
    (hf : (p.cnt.get p.pp).toNat = par.cap) : (Pool.release par.nbuf p).Ok par := by
  obtain ⟨f, r, h, hr⟩ := hp.ring
  exact ⟨⟨f, r + 1, 0, (hr.release (Params.wf_nbuf_pos hw) (Params.wf_nbuf_le hw) ho).2⟩,
    hp.filled.transfer (by rw [ho]; decide) (fun _ => hf) rfl rfl rfl, ⟨hp.mem.canonical, hp.mem.inRange⟩⟩

theorem Pool.Ok.take (hw : par.wf = true) (hp : p.Ok par) (ho : p.own.get p.tp = .released) :
    (Pool.take par.nbuf p).Ok par := by
  obtain ⟨f, r, h, hr⟩ := hp.ring
  exact ⟨⟨f + 1, r - 1, h, (hr.take (Params.wf_nbuf_pos hw) (Params.wf_nbuf_le hw) ho).2⟩,
    hp.filled.transfer (by rw [ho]; decide) (fun _ => hp.filled.handed_over_full _ (.inl ho)) rfl rfl rfl,
    ⟨hp.mem.canonical, hp.mem.inRange⟩⟩

theorem Pool.Ok.giveBack (hw : par.wf = true) (hp : p.Ok par) (ho : p.own.get p.rp = .inflight) :
    (Pool.giveBack par.nbuf p).Ok par := by
  obtain ⟨f, r, h, hr⟩ := hp.ring
  exact ⟨⟨f - 1, r, h, (hr.giveBack (Params.wf_nbuf_pos hw) (Params.wf_nbuf_le hw) ho).2⟩,
    hp.filled.transfer (by rw [ho]; decide) (by rintro (h | h) <;> cases h) rfl rfl rfl,
    ⟨hp.mem.canonical, hp.mem.inRange⟩⟩

/-- A store loses no sample. -/
theorem Mem.readSample_writeSample_isSome (m : List Host.Cell) (addr : Nat) (v : Sample) {a : Nat}
    (h : (Mem.readSample m a).isSome = true) : (Mem.readSample (Mem.writeSample m addr v) a).isSome = true := by
  by_cases ha : a = addr
  · rw [ha, Mem.readSample_writeSample_same]; rfl
  · rwa [Mem.readSample_writeSample_other _ _ ha]

/-- The word addresses of a buffer's slots are those of the sample memory (rule R71). -/
theorem sampleAddr_lt {n cap i slot : Nat} (hi : i < n) (hs : slot < cap) : sampleAddr cap i slot < n * cap :=
  calc i * cap + slot < i * cap + cap := by omega
    _ = (i + 1) * cap := by ring
    _ ≤ n * cap := Nat.mul_le_mul_right _ hi

/-- A count below CAP has a successor that fits. -/
theorem toNat_add_one_of_lt_cap {c : Half} {cap : Nat} (hcap : cap < 2 ^ 32) (hc : c.toNat < cap) :
    (c + 1).toNat = c.toNat + 1 := by
  rw [BitVec.toNat_add]
  exact Nat.mod_eq_of_lt (by simp; omega)

theorem Pool.Filled.store (hw : par.wf = true) (hp : p.Filled par) (v : Sample) (ho : p.own.get p.pp = .acquired)
    (hc : (p.cnt.get p.pp).toNat < par.cap) : (p.store par.cap v).Filled par := by
  obtain ⟨-, -, hcap, -⟩ := Params.wf_bounds hw
  have hne : p.own.get p.pp ≠ .free := by rw [ho]; decide
  have hcnt : ((p.store par.cap v).cnt.get p.pp).toNat = (p.cnt.get p.pp).toNat + 1 := by
    rw [Pool.store_cnt_pp, toNat_add_one_of_lt_cap hcap hc]
  refine hp.of_bufferOk (hp.lt_nbuf hne) (fun j _ => rfl) (fun j hj => Quad.get_set_other _ _ hj)
    (fun a ha => Mem.readSample_writeSample_isSome _ _ v ha) ⟨?_, ?_, fun _ slot hs => ?_⟩
  · rw [hcnt]; exact hc
  · rw [Pool.store_own, ho]; rintro (h | h) <;> cases h
  · rw [hcnt] at hs
    by_cases hlast : slot = (p.cnt.get p.pp).toNat
    · rw [hlast, Pool.store_mem, Pool.nextAddr, Mem.readSample_writeSample_same]; rfl
    · exact Mem.readSample_writeSample_isSome _ _ v (hp.written _ hne slot (by omega))

theorem Pool.MemOk.store (hp : p.MemOk par) (v : Sample) (hpp : p.pp.val < par.nbuf)
    (hc : (p.cnt.get p.pp).toNat < par.cap) : (p.store par.cap v).MemOk par := by
  have haddr : p.nextAddr par.cap < par.nbuf * par.cap := sampleAddr_lt hpp hc
  refine ⟨Pool.store_wf _ _ hp.canonical, fun c hmem => ?_⟩
  rcases Mem.mem_writeSample hmem with h | h | h
  · omega
  · omega
  · exact hp.inRange c h

theorem Pool.Ok.store (hw : par.wf = true) (hp : p.Ok par) (v : Sample) (ho : p.own.get p.pp = .acquired)
    (hc : (p.cnt.get p.pp).toNat < par.cap) : (p.store par.cap v).Ok par :=
  ⟨hp.ring, hp.filled.store hw v ho hc, hp.mem.store v (hp.filled.lt_nbuf (by rw [ho]; decide)) hc⟩

end

/-! ## The generator -/

theorem Rng.Ok.of_keeps {r r' : Rng} (h : r.Ok) (hs : r'.seeded = r.seeded) (ha : r'.alg = r.alg)
    (hi : r'.pinc = r.pinc) : r'.Ok :=
  ⟨by rw [ha, hs]; exact h.pcg_seeded, by rw [ha, hi]; exact h.inc_odd⟩

theorem Rng.Ok.draw {r : Rng} (h : r.Ok) : r.draw.2.Ok := h.of_keeps r.draw_seeded r.draw_alg r.draw_pinc

theorem Rng.Ok.normal {r : Rng} (h : r.Ok) (n : Nat) : (r.normal n).2.Ok :=
  h.of_keeps (r.normal_seeded n) (r.normal_alg n) (r.normal_pinc n)

theorem Rng.seedX_ok (r : Rng) (v : Half) : (r.seedX v).Ok := ⟨fun _ => rfl, by rintro ⟨⟩⟩

theorem pcgInc_odd (q : Word) : (pcgInc q).getLsbD 0 = true := by simp [pcgInc]

theorem Rng.seedP_ok (r : Rng) (a b : Word) : (r.seedP a b).Ok := ⟨fun _ => rfl, fun _ => pcgInc_odd b⟩

/-! ## The shaper -/

/-- A zero-extended pattern has a zero upper half. -/
theorem extractLsb'_high_setWidth (w : Half) : (w.setWidth 64).extractLsb' 32 32 = 0 :=
  extractLsb'_setWidth_high w 64 32 32 (Nat.le_refl _)

/-- In FLOAT a slot keeps its S and P, or puts zero-extended patterns there (rule R201). -/
theorem slotFloat_patterns (n : Nat) (kind : Kind) (c : Half) {a p : Word} (x : Word)
    (ha : a.extractLsb' 32 32 = 0) (hp : p.extractLsb' 32 32 = 0) :
    (slotFloat n kind c a p x).acc.extractLsb' 32 32 = 0 ∧ (slotFloat n kind c a p x).prev.extractLsb' 32 32 = 0 := by
  cases kind with
  | none => exact ⟨ha, hp⟩
  | integ => exact ⟨extractLsb'_high_setWidth _, hp⟩
  | lpf => exact ⟨extractLsb'_high_setWidth _, hp⟩
  | hpf => exact ⟨extractLsb'_high_setWidth _, extractLsb'_high_setWidth _⟩

theorem accIn_float_high (b : Word) : (accIn .float b).extractLsb' 32 32 = 0 := extractLsb'_high_setWidth _

/-- Setting one of four words to one with a zero upper half. -/
theorem Quad.set_high {q : Quad Word} {w : Word} (k : Fin 4) (hq : ∀ j, (q.get j).extractLsb' 32 32 = 0)
    (hw : w.extractLsb' 32 32 = 0) (j : Fin 4) : ((q.set k w).get j).extractLsb' 32 32 = 0 := by
  rw [Quad.get_set]
  split
  · exact hw
  · exact hq j

section
variable {r : NumRepr} {sh : Shaper}

theorem Shaper.PatternsOk.stage (h : sh.PatternsOk r) (k : Fin 4) (x : Word) : (sh.stage r k x).2.PatternsOk r := by
  rintro rfl j
  have hk := slotFloat_patterns sh.nans (sh.chain.get k) (sh.coef.get k) x (h rfl k).1 (h rfl k).2
  exact ⟨Quad.set_high k (fun i => (h rfl i).1) hk.1 j, Quad.set_high k (fun i => (h rfl i).2) hk.2 j⟩

theorem Shaper.PatternsOk.shape (h : sh.PatternsOk r) (n : Int) : (sh.shape r n).2.PatternsOk r :=
  (((h.stage 0 _).stage 1 _).stage 2 _).stage 3 _

theorem Shaper.PatternsOk.csrWrite {sh' : Shaper} (h : sh.PatternsOk r) {c : Csr} {v : Word}
    (hw : sh.csrWrite r c v = some sh') : sh'.PatternsOk r := by
  rintro rfl
  cases c with
  | status | param | rng0 | rng1 | pool => cases hw
  | chain =>
    simp only [Shaper.csrWrite] at hw
    split at hw
    · cases hw; exact h rfl
    · cases hw
  | gain => cases hw; exact h rfl
  | coef k => cases hw; exact h rfl
  | acc k => cases hw; exact fun j => ⟨Quad.set_high k (fun i => (h rfl i).1) (accIn_float_high v) j, (h rfl j).2⟩
  | prev k => cases hw; exact fun j => ⟨(h rfl j).1, Quad.set_high k (fun i => (h rfl i).2) (accIn_float_high v) j⟩

end

/-! ## The control state -/

/-- A command is taken up only when nothing runs or waits; then HALTED and ERR are all there is to check. -/
theorem State.ControlOk.of_ready {s : State} (hr : s.cmdReady = true) (he : s.halted = true ↔ s.err ≠ .none) :
    s.ControlOk := by
  obtain ⟨hrun, hwait⟩ := (State.cmdReady_iff s).mp hr
  exact ⟨by simp [hrun], he, by simp [hwait], by simp [hrun], by simp [hrun]⟩

/-- The control state is all about the pool but HOLD and the count at PP. -/
theorem State.ControlOk.withPool {s : State} (h : s.ControlOk) {q : Pool} (hhold : q.hold = s.pool.hold)
    (hcnt : q.cnt.get q.pp = s.pool.cnt.get s.pool.pp) : State.ControlOk { s with pool := q } where
  running_not_halted := h.running_not_halted
  halted_iff_err := h.halted_iff_err
  waiting_alone := by simpa only [hhold] using h.waiting_alone
  running_seeded := h.running_seeded
  running_phase := by simpa only [hhold, State.full, hcnt] using h.running_phase

theorem Pool.hold_iff (p : Pool) : p.hold = true ↔ p.own.get p.pp = .acquired := by simp

/-- Setting the owner of a buffer that is not ACQUIRED to another such owner leaves HOLD alone. -/
theorem Pool.hold_transfer {p q : Pool} {i : Fin 4} {o : Own} (hi : p.own.get i ≠ .acquired) (ho : o ≠ .acquired)
    (hown : q.own = p.own.set i o) (hpp : q.pp = p.pp) : q.hold = p.hold := by
  rw [Bool.eq_iff_iff, Pool.hold_iff, Pool.hold_iff, hown, hpp, Quad.get_set]
  split
  · next h => rw [h]; exact ⟨fun h => absurd h ho, fun h => absurd h hi⟩
  · exact Iff.rfl

/-! ## The invariant, one lemma per kind of update -/

section
variable {s : State}

theorem State.Inv.poolOk (h : s.Inv) : s.pool.Ok s.par := ⟨h.ring, h.filled, h.mem⟩

theorem State.Inv.of_parts (hw : s.par.wf = true) (hp : s.pool.Ok s.par) (hc : s.ControlOk) (hr : s.rng.Ok)
    (hs : s.sh.PatternsOk s.par.repr) : s.Inv :=
  ⟨hw, hp.ring, hp.filled, hp.mem, hc, hr, hs⟩

/-- The invariant does not speak of the responses, UNDERRUN, the pin and the inputs to come. -/
theorem State.Inv.outputs (h : s.Inv) (u ok : Bool) (rsp : Option Rsp) (cRsp : Option Sample) (inputs : List Input) :
    State.Inv { s with underrun := u, sinkOk := ok, rsp := rsp, cRsp := cRsp, inputs := inputs } :=
  .of_parts h.par h.poolOk
    ⟨h.control.running_not_halted, h.control.halted_iff_err, h.control.waiting_alone, h.control.running_seeded,
      h.control.running_phase⟩
    h.rng h.patterns

/-- A command taken up writes the generator, the shaper or the pool, and responds. -/
theorem State.Inv.executed (h : s.Inv) (hr : s.cmdReady = true) {g : Rng} {sh : Shaper} {q : Pool} (hg : g.Ok)
    (hs : sh.PatternsOk s.par.repr) (hq : q.Ok s.par) (res : Word) :
    State.Inv (State.respond { s with rng := g, sh := sh, pool := q } res) :=
  .of_parts h.par hq (.of_ready hr h.control.halted_iff_err) hg hs

theorem State.Inv.takeFault (h : s.Inv) (hr : s.cmdReady = true) {f : ErrCode} (hf : f ≠ .none) :
    (s.takeFault f).Inv :=
  .of_parts h.par h.poolOk (.of_ready hr (by simp [hf])) h.rng h.patterns

/-- A consumer operation writes the pool, HOLD and the count at PP left alone, and responds. -/
theorem State.Inv.consumed (h : s.Inv) {q : Pool} (hq : q.Ok s.par) (hhold : q.hold = s.pool.hold)
    (hcnt : q.cnt.get q.pp = s.pool.cnt.get s.pool.pp) (v : Sample) :
    State.Inv (State.cRespond { s with pool := q } v) :=
  State.Inv.outputs (s := { s with pool := q })
    (.of_parts h.par hq (h.control.withPool hhold hcnt) h.rng h.patterns) _ _ _ _ _

/-! ### The blocked acquire -/

/-- The blocked acquire, free to go or not, while nothing runs or halts and no buffer is held. -/
theorem State.Inv.acquireOrWait (h : s.Inv) (hrun : s.running = false) (hh : s.halted = false)
    (hhold : s.pool.hold = false) : s.acquireOrWait.Inv := by
  by_cases ho : s.pool.own.get s.pool.pp = .free
  · rw [acquireOrWait_free ho]
    exact .of_parts h.par (h.poolOk.acquire h.par ho)
      (.of_ready ((State.cmdReady_iff _).mpr ⟨hrun, rfl⟩) h.control.halted_iff_err) h.rng h.patterns
  · rw [acquireOrWait_waits ho]
    exact .of_parts h.par h.poolOk
      ⟨h.control.running_not_halted, h.control.halted_iff_err, fun _ => ⟨hrun, hh, hhold⟩, h.control.running_seeded,
        h.control.running_phase⟩
      h.rng h.patterns

/-! ### Generating -/

theorem State.canStore_iff (s : State) :
    s.canStore = true ↔ s.pool.pp.val < s.par.nbuf ∧ (s.pool.cnt.get s.pool.pp).toNat < s.par.cap := by
  simp [State.canStore]

theorem State.full_iff (s : State) : s.full = true ↔ (s.pool.cnt.get s.pool.pp).toNat = s.par.cap := by
  simp [State.full]

/-- What one `gen_body` keeps, whatever the control state: it may leave the held buffer full. -/
theorem State.Inv.genBody (h : s.Inv) (ho : s.pool.own.get s.pool.pp = .acquired)
    (hc : (s.pool.cnt.get s.pool.pp).toNat < s.par.cap) :
    s.genBody.2.pool.Ok s.par ∧ s.genBody.2.rng.Ok ∧ s.genBody.2.sh.PatternsOk s.par.repr :=
  ⟨h.poolOk.store h.par _ ho hc, h.rng.normal _, h.patterns.shape _⟩

/-- FILL's repetition: as many samples as the held buffer has room for. -/
theorem State.Inv.genTimes (h : s.Inv) (hr : s.cmdReady = true) (ho : s.pool.own.get s.pool.pp = .acquired) {m : Nat}
    (hm : (s.pool.cnt.get s.pool.pp).toNat + m ≤ s.par.cap) : (s.genTimes m).Inv := by
  induction m generalizing s with
  | zero => exact h
  | succ k ih =>
    have hc : (s.pool.cnt.get s.pool.pp).toNat < s.par.cap := by omega
    obtain ⟨hp, hg, hs⟩ := h.genBody ho hc
    have hcnt : (s.genBody.2.pool.cnt.get s.genBody.2.pool.pp).toNat = (s.pool.cnt.get s.pool.pp).toNat + 1 := by
      obtain ⟨-, -, hcap, -⟩ := Params.wf_bounds h.par
      rw [← toNat_add_one_of_lt_cap hcap hc, ← Pool.store_cnt_pp]; rfl
    have hinv : s.genBody.2.Inv := .of_parts h.par hp (.of_ready hr h.control.halted_iff_err) hg hs
    exact ih hinv hr ho (by rw [hcnt, Nat.add_right_comm]; exact hm)

end

/-! ## Every step keeps the invariant -/

theorem Effect.inv {s t : State} {i : Instr} (h : Effect s i t) (hs : s.Inv) : t.Inv := by
  cases h with
  | notReady => exact hs.outputs ..
  | discarded => exact hs.outputs ..
  | faulted i f hc hr hh hf => exact hs.takeFault hr hf
  | nop => exact hs.outputs ..
  | rdcsr => exact hs.outputs ..
  | wrcsr n v c sh hr hh hn hw => exact hs.executed hr hs.rng (hs.patterns.csrWrite hw) hs.poolOk _
  | seedx v hr => exact hs.executed hr (Rng.seedX_ok _ v) hs.patterns hs.poolOk _
  | seedp a b hr => exact hs.executed hr (Rng.seedP_ok _ a b) hs.patterns hs.poolOk _
  | nextu hr => exact hs.executed hr hs.rng.draw hs.patterns hs.poolOk _
  | nextn hr => exact hs.executed hr (hs.rng.normal _) hs.patterns hs.poolOk _
  | stage k j x hr => exact hs.executed hr hs.rng (hs.patterns.stage j _) hs.poolOk _
  | clip => exact hs.outputs ..
  | shape n hr => exact hs.executed hr hs.rng (hs.patterns.shape _) hs.poolOk _
  | acq hr hh ho =>
    obtain ⟨hrun, -⟩ := (State.cmdReady_iff s).mp hr
    exact hs.acquireOrWait hrun hh (by simpa using ho)
  | put v hr hh ho hf hc =>
    have hlt := ((State.canStore_iff s).mp hc).2
    exact hs.executed hr hs.rng hs.patterns (hs.poolOk.store hs.par v ho hlt) _
  | rel hr hh ho hf =>
    exact hs.executed hr hs.rng hs.patterns (hs.poolOk.release hs.par ho ((State.full_iff s).mp hf)) _
  | gen hr hh hseed ho hf hc =>
    obtain ⟨hp, hg, hsh⟩ := hs.genBody ho ((State.canStore_iff s).mp hc).2
    exact hs.executed hr hg hsh hp _
  | fill hr hh hseed ho hc =>
    have hle := hs.filled.count_le s.pool.pp
    exact (hs.genTimes hr ho (by omega)).outputs ..
  | start hr hh hseed ho =>
    obtain ⟨-, hwait⟩ := (State.cmdReady_iff s).mp hr
    have hhold : s.pool.hold = false := by simpa using ho
    exact .of_parts hs.par hs.poolOk
      ⟨fun _ => hh, hs.control.halted_iff_err, by simp [hwait], fun _ => hseed, fun _ => hhold⟩ hs.rng hs.patterns
  | cIdle => exact hs.outputs ..
  | cTake ho =>
    exact hs.consumed (hs.poolOk.take hs.par ho)
      (Pool.hold_transfer (by rw [ho]; decide) (by decide) rfl rfl) rfl _
  | cTakeStarved => exact hs.outputs ..
  | cRead => exact hs.outputs ..
  | cReadNot => exact hs.outputs ..
  | cReturn ho =>
    exact hs.consumed (hs.poolOk.giveBack hs.par ho)
      (Pool.hold_transfer (by rw [ho]; decide) (by decide) rfl rfl) rfl _
  | cReturnNot => exact hs.outputs ..

theorem execIllegal_inv {s t : State} (h : execIllegal s = .next t) (hs : s.Inv) : t.Inv := by
  rcases execIllegal_next h with ⟨-, rfl⟩ | ⟨-, -, rfl⟩ | ⟨hr, -, rfl⟩
  · exact hs.outputs ..
  · exact hs.outputs ..
  · exact hs.takeFault hr (by decide)

/-! ### START's loop -/

/-- What the loop position asks of the pool (rule R232), as `State.ControlOk` says it while RUNNING. -/
def State.PhaseOk (s : State) : Prop :=
  (s.phase = .acquire ∧ s.pool.hold = false) ∨ (s.phase = .fill ∧ s.pool.hold = true ∧ s.full = false) ∨
    (s.phase = .release ∧ s.pool.hold = true ∧ s.full = true)

/-- While START's loop runs, its next position is all there is to check of the control state. -/
theorem State.ControlOk.of_running {s t : State} (h : s.ControlOk) (hrun : s.running = true)
    (hr : t.running = s.running) (hh : t.halted = s.halted) (he : t.err = s.err) (hw : t.waiting = s.waiting)
    (hseed : t.rng.seeded = s.rng.seeded) (hp : t.PhaseOk) : t.ControlOk where
  running_not_halted := by rw [hr, hh]; exact h.running_not_halted
  halted_iff_err := by rw [hh, he]; exact h.halted_iff_err
  waiting_alone := fun hwait => by
    obtain ⟨hstop, -⟩ := h.waiting_alone (hw ▸ hwait)
    exact absurd hrun (by simp [hstop])
  running_seeded := by rw [hr, hseed]; exact h.running_seeded
  running_phase := fun _ => by
    rcases hp with ⟨hp, h⟩ | ⟨hp, h⟩ | ⟨hp, h⟩ <;> rw [hp] <;> exact h

/-- After its release the ring has no ACQUIRED place. -/
theorem Pool.hold_release {n : Nat} {p : Pool} (hp : p.Ring n) (h0 : 0 < n) (h4 : n ≤ 4)
    (ho : p.own.get p.pp = .acquired) : (Pool.release n p).hold = false := by
  obtain ⟨f, r, h, hr⟩ := hp
  have hpp := (hr.release h0 h4 ho).2.own_pp h0 h4
  rw [Pool.hold_eq, hpp, if_neg (show ¬(0 = 1) by decide)]
  split_ifs <;> rfl

theorem loopStep_inv {s t : State} (h : loopStep s = .next t) (hs : s.Inv) (hrun : s.running = true) : t.Inv := by
  have hphase := hs.control.running_phase hrun
  rcases loopStep_next h with ⟨-, ho, rfl⟩ | ⟨-, -, rfl⟩ | ⟨hp, hc, rfl⟩ | ⟨hp, rfl⟩
  · have hfull : State.full { s with pool := s.pool.acquire, phase := .fill } = false := by
      have hcap := (Params.wf_bounds hs.par).2.1
      simp [State.full]; omega
    exact .of_parts hs.par (hs.poolOk.acquire hs.par ho)
      (hs.control.of_running hrun rfl rfl rfl rfl rfl (.inr (.inl ⟨rfl, by simp, hfull⟩))) hs.rng hs.patterns
  · exact hs
  · rw [hp] at hphase
    obtain ⟨hhold, -⟩ := hphase
    obtain ⟨hpool, hg, hsh⟩ := hs.genBody ((Pool.hold_iff _).mp hhold) ((State.canStore_iff s).mp hc).2
    refine .of_parts hs.par hpool (hs.control.of_running hrun rfl rfl rfl rfl (Rng.normal_seeded _ _) ?_) hg hsh
    cases hf : s.genBody.2.full
    · exact .inr (.inl ⟨by simp, hhold, hf⟩)
    · exact .inr (.inr ⟨by simp, hhold, hf⟩)
  · rw [hp] at hphase
    obtain ⟨hhold, hfull⟩ := hphase
    have ho := (Pool.hold_iff _).mp hhold
    exact .of_parts hs.par (hs.poolOk.release hs.par ho ((State.full_iff s).mp hfull))
      (hs.control.of_running hrun rfl rfl rfl rfl rfl
        (.inl ⟨rfl, Pool.hold_release hs.ring (Params.wf_nbuf_pos hs.par) (Params.wf_nbuf_le hs.par) ho⟩))
      hs.rng hs.patterns

theorem producerStep_inv {s t : State} (h : producerStep s = .next t) (hs : s.Inv) : t.Inv := by
  rcases producerStep_cases s with ⟨hrun, hp⟩ | ⟨hrun, hwait, hp⟩ | ⟨-, -, hp⟩ <;> rw [hp] at h
  · exact loopStep_inv h hs hrun
  · obtain ⟨-, hh, hhold⟩ := hs.control.waiting_alone hwait
    rw [← next_inj h]
    exact hs.acquireOrWait hrun hh hhold
  · rwa [← next_inj h]

/-! ### Reset -/

/-- The ring of a reset pool is empty, and nothing has been counted or written. -/
theorem State.resetOf_poolOk {p : Params} (hp : p.wf = true) : (State.resetOf p).pool.Ok p where
  ring := ⟨0, 0, 0, Nat.zero_le _, Nat.zero_le _, Params.wf_nbuf_pos hp, by simp [State.resetOf, ringAt],
    by simp [State.resetOf, ringAt], by simp [State.resetOf, ringOwn]⟩
  filled := by constructor <;> simp [State.resetOf]
  mem := ⟨rfl, by simp [State.resetOf]⟩

theorem State.resetOf_patterns (p : Params) : (State.resetOf p).sh.PatternsOk p.repr := fun _ k => by
  simp [State.resetOf]

theorem State.resetOf_inv {p : Params} (hp : p.wf = true) : (State.resetOf p).Inv :=
  .of_parts hp (State.resetOf_poolOk hp) (.of_ready rfl (by simp [State.resetOf]))
    ⟨by simp [State.resetOf], by simp [State.resetOf]⟩ (State.resetOf_patterns p)

/-- Settles O52: the reset values are those of the invariant's empty ring, with nothing written. -/
theorem invariantAtReset : Obligations.InvariantAtReset := fun _ inputs ok hp =>
  (State.resetOf_inv hp).outputs _ ok _ _ inputs

theorem State.applyReset_inv {s : State} (hp : s.par.wf = true) : s.applyReset.Inv :=
  have h := (State.resetOf_inv hp).outputs false s.sinkOk none none s.inputs
  .of_parts h.par h.poolOk (.of_ready rfl h.control.halted_iff_err) h.rng h.patterns

/-! ### The step -/

theorem perform_inv {e : Input} {s t : State} (h : perform e s = .next t) (hs : s.Inv) : t.Inv := by
  rcases perform_next h with ⟨_, _, _, _, hx⟩ | ⟨_, _, _, _, hx⟩ | ⟨_, hx⟩ | ⟨_, _, rfl⟩ | ⟨_, rfl⟩
  · exact (exec_effect hx).inv hs
  · exact execIllegal_inv hx hs
  · exact producerStep_inv hx hs
  · exact hs.outputs ..
  · exact State.applyReset_inv hs.par

/-- Settles O53: taking the input off the list keeps the invariant, and so does whatever the step then does. -/
theorem invariantKeptByEveryStep : Obligations.InvariantKeptByEveryStep := fun s t hs h => by
  have hafter : s.afterInput.Inv := hs.outputs ..
  rcases step_cases s with ⟨-, hstep⟩ | ⟨-, -, hstep⟩ | ⟨-, _, _, -, hstep⟩ <;> rw [hstep] at h
  · cases h
  · exact producerStep_inv h hafter
  · exact perform_inv h hafter

end Sys2Proof.Machine

/-! SUPPORT. The assembled registers field by field (`10_state.md` rule R42 to rule R46), and the reset values
(rule R51). -/

namespace Sys2Proof.Machine

/-! ## STATUS -/

section
variable (s : State)

theorem State.status_seeded : s.status.getLsbD 0 = s.rng.seeded := by
  simp only [State.status, BitVec.getLsbD_append, BitVec.getLsbD_ofBool]; rfl

theorem State.status_alg : s.status.getLsbD 1 = s.rng.alg.bit := by
  simp only [State.status, BitVec.getLsbD_append, BitVec.getLsbD_ofBool]; rfl

theorem State.status_running : s.status.getLsbD 2 = s.running := by
  simp only [State.status, BitVec.getLsbD_append, BitVec.getLsbD_ofBool]; rfl

theorem State.status_halted : s.status.getLsbD 3 = s.halted := by
  simp only [State.status, BitVec.getLsbD_append, BitVec.getLsbD_ofBool]; rfl

theorem State.status_err : s.status.extractLsb' 4 4 = s.err.code := by
  simp (disch := decide) only [State.status, BitVec.extractLsb'_append_eq_of_le, BitVec.extractLsb'_append_eq_right,
    Nat.reduceSub]

theorem State.status_hold : s.status.getLsbD 8 = s.pool.hold := by
  simp only [State.status, BitVec.getLsbD_append, BitVec.getLsbD_ofBool]; rfl

theorem State.status_xsZero : s.status.getLsbD 9 = s.rng.xsZero := by
  simp only [State.status, BitVec.getLsbD_append, BitVec.getLsbD_ofBool]; rfl

theorem State.status_upper : s.status.extractLsb' 10 54 = 0 := by
  simp (disch := decide) only [State.status, BitVec.extractLsb'_append_eq_of_le, BitVec.extractLsb'_eq_self,
    Nat.reduceSub]

end

theorem Alg.bit_iff (a : Alg) : a.bit = true ↔ a = .pcg32 := by simp [Alg.bit]

theorem Rng.xsZero_iff (r : Rng) : r.xsZero = true ↔ r.seeded = true ∧ r.alg = .xs32 ∧ r.xs = 0 := by
  simp [Rng.xsZero, and_assoc]

/-- Settles O3, field by field; the codes of ERR are those of the table. -/
theorem statusFields : Obligations.StatusFields := fun s => by
  refine ⟨s.status_seeded, ?_, s.status_running, s.status_halted, ?_, ?_, ?_, s.status_upper⟩
  · rw [s.status_alg, Alg.bit_iff]
  · rw [s.status_err]; cases s.err <;> rfl
  · rw [s.status_hold, Pool.hold_iff]
  · rw [s.status_xsZero, Rng.xsZero_iff]

/-! ## PARAM -/

section
variable (p : Params)

theorem paramWord_nbuf : (paramWord p).extractLsb' 0 4 = BitVec.ofNat 4 p.nbuf :=
  BitVec.extractLsb'_append_eq_right

theorem paramWord_nstage : (paramWord p).extractLsb' 4 4 = BitVec.ofNat 4 Config.nstage := by
  simp (disch := decide) only [paramWord, BitVec.extractLsb'_append_eq_of_le, BitVec.extractLsb'_append_eq_right,
    Nat.reduceSub]

theorem paramWord_ndraw : (paramWord p).extractLsb' 8 4 = BitVec.ofNat 4 p.ndraw := by
  simp (disch := decide) only [paramWord, BitVec.extractLsb'_append_eq_of_le, BitVec.extractLsb'_append_eq_right,
    Nat.reduceSub]

theorem paramWord_repr : (paramWord p).getLsbD 12 = reprBit p.repr := by
  simp only [paramWord, BitVec.getLsbD_append, BitVec.getLsbD_ofBool]; rfl

theorem paramWord_reserved : (paramWord p).extractLsb' 13 19 = 0 := by
  simp (disch := decide) only [paramWord, BitVec.extractLsb'_append_eq_of_le, BitVec.extractLsb'_append_eq_right,
    Nat.reduceSub]

theorem paramWord_cap : (paramWord p).extractLsb' 32 32 = BitVec.ofNat 32 p.cap := by
  simp (disch := decide) only [paramWord, BitVec.extractLsb'_append_eq_of_le, BitVec.extractLsb'_eq_self,
    Nat.reduceSub]

end

theorem reprBit_iff (r : NumRepr) : reprBit r = true ↔ r = .float := by simp [reprBit]

/-! ## CHAIN -/

theorem chainWord_nibbles (k0 k1 k2 k3 : Kind) :
    (chainWord k0 k1 k2 k3).extractLsb' 0 4 = k0.code ∧ (chainWord k0 k1 k2 k3).extractLsb' 4 4 = k1.code ∧
      (chainWord k0 k1 k2 k3).extractLsb' 8 4 = k2.code ∧ (chainWord k0 k1 k2 k3).extractLsb' 12 4 = k3.code := by
  simp (disch := decide) only [chainWord, BitVec.extractLsb'_append_eq_of_le, BitVec.extractLsb'_append_eq_right,
    BitVec.extractLsb'_eq_self, Nat.reduceSub, and_self]

theorem Shaper.chainReg_nibble (sh : Shaper) (k : Fin 4) :
    sh.chainReg.extractLsb' (4 * k.val) 4 = (sh.chain.get k).code := by
  obtain ⟨h0, h1, h2, h3⟩ := chainWord_nibbles (sh.chain.get 0) (sh.chain.get 1) (sh.chain.get 2) (sh.chain.get 3)
  fin_cases k
  exacts [h0, h1, h2, h3]

/-! ## POOL -/

section
variable (p : Pool)

theorem Pool.word_pp : p.word.extractLsb' 0 4 = BitVec.ofNat 4 p.pp.val :=
  BitVec.extractLsb'_append_eq_right

theorem Pool.word_reserved_low : p.word.extractLsb' 4 4 = 0 := by
  simp (disch := decide) only [Pool.word, BitVec.extractLsb'_append_eq_of_le, BitVec.extractLsb'_append_eq_right,
    Nat.reduceSub]

theorem Pool.word_hold : p.word.getLsbD 8 = p.hold := by
  simp only [Pool.word, BitVec.getLsbD_append, BitVec.getLsbD_ofBool]; rfl

theorem Pool.word_reserved_high : p.word.extractLsb' 9 23 = 0 := by
  simp (disch := decide) only [Pool.word, BitVec.extractLsb'_append_eq_of_le, BitVec.extractLsb'_append_eq_right,
    Nat.reduceSub]

theorem Pool.word_count : p.word.extractLsb' 32 32 = if p.hold then p.cnt.get p.pp else 0 := by
  simp (disch := decide) only [Pool.word, BitVec.extractLsb'_append_eq_of_le, BitVec.extractLsb'_eq_self,
    Nat.reduceSub]

end

/-- Settles O4, field by field; a legal parameter fits its field. -/
theorem paramChainPoolFields : Obligations.ParamChainPoolFields := fun s hw => by
  obtain ⟨hn, -, hcap, hd⟩ := Params.wf_bounds hw
  refine ⟨?_, ?_, ?_, ?_, paramWord_reserved _, ?_, fun k => ?_, ?_, Pool.word_reserved_low _, ?_,
    Pool.word_reserved_high _, fun ho => ?_, fun ho => ?_⟩
  · rw [paramWord_nbuf, BitVec.toNat_ofNat, Nat.mod_eq_of_lt (by omega)]
  · rw [paramWord_nstage]; rfl
  · rw [paramWord_ndraw, BitVec.toNat_ofNat, Nat.mod_eq_of_lt (by omega)]
  · rw [paramWord_repr, reprBit_iff]
  · rw [paramWord_cap, BitVec.toNat_ofNat, Nat.mod_eq_of_lt hcap]
  · rw [s.sh.chainReg_nibble]; cases s.sh.chain.get k <;> rfl
  · rw [Pool.word_pp, BitVec.toNat_ofNat, Nat.mod_eq_of_lt (by omega)]
  · rw [Pool.word_hold, Pool.hold_iff]
  · rw [Pool.word_count, if_pos ((Pool.hold_iff _).mpr ho)]
  · rw [Pool.word_count, if_neg (mt (Pool.hold_iff _).mp ho)]

/-! ## Reset -/

theorem step_rstPulse {s : State} {rest : List Input} (hw : s.par.wf = true) (hi : s.inputs = .rstPulse :: rest) :
    step s = .next s.afterInput.applyReset := by
  rw [step_legal hw, stepLegal, hi]; rfl

theorem gainReset_eq (r : NumRepr) : gainReset r = if r = .fixed then 0x00008000 else 0x3F000000 := by
  cases r <;> rfl

/-- Settles O48: the step is `applyReset` after the pulse is taken off the list. -/
theorem resetValues : Obligations.ResetValues := fun s rest hw hi => by
  refine ⟨s.afterInput.applyReset, step_rstPulse hw hi, rfl, ?_, rfl, rfl, rfl, fun k => ?_, gainReset_eq _,
    fun i => ?_, rfl, rfl, rfl, rfl, rfl, rfl, rfl, rfl, rfl, rfl⟩
  · exact congrArg List.tail hi
  · exact ⟨Quad.get_all _ k, Quad.get_all _ k, Quad.get_all _ k, Quad.get_all _ k⟩
  · exact ⟨Quad.get_all _ i, Quad.get_all _ i⟩

end Sys2Proof.Machine

/-! SUPPORT. Noninterference of the sample memory and the sample stream (`20_memory.md` rule R77, rule R80). -/

namespace Sys2Proof.Machine

/-! ## A sample changes only while its buffer is ACQUIRED -/

/-- Every slot of every buffer that is not ACQUIRED in `p` reads in `q` as it does in `p` (rule R77). -/
def Pool.SamplesKept (cap : Nat) (p q : Pool) : Prop :=
  ∀ (i : Fin 4) (slot : Nat), slot < cap → p.own.get i ≠ .acquired →
    Mem.readSample q.mem (sampleAddr cap i.val slot) = Mem.readSample p.mem (sampleAddr cap i.val slot)

/-- A slot's address tells its buffer (rule R71). -/
theorem sampleAddr_div {cap slot : Nat} (i : Nat) (hs : slot < cap) : sampleAddr cap i slot / cap = i := by
  rw [sampleAddr, Nat.mul_comm, Nat.mul_add_div (by omega), Nat.div_eq_of_lt hs, Nat.add_zero]

theorem sampleAddr_ne {cap i j slot slot' : Nat} (hs : slot < cap) (hs' : slot' < cap) (hij : i ≠ j) :
    sampleAddr cap i slot ≠ sampleAddr cap j slot' := fun h =>
  hij (by rw [← sampleAddr_div i hs, h, sampleAddr_div j hs'])

section
variable {cap : Nat} {p q : Pool}

theorem Pool.SamplesKept.of_mem_eq (h : q.mem = p.mem) : p.SamplesKept cap q := fun _ _ _ _ => by rw [h]

theorem Pool.SamplesKept.trans {u : Pool} (hpq : p.SamplesKept cap q) (hown : q.own = p.own)
    (hqu : q.SamplesKept cap u) : p.SamplesKept cap u := fun i slot hs ho =>
  (hqu i slot hs (by rwa [hown])).trans (hpq i slot hs ho)

/-- A store goes to a slot of the held buffer. -/
theorem Pool.store_samplesKept (v : Sample) (ho : p.own.get p.pp = .acquired) (hc : (p.cnt.get p.pp).toNat < cap) :
    p.SamplesKept cap (p.store cap v) := fun i slot hs hi => by
  have hne : i.val ≠ p.pp.val := fun h => hi (by rw [Fin.ext h, ho])
  exact Mem.readSample_writeSample_other _ v (sampleAddr_ne hs hc hne)

end

section
variable {s t : State}

/-- FILL's stores go to slots of the held buffer as long as it has room for them. -/
theorem State.genTimes_samplesKept {m : Nat} (ho : s.pool.own.get s.pool.pp = .acquired)
    (hm : (s.pool.cnt.get s.pool.pp).toNat + m ≤ s.par.cap) : s.pool.SamplesKept s.par.cap (s.genTimes m).pool := by
  induction m generalizing s with
  | zero => exact .of_mem_eq rfl
  | succ k ih =>
    have hcnt : (s.genBody.2.pool.cnt.get s.genBody.2.pool.pp).toNat ≤ (s.pool.cnt.get s.pool.pp).toNat + 1 :=
      calc (s.genBody.2.pool.cnt.get s.genBody.2.pool.pp).toNat
        _ = (s.pool.cnt.get s.pool.pp + 1).toNat := congrArg BitVec.toNat (Pool.store_cnt_pp ..)
        _ ≤ (s.pool.cnt.get s.pool.pp).toNat + 1 := by rw [BitVec.toNat_add]; exact Nat.mod_le _ _
    have hrest : s.genBody.2.pool.SamplesKept s.par.cap (s.genBody.2.genTimes k).pool :=
      ih (s := s.genBody.2) ho (show _ ≤ s.par.cap by omega)
    exact (Pool.store_samplesKept _ ho (by omega)).trans rfl hrest

theorem acquireOrWait_mem (s : State) : s.acquireOrWait.pool.mem = s.pool.mem := by
  unfold State.acquireOrWait
  split <;> rfl

/-- PUT, GEN and FILL alone write samples, each into the held buffer. -/
theorem Effect.samplesKept {i : Instr} (h : Effect s i t) : s.pool.SamplesKept s.par.cap t.pool := by
  cases h with
  | acq => exact .of_mem_eq (acquireOrWait_mem s)
  | put v hr hh ho hf hc => exact Pool.store_samplesKept v ho ((State.canStore_iff s).mp hc).2
  | gen hr hh hs ho hf hc => exact Pool.store_samplesKept _ ho ((State.canStore_iff s).mp hc).2
  | fill hr hh hs ho hc =>
    rw [State.full_iff, State.canStore_iff] at hc
    exact State.genTimes_samplesKept ho (by omega)
  | _ => exact .of_mem_eq rfl

theorem execIllegal_samplesKept (h : execIllegal s = .next t) : s.pool.SamplesKept s.par.cap t.pool := by
  rcases execIllegal_next h with ⟨-, rfl⟩ | ⟨-, -, rfl⟩ | ⟨-, -, rfl⟩ <;> exact .of_mem_eq rfl

/-- START's loop stores in its fill phase alone, in which the invariant has it hold a buffer. -/
theorem loopStep_samplesKept (h : loopStep s = .next t) (hs : s.Inv) (hrun : s.running = true) :
    s.pool.SamplesKept s.par.cap t.pool := by
  rcases loopStep_next h with ⟨-, -, rfl⟩ | ⟨-, -, rfl⟩ | ⟨hp, hc, rfl⟩ | ⟨-, rfl⟩
  · exact .of_mem_eq rfl
  · exact .of_mem_eq rfl
  · have hphase := hs.control.running_phase hrun
    rw [hp] at hphase
    exact Pool.store_samplesKept _ ((Pool.hold_iff _).mp hphase.1) ((State.canStore_iff s).mp hc).2
  · exact .of_mem_eq rfl

theorem producerStep_samplesKept (h : producerStep s = .next t) (hs : s.Inv) :
    s.pool.SamplesKept s.par.cap t.pool := by
  rcases producerStep_cases s with ⟨hrun, hp⟩ | ⟨-, -, hp⟩ | ⟨-, -, hp⟩ <;> rw [hp] at h
  · exact loopStep_samplesKept h hs hrun
  · rw [← next_inj h]; exact .of_mem_eq (acquireOrWait_mem s)
  · rw [next_inj h]; exact .of_mem_eq rfl

theorem perform_samplesKept {e : Input} (h : perform e s = .next t) (hs : s.Inv) (he : e ≠ .rstPulse) :
    s.pool.SamplesKept s.par.cap t.pool := by
  rcases perform_next h with ⟨_, _, _, _, hx⟩ | ⟨_, _, _, _, hx⟩ | ⟨_, hx⟩ | ⟨_, _, rfl⟩ | ⟨hrst, _⟩
  · exact (exec_effect hx).samplesKept
  · exact execIllegal_samplesKept hx
  · exact producerStep_samplesKept hx hs
  · exact .of_mem_eq rfl
  · exact absurd hrst he

/-- Taking the input off the list leaves the pool alone, and whatever the step then does keeps the samples. -/
theorem step_samplesKept (h : step s = .next t) (hs : s.Inv) (hrst : s.inputs.head? ≠ some .rstPulse) :
    s.pool.SamplesKept s.par.cap t.pool := by
  have hafter : s.afterInput.Inv := hs.outputs ..
  rw [← s.afterInput_pool, ← s.afterInput_par]
  rcases step_cases s with ⟨-, hstep⟩ | ⟨-, -, hstep⟩ | ⟨-, e, _, hi, hstep⟩ <;> rw [hstep] at h
  · cases h
  · exact producerStep_samplesKept h hafter
  · exact perform_samplesKept h hafter (by rintro rfl; exact hrst (by rw [hi]; rfl))

end

/-- Settles O58, by the cases of a step: whatever stores a sample does so in a buffer that is ACQUIRED. -/
theorem samplesChangeOnlyWhileAcquired : Obligations.SamplesChangeOnlyWhileAcquired := fun _ _ hs h hrst =>
  step_samplesKept h hs hrst

/-! ## The stream does not depend on the buffers -/

/-- GEN meets no fault exactly when it is seeded and holds a buffer that is not full (rule R289). -/
theorem faultOf_gen_eq_none_iff (s : State) :
    faultOf s .gen = none ↔ s.rng.seeded = true ∧ s.pool.hold = true ∧ s.full = false := by
  rw [Pool.hold_iff, ← Bool.not_eq_true, State.full_iff]
  cases hs : s.rng.seeded <;> simp [faultOf, hs]

/-- A GEN that meets no fault is one `gen_body` and its sample as the response (rule R228). -/
theorem exec_gen_next {s t : State} (h : exec .gen s = .next t) (ha : s.Accepts) (hf : faultOf s .gen = none) :
    t = s.genBody.2.respond (sampleRes s.genBody.1) := by
  obtain ⟨hrun, hwait, hhalt⟩ := ha
  obtain ⟨hseed, hhold, hfull⟩ := (faultOf_gen_eq_none_iff s).mp hf
  change execGen s = .next t at h
  rw [execGen, command_accepts hrun hwait hhalt, seededOnly_seeded hseed, hhold, hfull] at h
  cases hc : s.canStore <;> rw [hc] at h
  · cases h
  · exact (next_inj h).symm

/-- What `gen_body` makes of generator and shaper depends on them, NDRAW and REPR only (rule R80). -/
theorem State.genBody_congr {s s' : State} (hrng : s.rng = s'.rng) (hsh : s.sh = s'.sh)
    (hndraw : s.par.ndraw = s'.par.ndraw) (hrepr : s.par.repr = s'.par.repr) :
    s.genBody.1 = s'.genBody.1 ∧ s.genBody.2.rng = s'.genBody.2.rng ∧ s.genBody.2.sh = s'.genBody.2.sh := by
  simp only [State.genBody_eq, hrng, hsh, hndraw, hrepr, and_self]

theorem acquireOrWait_rng_sh (s : State) : s.acquireOrWait.rng = s.rng ∧ s.acquireOrWait.sh = s.sh := by
  unfold State.acquireOrWait
  split <;> exact ⟨rfl, rfl⟩

/-- ACQ waits, acquires or faults. -/
theorem Effect.acq_rng_sh {s t : State} (h : Effect s .acq t) : t.rng = s.rng ∧ t.sh = s.sh := by
  cases h with
  | acq => exact acquireOrWait_rng_sh s
  | _ => exact ⟨rfl, rfl⟩

/-- Settles O59: GEN is one `gen_body`, and each effect of the other operations is an update of other fields. -/
theorem streamIgnoresBufferBoundaries : Obligations.StreamIgnoresBufferBoundaries := by
  refine ⟨fun s t s' t' h h' ha ha' hf hf' hrng hsh hndraw hrepr => ?_, fun i s t h => ?_⟩
  · obtain ⟨hy, hrng, hsh⟩ := State.genBody_congr hrng hsh hndraw hrepr
    rw [exec_gen_next h ha hf, exec_gen_next h' ha' hf', State.respond_rsp, State.respond_rsp, hy]
    exact ⟨rfl, hrng, hsh⟩
  · have heff := exec_effect h
    cases i with
    | acq => exact heff.acq_rng_sh
    | put | rel | cIdle | cTake | cRead | cReturn => cases heff <;> exact ⟨rfl, rfl⟩
    | _ => trivial

end Sys2Proof.Machine

/-! SUPPORT. The encoding (`30_encoding.md`): decoder against encoder, the unassigned opcodes, the words a step
takes up, and the reserved operand values. -/

namespace Sys2Proof.Machine

/-! ## Decoder and encoder -/

/-- An operand narrower than its port is the decoder's field of its own zero extension (rule R103). -/
theorem decode_encode (i : Instr) : decode (encode i) = .ok i := by
  cases i with
  | rdcsr n => exact congrArg (fun m => Except.ok (Instr.rdcsr m)) (extractLsb'_setWidth_low n 64 (by decide))
  | wrcsr n v => exact congrArg (fun m => Except.ok (Instr.wrcsr m v)) (extractLsb'_setWidth_low n 64 (by decide))
  | seedx v => exact congrArg (fun m => Except.ok (Instr.seedx m)) (extractLsb'_setWidth_low v 64 (by decide))
  | stage k x => exact congrArg (fun m => Except.ok (Instr.stage m x)) (extractLsb'_setWidth_low k 64 (by decide))
  | shape n => exact congrArg (fun m => Except.ok (Instr.shape m)) (extractLsb'_setWidth_low n 64 (by decide))
  | put v => exact congrArg (fun m => Except.ok (Instr.put m)) (extractLsb'_setWidth_low v 64 (by decide))
  | _ => rfl

theorem encode_canonical (i : Instr) : (encode i).canonical = true := by
  cases i with
  | rdcsr n => exact Laws.EncodeCanonical.rdcsr n
  | wrcsr n v => exact Laws.EncodeCanonical.wrcsr n v
  | seedx v => exact Laws.EncodeCanonical.seedx v
  | stage k x => exact Laws.EncodeCanonical.stage k x
  | shape n => exact Laws.EncodeCanonical.shape n
  | put v => exact Laws.EncodeCanonical.put v
  | _ => rfl

section
variable {op : BitVec 8} {a b : Word}

/-- Both operands are ignored, so a canonical command has 0 there. -/
theorem Cmd.zero_operands (h : (a == 0 && b == 0) = true) : (⟨op, 0, 0⟩ : Cmd) = ⟨op, a, b⟩ := by
  obtain ⟨rfl, rfl⟩ : a = 0 ∧ b = 0 := by simpa using h
  rfl

/-- Only `a[n-1:0]` is read, so a canonical command has that field zero-extended in `a` and 0 in `b`. -/
theorem Cmd.zero_above_field {n m : Nat} (hm : n + m = 64) (h : (a.extractLsb' n m == 0 && b == 0) = true) :
    (⟨op, (a.extractLsb' 0 n).setWidth 64, 0⟩ : Cmd) = ⟨op, a, b⟩ := by
  obtain ⟨ha, rfl⟩ : a.extractLsb' n m = 0 ∧ b = 0 := by simpa using h
  rw [setWidth_extractLsb'_low a hm ha]

/-- `a[7:0]` and `b` are read, so a canonical command has the number zero-extended in `a`. -/
theorem Cmd.zero_above_number (h : (a.extractLsb' 8 56 == 0) = true) :
    (⟨op, (a.extractLsb' 0 8).setWidth 64, b⟩ : Cmd) = ⟨op, a, b⟩ := by
  rw [setWidth_extractLsb'_low a rfl (beq_iff_eq.mp h)]

end

/-- Instruction by instruction: its opcode is the command's, and the operand bits it does not hold are 0. -/
theorem encode_of_decodeCmd {c : Cmd} {i : Instr} (h : decodeCmd c = .ok i) (hc : c.canonical = true) :
    encode i = .cmd c := by
  obtain ⟨op, a, b⟩ := c
  have hi := decodeCmd_inv h
  cases i with
  | nop | nextu | nextn | acq | rel | gen | fill | start =>
    obtain rfl := by simpa using hi
    exact congrArg PortWord.cmd (Cmd.zero_operands hc)
  | rdcsr | seedx | shape | put =>
    obtain ⟨rfl, rfl⟩ := by simpa using hi
    exact congrArg PortWord.cmd (Cmd.zero_above_field rfl hc)
  | wrcsr | stage =>
    obtain ⟨rfl, rfl, rfl⟩ := by simpa using hi
    exact congrArg PortWord.cmd (Cmd.zero_above_number hc)
  | seedp =>
    obtain ⟨rfl, rfl, rfl⟩ := by simpa using hi
    rfl
  | clip =>
    obtain ⟨rfl, rfl⟩ := by simpa using hi
    obtain rfl := beq_iff_eq.mp hc
    rfl
  | cIdle | cTake | cRead | cReturn => simp at hi

theorem encode_decodeCons_zero : ∀ op : BitVec 2, encode (decodeCons ⟨op, 0, 0⟩) = .cons ⟨op, 0, 0⟩ := by decide

/-- C_READ holds both of its operands; any other consumer operation is canonical with 0 in both (rule R104). -/
theorem encode_decodeCons {o : ConsOp} (hc : o.canonical = true) : encode (decodeCons o) = .cons o := by
  obtain ⟨op, idx, slot⟩ := o
  have hop : op = 2 ∨ idx = 0 ∧ slot = 0 := by simpa [ConsOp.canonical] using hc
  rcases hop with rfl | ⟨rfl, rfl⟩
  · rfl
  · exact encode_decodeCons_zero op

theorem encode_of_decode {w : PortWord} {i : Instr} (h : decode w = .ok i) (hc : w.canonical = true) :
    encode i = w := by
  cases w with
  | cmd c => exact encode_of_decodeCmd h hc
  | cons o =>
    obtain rfl : decodeCons o = i := by injection h
    exact encode_decodeCons hc

theorem Cmd.ofWord_toWord (c : Cmd) : Cmd.ofWord c.toWord = c := by
  simp (disch := decide) only [Cmd.ofWord, Cmd.toWord, BitVec.extractLsb'_append_eq_of_le,
    BitVec.extractLsb'_append_eq_right, BitVec.extractLsb'_eq_self, Nat.reduceSub]

/-- Settles O51: each direction instruction by instruction, and the fields of the command word. -/
theorem encodingRoundTrip : Obligations.EncodingRoundTrip :=
  ⟨fun i => ⟨decode_encode i, encode_canonical i⟩, fun _ _ => encode_of_decode, Cmd.ofWord_toWord⟩

/-- Settles O50: the decoder run on each word. -/
theorem sampleWordsDecode : Obligations.SampleWordsDecode := ⟨rfl, rfl, rfl, rfl, rfl⟩

/-- Settles O40: C_IDLE reads no operand and no state. -/
theorem idleChangesNothing : Obligations.IdleChangesNothing := fun _ _ _ => ⟨rfl, rfl, rfl⟩

/-! ## What a step takes up -/

section
variable {s : State} {w : PortWord} {rest : List Input}

theorem State.afterInput_cons {e : Input} (hi : s.inputs = e :: rest) :
    s.afterInput = { s with rsp := none, cRsp := none, inputs := rest } := by
  rw [State.afterInput, hi]; rfl

theorem step_port (hw : s.par.wf = true) (hi : s.inputs = .port w :: rest) :
    step s = perform (.port w) { s with rsp := none, cRsp := none, inputs := rest } := by
  rw [← State.afterInput_cons hi, step_legal hw, stepLegal, hi]

theorem perform_port_ok {i : Instr} (h : decode w = .ok i) (s : State) : perform (.port w) s = exec i s := by
  rw [perform, h]

theorem perform_port_error {d : DecodeError} (h : decode w = .error d) (s : State) :
    perform (.port w) s = execIllegal s := by
  rw [perform, h]

theorem decode_of_decodeTableWord {nbits w : Nat} {i : Instr} (h : decodeTableWord nbits w = some i) :
    decode (tablePort nbits w) = .ok i := by
  unfold decodeTableWord at h
  split at h
  · next hd => rwa [Option.some.inj h] at hd
  · cases h

end

/-- Settles O49: a port word is performed by its instruction, and a table word stands first in the list. -/
theorem stepRunsTheDecodedInstruction : Obligations.StepRunsTheDecodedInstruction :=
  ⟨fun _ _ _ _ hw hi hd => (step_port hw hi).trans (perform_port_ok hd _),
    fun s _ _ _ hw hd => (step_port (s := s.withFetchWord _ _) hw rfl).trans
      (perform_port_ok (decode_of_decodeTableWord hd) _)⟩

/-! ## Unassigned opcodes -/

/-- The sixteen opcodes of rule R102. -/
def assignedOps : List (BitVec 8) :=
  [0x00, 0x01, 0x02, 0x10, 0x11, 0x12, 0x13, 0x20, 0x21, 0x22, 0x30, 0x31, 0x32, 0x33, 0x34, 0x3F]

theorem decodeCmd_of_assigned {c : Cmd} (h : c.op ∈ assignedOps) : ∃ i, decodeCmd c = .ok i := by
  obtain ⟨op, a, b⟩ := c
  fin_cases h <;> exact ⟨_, rfl⟩

theorem assigned_of_decodeCmd {c : Cmd} {i : Instr} (h : decodeCmd c = .ok i) : c.op ∈ assignedOps := by
  rcases decodeCmd_inv h with ho | ho | ho | ho | ho | ho | ho | ho | ho | ho | ho | ho | ho | ho | ho | ho <;>
    simp [assignedOps, ho.1]

theorem decodeCmd_of_unassigned {c : Cmd} (h : c.op ∉ assignedOps) : ∃ d, decodeCmd c = .error d := by
  cases hd : decodeCmd c with
  | ok i => exact absurd (assigned_of_decodeCmd hd) h
  | error d => exact ⟨d, rfl⟩

theorem execIllegal_accepts {s : State} (ha : s.Accepts) : execIllegal s = .next (s.takeFault .illegalCmd) := by
  obtain ⟨hrun, hwait, hhalt⟩ := ha
  exact command_accepts hrun hwait hhalt

/-- Settles O45: an opcode the decoder does not know is performed by `execIllegal`, which takes the fault. -/
theorem unassignedOpcodesFault : Obligations.UnassignedOpcodesFault := fun c =>
  ⟨decodeCmd_of_assigned, fun h s rest hw ha hi => by
    obtain ⟨d, hd⟩ := decodeCmd_of_unassigned h
    rw [step_port hw hi, perform_port_error (w := .cmd c) hd]
    exact execIllegal_accepts ha⟩

/-! ## Reserved operand values -/

/-- A CSR number names a register exactly when it is in the map (rule R41). -/
theorem Csr.ofNum_isSome : ∀ n : BitVec 8, (Csr.ofNum n).isSome = csrDefined n := by decide

theorem Csr.num_of_ofNum {n : BitVec 8} {c : Csr} (h : Csr.ofNum n = some c) : c.num = n := by
  have hall : ∀ m : BitVec 8, (Csr.ofNum m).all (fun d => d.num == m) = true := by decide
  simpa [h] using hall n

theorem Kind.ofNibble_isSome : ∀ v : BitVec 4, (Kind.ofNibble v).isSome = decide (v.toNat ≤ 3) := by decide

theorem chainOf_isSome (v : Word) : (chainOf v).isSome = chainLegal v := by
  rw [chainLegal, ← Kind.ofNibble_isSome, ← Kind.ofNibble_isSome, ← Kind.ofNibble_isSome, ← Kind.ofNibble_isSome,
    chainOf]
  cases Kind.ofNibble (v.extractLsb' 0 4) <;> cases Kind.ofNibble (v.extractLsb' 4 4) <;>
    cases Kind.ofNibble (v.extractLsb' 8 4) <;> cases Kind.ofNibble (v.extractLsb' 12 4) <;> rfl

/-- A write is stored unless the register is read-only or a CHAIN nibble is reserved (rule R264). -/
theorem Shaper.csrWrite_isSome (r : NumRepr) (sh : Shaper) (c : Csr) (v : Word) :
    (sh.csrWrite r c v).isSome = (!csrReadOnly c.num && (c.num != 0x02 || chainLegal v)) := by
  cases c with
  | chain =>
    rw [← chainOf_isSome]
    cases h : chainOf v <;> rw [Shaper.csrWrite, h] <;> rfl
  | coef k | acc k | prev k => fin_cases k <;> rfl
  | _ => rfl

/-- The command is answered by a state halted with the code `f`. -/
def FaultsWith (f : ErrCode) (o : Out) : Prop := ∃ t, o = .next t ∧ t.halted = true ∧ t.err = f

section
variable {s : State} {f g : ErrCode}

theorem faultsWith_takeFault : FaultsWith f (.next (s.takeFault f)) := ⟨_, rfl, rfl, rfl⟩

theorem not_faultsWith_takeFault (h : g ≠ f) : ¬FaultsWith f (.next (s.takeFault g)) := fun ⟨_, ht, _, he⟩ =>
  h (by rw [← he, ← next_inj ht, State.takeFault_err])

theorem not_faultsWith_next {t : State} (h : t.halted = false) : ¬FaultsWith f (.next t) := fun ⟨_, ht, hh, _⟩ =>
  Bool.false_ne_true (by rw [← hh, ← next_inj ht, h])

theorem not_faultsWith_fault {r : Fault} : ¬FaultsWith f (.fault r) := fun ⟨_, ht, _⟩ => by cases ht

theorem not_faultsWith_ite {c : Prop} [Decidable c] {o o' : Out} (h : ¬FaultsWith f o) (h' : ¬FaultsWith f o') :
    ¬FaultsWith f (if c then o else o') := by
  split <;> assumption

theorem not_faultsWith_command {body : State → Out} (ha : s.Accepts) (h : ¬FaultsWith f (body s)) :
    ¬FaultsWith f (command s body) := by
  obtain ⟨hrun, hwait, hhalt⟩ := ha
  rwa [command_accepts hrun hwait hhalt]

theorem not_badOperand_seededOnly {body : State → Out} (h : ¬FaultsWith .badOperand (body s)) :
    ¬FaultsWith .badOperand (seededOnly s body) :=
  not_faultsWith_ite h (not_faultsWith_takeFault (by decide))

theorem not_badOperand_protocol : ¬FaultsWith .badOperand (.next (s.takeFault .protocol)) :=
  not_faultsWith_takeFault (by decide)

theorem acquireOrWait_halted (s : State) : s.acquireOrWait.halted = s.halted := by
  unfold State.acquireOrWait
  split <;> rfl

/-! ### The commands with reserved operand values -/

/-- RDCSR: the number must name a register; an unseeded RNG word is another fault. -/
theorem execRdcsr_badOperand_iff (ha : s.Accepts) (n : BitVec 8) :
    FaultsWith .badOperand (execRdcsr n s) ↔ csrDefined n = false := by
  obtain ⟨hrun, hwait, hhalt⟩ := ha
  rw [execRdcsr, systemCommand_accepts hrun hwait, ← Csr.ofNum_isSome]
  simp only [raiseFault_running _ hhalt]
  cases Csr.ofNum n with
  | none => exact iff_of_true faultsWith_takeFault rfl
  | some c =>
    exact iff_of_false
      (not_faultsWith_ite (not_faultsWith_takeFault (by decide)) (not_faultsWith_next hhalt)) (by simp)

/-- WRCSR: the number must name a register, and the register must store the value. -/
theorem execWrcsr_badOperand_iff (ha : s.Accepts) (n : BitVec 8) (v : Word) :
    FaultsWith .badOperand (execWrcsr n v s) ↔
      (csrDefined n && !csrReadOnly n && (n != 0x02 || chainLegal v)) = false := by
  obtain ⟨hrun, hwait, hhalt⟩ := ha
  rw [execWrcsr, command_accepts hrun hwait hhalt, ← Csr.ofNum_isSome, Bool.and_assoc]
  cases hn : Csr.ofNum n with
  | none => exact iff_of_true faultsWith_takeFault rfl
  | some c =>
    rw [← Csr.num_of_ofNum hn, ← s.sh.csrWrite_isSome s.par.repr c v]
    dsimp only
    cases s.sh.csrWrite s.par.repr c v with
    | none => exact iff_of_true faultsWith_takeFault rfl
    | some sh => exact iff_of_false (not_faultsWith_next hhalt) (by simp)

/-- STAGE: the number must be a slot's. -/
theorem execStage_badOperand_iff (ha : s.Accepts) (k : BitVec 8) (x : Word) :
    FaultsWith .badOperand (execStage k x s) ↔ decide (k.toNat < 4) = false := by
  obtain ⟨hrun, hwait, hhalt⟩ := ha
  rw [execStage, command_accepts hrun hwait hhalt, decide_eq_false_iff_not]
  by_cases hk : k.toNat < 4
  · rw [slotOf_lt hk]
    exact iff_of_false (not_faultsWith_next hhalt) (not_not_intro hk)
  · rw [slotOf_ge (not_lt.mp hk)]
    exact iff_of_true faultsWith_takeFault hk

/-! ### The commands without: what they fault with is another code -/

theorem execNop_not_badOperand (ha : s.Accepts) : ¬FaultsWith .badOperand (execNop s) := by
  obtain ⟨hrun, hwait, hhalt⟩ := ha
  rw [execNop, systemCommand_accepts hrun hwait]
  exact not_faultsWith_next hhalt

theorem execSeedx_not_badOperand (ha : s.Accepts) (v : Half) : ¬FaultsWith .badOperand (execSeedx v s) :=
  not_faultsWith_command ha (not_faultsWith_next ha.2.2)

theorem execSeedp_not_badOperand (ha : s.Accepts) (a b : Word) : ¬FaultsWith .badOperand (execSeedp a b s) :=
  not_faultsWith_command ha (not_faultsWith_next ha.2.2)

theorem execNextu_not_badOperand (ha : s.Accepts) : ¬FaultsWith .badOperand (execNextu s) :=
  not_faultsWith_command ha (not_badOperand_seededOnly (not_faultsWith_next ha.2.2))

theorem execNextn_not_badOperand (ha : s.Accepts) : ¬FaultsWith .badOperand (execNextn s) :=
  not_faultsWith_command ha (not_badOperand_seededOnly (not_faultsWith_next ha.2.2))

theorem execClip_not_badOperand (ha : s.Accepts) (x : Word) : ¬FaultsWith .badOperand (execClip x s) :=
  not_faultsWith_command ha (not_faultsWith_next ha.2.2)

theorem execShape_not_badOperand (ha : s.Accepts) (n : Half) : ¬FaultsWith .badOperand (execShape n s) :=
  not_faultsWith_command ha (not_faultsWith_next ha.2.2)

theorem execAcq_not_badOperand (ha : s.Accepts) : ¬FaultsWith .badOperand (execAcq s) :=
  not_faultsWith_command ha (not_faultsWith_ite not_badOperand_protocol
    (not_faultsWith_next ((acquireOrWait_halted s).trans ha.2.2)))

theorem execPut_not_badOperand (ha : s.Accepts) (v : Sample) : ¬FaultsWith .badOperand (execPut v s) :=
  not_faultsWith_command ha (not_faultsWith_ite not_badOperand_protocol
    (not_faultsWith_ite (not_faultsWith_next ha.2.2) not_faultsWith_fault))

theorem execRel_not_badOperand (ha : s.Accepts) : ¬FaultsWith .badOperand (execRel s) :=
  not_faultsWith_command ha (not_faultsWith_ite not_badOperand_protocol (not_faultsWith_next ha.2.2))

theorem execGen_not_badOperand (ha : s.Accepts) : ¬FaultsWith .badOperand (execGen s) :=
  not_faultsWith_command ha (not_badOperand_seededOnly (not_faultsWith_ite not_badOperand_protocol
    (not_faultsWith_ite (not_faultsWith_next ha.2.2) not_faultsWith_fault)))

theorem execFill_not_badOperand (ha : s.Accepts) : ¬FaultsWith .badOperand (execFill s) :=
  not_faultsWith_command ha (not_badOperand_seededOnly (not_faultsWith_ite not_badOperand_protocol
    (not_faultsWith_ite (not_faultsWith_next ((State.genTimes_halted _ s).trans ha.2.2)) not_faultsWith_fault)))

theorem execStart_not_badOperand (ha : s.Accepts) : ¬FaultsWith .badOperand (execStart s) :=
  not_faultsWith_command ha (not_badOperand_seededOnly (not_faultsWith_ite not_badOperand_protocol
    (not_faultsWith_ite (not_faultsWith_takeFault (by decide)) (not_faultsWith_next ha.2.2))))

/-- Three commands have reserved operand values; the other commands are all well formed. -/
theorem badOperand_iff_not_wf {i : Instr} (hc : i.isCommand = true) (ha : s.Accepts) :
    FaultsWith .badOperand (exec i s) ↔ i.wf s.par = false := by
  have hwf : ¬true = false := by decide
  cases i with
  | rdcsr n => exact execRdcsr_badOperand_iff ha n
  | wrcsr n v => exact execWrcsr_badOperand_iff ha n v
  | stage k x => exact execStage_badOperand_iff ha k x
  | nop => exact iff_of_false (execNop_not_badOperand ha) hwf
  | seedx v => exact iff_of_false (execSeedx_not_badOperand ha v) hwf
  | seedp a b => exact iff_of_false (execSeedp_not_badOperand ha a b) hwf
  | nextu => exact iff_of_false (execNextu_not_badOperand ha) hwf
  | nextn => exact iff_of_false (execNextn_not_badOperand ha) hwf
  | clip x => exact iff_of_false (execClip_not_badOperand ha x) hwf
  | shape n => exact iff_of_false (execShape_not_badOperand ha n) hwf
  | acq => exact iff_of_false (execAcq_not_badOperand ha) hwf
  | put v => exact iff_of_false (execPut_not_badOperand ha v) hwf
  | rel => exact iff_of_false (execRel_not_badOperand ha) hwf
  | gen => exact iff_of_false (execGen_not_badOperand ha) hwf
  | fill => exact iff_of_false (execFill_not_badOperand ha) hwf
  | start => exact iff_of_false (execStart_not_badOperand ha) hwf
  | cIdle | cTake | cRead | cReturn => cases hc

end

/-- Settles O6, instruction by instruction over the answers that fault. -/
theorem badOperandExactlyForReservedValues : Obligations.BadOperandExactlyForReservedValues :=
  fun _ _ => badOperand_iff_not_wf

end Sys2Proof.Machine

/-! SUPPORT. The generator (`40_rng.md`): what a seed or a draw answers, the zero trap of Xorshift32, the shifts of
PCG32's rotation, and the range of a normal draw. -/

namespace Sys2Proof.Machine

/-! ## The seeds and the draws, taken up -/

section
variable {s : State}

theorem exec_seedx (ha : s.Accepts) (v : Half) :
    exec (.seedx v) s = .next (State.respond { s with rng := s.rng.seedX v } 0) := by
  obtain ⟨hrun, hwait, hhalt⟩ := ha
  rw [exec, execSeedx, command_accepts hrun hwait hhalt]

theorem exec_seedp (ha : s.Accepts) (a b : Word) :
    exec (.seedp a b) s = .next (State.respond { s with rng := s.rng.seedP a b } 0) := by
  obtain ⟨hrun, hwait, hhalt⟩ := ha
  rw [exec, execSeedp, command_accepts hrun hwait hhalt]

theorem exec_nextu (ha : s.Accepts) (hs : s.rng.seeded = true) :
    exec .nextu s = .next (State.respond { s with rng := s.rng.draw.2 } (s.rng.draw.1.setWidth 64)) := by
  obtain ⟨hrun, hwait, hhalt⟩ := ha
  rw [exec, execNextu, command_accepts hrun hwait hhalt, seededOnly_seeded hs]

theorem exec_nextn (ha : s.Accepts) (hs : s.rng.seeded = true) :
    exec .nextn s = .next (State.respond { s with rng := (s.rng.normal s.par.ndraw).2 }
      (bits64 (s.rng.normal s.par.ndraw).1)) := by
  obtain ⟨hrun, hwait, hhalt⟩ := ha
  rw [exec, execNextn, command_accepts hrun hwait hhalt, seededOnly_seeded hs]

theorem exec_nextn_unseeded (ha : s.Accepts) (hs : s.rng.seeded = false) :
    exec .nextn s = .next (s.takeFault .notSeeded) := by
  obtain ⟨hrun, hwait, hhalt⟩ := ha
  rw [exec, execNextn, command_accepts hrun hwait hhalt, seededOnly_unseeded hs]

end

/-! ## Seeding -/

/-- Settles O7: SEEDX is `Rng.seedX`, after which XSZERO asks of the stored word alone. -/
theorem seedxStoresTheSeed : Obligations.SeedxStoresTheSeed := by
  refine ⟨fun _ _ => rfl, fun s v ha => ⟨_, exec_seedx ha v, rfl, ?_⟩⟩
  rw [State.status_xsZero, Rng.xsZero_iff]
  simp [Rng.seedX]

/-- Bit 63 of `init_seq` is shifted out (rule R136). -/
theorem pcgInc_flip_bit63 (b : Word) : pcgInc (b ^^^ 0x8000000000000000) = pcgInc b := by
  have hout : (0x8000000000000000 : Word) <<< 1 = 0#64 := by decide
  rw [pcgInc, BitVec.shiftLeft_xor_distrib, hout, BitVec.xor_zero, pcgInc]

theorem Rng.seedP_flip_bit63 (r : Rng) (a b : Word) : r.seedP a (b ^^^ 0x8000000000000000) = r.seedP a b := by
  rw [Rng.seedP, pcgInc_flip_bit63, Rng.seedP]

/-- Settles O8: SEEDP is `Rng.seedP`, which sees `init_seq` through the increment only. -/
theorem seedpAdvancesTwice : Obligations.SeedpAdvancesTwice := fun s a b ha => by
  refine ⟨rfl, exec_seedp ha a b, pcgInc_odd b, ?_⟩
  rw [exec_seedp ha, exec_seedp ha, Rng.seedP_flip_bit63]

/-! ## One draw -/

/-- Settles O9: NEXTU is one draw, and Xorshift32 draws the stepped word. -/
theorem nextuStepsXorshift : Obligations.NextuStepsXorshift := fun s ha hs halg => by
  rw [exec_nextu ha hs, Rng.draw_xs32 halg]
  rfl

/-- A right rotation by two shifts, as rule R12 writes it: by 0 it is the word itself. -/
theorem rotateRight_eq_shifts (x : Half) {n : Nat} (hn : n < 32) :
    x.rotateRight n = x >>> n ||| x <<< ((32 - n) % 32) := by
  rw [BitVec.rotateRight_def, Nat.mod_eq_of_lt hn]
  rcases Nat.eq_zero_or_pos n with rfl | hpos
  · simp
  · rw [Nat.mod_eq_of_lt (by omega)]

/-- The rotation count of rule R139 is the old state's top five bits. -/
theorem toNat_ushiftRight_59 (old : Word) : (old >>> 59).toNat = old.toNat / 2 ^ 59 := by
  rw [BitVec.toNat_ushiftRight, Nat.shiftRight_eq_div_pow]

theorem pcgOutput_eq_shifts (old : Word) :
    pcgOutput old =
      (((old >>> 18 ^^^ old) >>> 27).setWidth 32 : Half) >>> (old.toNat / 2 ^ 59) |||
        (((old >>> 18 ^^^ old) >>> 27).setWidth 32 : Half) <<< ((32 - old.toNat / 2 ^ 59) % 32) := by
  have hrot : old.toNat / 2 ^ 59 < 32 := by have := old.isLt; omega
  rw [pcgOutput, toNat_ushiftRight_59, rotateRight_eq_shifts _ hrot]

/-- Settles O10: NEXTU is one draw, and PCG32 draws the permutation of the old state. -/
theorem nextuPermutesPcg : Obligations.NextuPermutesPcg := fun s ha hs halg => by
  rw [exec_nextu ha hs, Rng.draw_pcg32 halg, pcgOutput_eq_shifts]
  rfl

/-! ## The zero trap -/

section
variable {w k : Nat} {x : BitVec w}

/-- A word that is its own left shift has no lowest bit set. -/
theorem eq_zero_of_eq_shiftLeft (hk : 0 < k) (h : x = x <<< k) : x = 0 := by
  refine BitVec.eq_of_getLsbD_eq fun i _ => ?_
  induction i using Nat.strong_induction_on with
  | _ i ih =>
    rw [h, BitVec.getLsbD_shiftLeft]
    by_cases hik : i < k
    · simp [hik]
    · simp [ih (i - k) (by omega) (by omega)]

/-- A word that is its own right shift is less than itself unless it is 0. -/
theorem eq_zero_of_eq_ushiftRight (hk : 0 < k) (h : x = x >>> k) : x = 0 := by
  by_contra hx
  have hpos : 0 < x.toNat := Nat.pos_of_ne_zero fun h0 => hx (BitVec.eq_of_toNat_eq h0)
  have hlt : x.toNat / 2 ^ k < x.toNat := Nat.div_lt_self hpos (Nat.one_lt_two_pow hk.ne')
  rw [← Nat.shiftRight_eq_div_pow, ← BitVec.toNat_ushiftRight, ← h] at hlt
  exact Nat.lt_irrefl _ hlt

theorem xor_shiftLeft_eq_zero_iff (hk : 0 < k) : x ^^^ x <<< k = 0 ↔ x = 0 := by
  refine ⟨fun h => eq_zero_of_eq_shiftLeft hk (BitVec.xor_eq_zero_iff.mp h), ?_⟩
  rintro rfl
  simp

theorem xor_ushiftRight_eq_zero_iff (hk : 0 < k) : x ^^^ x >>> k = 0 ↔ x = 0 := by
  refine ⟨fun h => eq_zero_of_eq_ushiftRight hk (BitVec.xor_eq_zero_iff.mp h), ?_⟩
  rintro rfl
  simp

end

/-- Each of the three steps gives 0 from 0 only. -/
theorem xs32Step_eq_zero_iff (x : Half) : xs32Step x = 0 ↔ x = 0 := by
  rw [xs32Step, xor_shiftLeft_eq_zero_iff (by decide), xor_ushiftRight_eq_zero_iff (by decide),
    xor_shiftLeft_eq_zero_iff (by decide)]

@[simp] theorem Rng.afterDraws_zero (r : Rng) : r.afterDraws 0 = r := rfl

theorem Rng.afterDraws_succ (k : Nat) (r : Rng) : r.afterDraws (k + 1) = r.draw.2.afterDraws k := rfl

theorem Rng.draw_xs_eq_zero_iff {r : Rng} (h : r.alg = .xs32) : r.draw.2.xs = 0 ↔ r.xs = 0 := by
  rw [Rng.draw_xs32 h]
  exact xs32Step_eq_zero_iff r.xs

theorem Rng.afterDraws_xs_eq_zero_iff {r : Rng} (h : r.alg = .xs32) (k : Nat) :
    (r.afterDraws k).xs = 0 ↔ r.xs = 0 := by
  induction k generalizing r with
  | zero => rfl
  | succ k ih => rw [Rng.afterDraws_succ, ih (r.draw_alg.trans h), Rng.draw_xs_eq_zero_iff h]

/-- Settles O11, by induction on the number of draws. -/
theorem xorshiftZeroTrap : Obligations.XorshiftZeroTrap := fun _ k h => Rng.afterDraws_xs_eq_zero_iff h k

/-! ## The normal draw -/

/-- The recursion's sum and generator, written over the successive draws (rule R142). -/
theorem Rng.drawSum_eq (n : Nat) (r : Rng) :
    r.drawSum n = (((List.range n).map fun j => halvesSum (r.afterDraws j).draw.1).sum, r.afterDraws n) := by
  induction n generalizing r with
  | zero => rfl
  | succ k ih =>
    rw [Rng.drawSum_succ, ih, List.range_succ_eq_map, List.map_cons, List.map_map, List.sum_cons]
    rfl

/-- Settles O12: NEXTN is `Rng.normal`, whose sum and generator are those of the successive draws. -/
theorem nextnSumsTheHalves : Obligations.NextnSumsTheHalves := by
  refine ⟨fun _ _ => rfl, fun s ha hs => exec_nextn_unseeded ha hs, fun s ha hs => ?_⟩
  rw [exec_nextn ha hs, Rng.normal, Rng.drawSum_eq]
  rfl

theorem Rng.drawSum_le (n : Nat) (r : Rng) : (r.drawSum n).1 ≤ n * 131070 := by
  induction n generalizing r with
  | zero => exact Nat.zero_le _
  | succ k ih =>
    have hfirst := halvesSum_le r.draw.1
    have hrest := ih r.draw.2
    rw [Rng.drawSum_succ]
    dsimp only
    omega

theorem Rng.normal_fst (n : Nat) (r : Rng) : (r.normal n).1 = (((r.drawSum n).1 / n : Nat) : Int) - 65535 := rfl

/-- A draw at the zero xorshift word is 0 and leaves the generator as it is (rule R132). -/
theorem Rng.draw_zero_word {r : Rng} (h : r.alg = .xs32) (hx : r.xs = 0) : r.draw = (0, r) := by
  have hstep : xs32Step r.xs = r.xs := by rw [hx]; decide
  rw [Rng.draw_xs32 h, hstep]
  exact Prod.ext hx rfl

theorem Rng.drawSum_zero_word {r : Rng} (h : r.alg = .xs32) (hx : r.xs = 0) (n : Nat) : r.drawSum n = (0, r) := by
  have hhalves : halvesSum 0 = 0 := by decide
  induction n with
  | zero => rfl
  | succ k ih => rw [Rng.drawSum_succ, Rng.draw_zero_word h hx, ih, hhalves]; rfl

theorem Rng.normal_zero_word {r : Rng} (h : r.alg = .xs32) (hx : r.xs = 0) (n : Nat) : (r.normal n).1 = -65535 := by
  rw [Rng.normal_fst, Rng.drawSum_zero_word h hx, Nat.zero_div]
  rfl

/-- The mean of the sums is at most the greatest sum of two halves (rule R143). -/
theorem Rng.normal_bounds (n : Nat) (r : Rng) : -65535 ≤ (r.normal n).1 ∧ (r.normal n).1 ≤ 65535 := by
  have hmean : (r.drawSum n).1 / n ≤ 131070 := Nat.div_le_of_le_mul (r.drawSum_le n)
  rw [Rng.normal_fst]
  generalize (r.drawSum n).1 / n = mean at hmean ⊢
  omega

/-- Settles O13: the range by the greatest sum of two halves, the zero word by its draws being 0. -/
theorem normalDrawBounded : Obligations.NormalDrawBounded := fun r n _ =>
  ⟨(r.normal_bounds n).1, (r.normal_bounds n).2, fun h hx => Rng.normal_zero_word h hx n⟩

/-! ## What leaves the generator alone -/

/-- Settles O14: each effect of the other instructions is an update of other fields; ACQ has two of its own. -/
theorem onlySeedsAndDrawsTouchTheGenerator : Obligations.OnlySeedsAndDrawsTouchTheGenerator := fun i s t h => by
  have heff := exec_effect h
  cases i with
  | seedx | seedp | nextu | nextn | gen | fill => trivial
  | acq => exact heff.acq_rng_sh.1
  | _ => cases heff <;> rfl

end Sys2Proof.Machine

/-! SUPPORT. The shaper in FIXED (`41_shaper_fixed.md`): its narrowings as maxima and minima, STAGE, CLIP and SHAPE taken
up, the low-pass and the white chain, and the host's coefficients. -/

namespace Sys2Proof.Machine

/-! ## Narrowing -/

theorem clamp_eq_max_min {lo hi : Int} (h : lo ≤ hi) (v : Int) : clamp v lo hi = max lo (min hi v) := by
  rcases lt_trichotomy v lo with hv | rfl | hv
  · rw [clamp_of_lt hv]; omega
  · rw [clamp_of_mem le_rfl h]; omega
  · rcases le_or_gt v hi with hv' | hv'
    · rw [clamp_of_mem hv.le hv']; omega
    · rw [clamp_of_gt h hv']; omega

theorem clip16_eq (v : Int) : clip16 v = max (-32768) (min 32767 v) := clamp_eq_max_min (by decide) v

theorem sat64_eq (v : Int) : sat64 v = max (-2 ^ 63) (min (2 ^ 63 - 1) v) := clamp_eq_max_min (by decide) v

theorem clip16_bounds (v : Int) : -32768 ≤ clip16 v ∧ clip16 v ≤ 32767 :=
  ⟨clamp_ge (by decide) v, clamp_le (by decide) v⟩

/-- A saturated result is its pattern's value. -/
theorem bits64_sat64_toInt (v : Int) : (bits64 (sat64 v)).toInt = sat64 v :=
  bits64_toInt (clamp_ge (by decide) v) (Int.lt_of_le_sub_one (clamp_le (by decide) v))

/-- An s16 as a 64-bit result is the pattern of its value (rule R103). -/
theorem sampleRes_bits16 {v : Int} (h0 : -32768 ≤ v) (h1 : v ≤ 32767) : sampleRes (bits16 v) = bits64 v := by
  apply BitVec.eq_of_toInt_eq
  rw [sampleRes, BitVec.toInt_signExtend_of_le (by decide), bits16_toInt h0 h1, bits64_toInt (by omega) (by omega)]

theorem truncShift_eq (p : Int) (k : Nat) : truncShift p k = if 0 ≤ p then p / 2 ^ k else -(-p / 2 ^ k) := by
  rw [truncShift]
  split
  · next hp => exact Int.tdiv_eq_ediv_of_nonneg hp
  · next hp => rw [← Int.tdiv_eq_ediv_of_nonneg (by omega), Int.neg_tdiv, neg_neg]

/-- `clampA` by its two rails (rule R163). -/
theorem clampA_eq (c : Half) : clampA c = max 1 (min (2 ^ 31 - 1) (c.toNat : Int)) := by
  unfold clampA
  split
  · omega
  · split <;> omega

theorem integShift_eq (c : Half) : integShift c = c.toNat % 32 := by
  simp [integShift]

/-! ## STAGE, CLIP and SHAPE, taken up -/

section
variable {s : State}

theorem exec_stage (ha : s.Accepts) {k : BitVec 8} (h : k.toNat < 4) (x : Word) :
    exec (.stage k x) s = .next
      (State.respond { s with sh := (s.sh.stage s.par.repr ⟨k.toNat, h⟩ (wordIn s.par.repr x)).2 }
        (s.sh.stage s.par.repr ⟨k.toNat, h⟩ (wordIn s.par.repr x)).1) := by
  obtain ⟨hrun, hwait, hhalt⟩ := ha
  rw [exec, execStage, command_accepts hrun hwait hhalt, slotOf_lt h]

theorem exec_clip (ha : s.Accepts) (x : Word) :
    exec (.clip x) s = .next (s.respond (bits64 (clip s.par.repr s.sh.gain (wordIn s.par.repr x)))) := by
  obtain ⟨hrun, hwait, hhalt⟩ := ha
  rw [exec, execClip, command_accepts hrun hwait hhalt]

theorem exec_shape (ha : s.Accepts) (n : Half) :
    exec (.shape n) s = .next
      (State.respond { s with sh := (s.sh.shape s.par.repr n.toInt).2 }
        (sampleRes (s.sh.shape s.par.repr n.toInt).1)) := by
  obtain ⟨hrun, hwait, hhalt⟩ := ha
  rw [exec, execShape, command_accepts hrun hwait hhalt]

end

/-! ## One slot -/

/-- In FIXED a slot's evaluation writes S[k] and P[k] and nothing else. -/
theorem Shaper.stage_fixed (k : Fin 4) (x : Word) (sh : Shaper) :
    sh.stage .fixed k x =
      let o := slotFixed (sh.chain.get k) (sh.coef.get k) (sh.acc.get k) (sh.prev.get k) x
      (o.y, { sh with acc := sh.acc.set k o.acc, prev := sh.prev.set k o.prev }) :=
  rfl

section
variable {k : Fin 4} {sh : Shaper}

/-- A slot of kind NONE hands its input on (rule R164). -/
theorem Shaper.stage_fixed_none (h : sh.chain.get k = .none) (x : Word) : sh.stage .fixed k x = (x, sh) := by
  simp only [Shaper.stage_fixed, h, slotFixed, Quad.set_get]

theorem Shaper.stage_fixed_integ (h : sh.chain.get k = .integ) (x : Word) :
    sh.stage .fixed k x =
      (bits64 (integFixed (sh.coef.get k) (sh.acc.get k).toInt x.toInt),
        { sh with acc := sh.acc.set k (bits64 (integFixed (sh.coef.get k) (sh.acc.get k).toInt x.toInt)) }) := by
  simp only [Shaper.stage_fixed, h, slotFixed, Quad.set_get]

theorem Shaper.stage_fixed_lpf (h : sh.chain.get k = .lpf) (x : Word) :
    sh.stage .fixed k x =
      (bits64 (lpfFixed (sh.coef.get k) (sh.acc.get k).toInt x.toInt),
        { sh with acc := sh.acc.set k (bits64 (lpfFixed (sh.coef.get k) (sh.acc.get k).toInt x.toInt)) }) := by
  simp only [Shaper.stage_fixed, h, slotFixed, Quad.set_get]

theorem Shaper.stage_fixed_hpf (h : sh.chain.get k = .hpf) (x : Word) :
    sh.stage .fixed k x =
      (bits64 (hpfFixed (sh.coef.get k) (sh.acc.get k).toInt (sh.prev.get k).toInt x.toInt),
        { sh with
          acc := sh.acc.set k
            (bits64 (hpfFixed (sh.coef.get k) (sh.acc.get k).toInt (sh.prev.get k).toInt x.toInt))
          prev := sh.prev.set k x }) := by
  simp only [Shaper.stage_fixed, h, slotFixed]

end

section
variable (c : Half) (s p x : Int)

theorem bits64_integFixed_toInt :
    (bits64 (integFixed c s x)).toInt =
      max (-32768 * 2 ^ 31) (min (32767 * 2 ^ 31) (s + x / 2 ^ (c.toNat % 32))) := by
  have hle : (-32768 * 2 ^ 31 : Int) ≤ 32767 * 2 ^ 31 := by decide
  rw [integFixed, clamp_eq_max_min hle, bits64_toInt (by omega) (by omega), asr, integShift_eq]

theorem bits64_lpfFixed_toInt :
    (bits64 (lpfFixed c s x)).toInt =
      max (-2 ^ 63) (min (2 ^ 63 - 1) ((clampA c * x + (2 ^ 31 - clampA c) * s) / 2 ^ 31)) := by
  rw [lpfFixed, bits64_sat64_toInt, sat64_eq, asr]

theorem bits64_hpfFixed_toInt :
    (bits64 (hpfFixed c s p x)).toInt =
      max (-2 ^ 63) (min (2 ^ 63 - 1) (clampA c * (s + x - p) / 2 ^ 31)) := by
  rw [hpfFixed, bits64_sat64_toInt, sat64_eq, asr]

end

/-- Settles O15, by the slot's kind: each kind's output, and the value of its pattern. -/
theorem stageFixedByKind : Obligations.StageFixedByKind := fun s k x h ha hr => by
  have hexec := exec_stage ha h x
  rw [hr, wordIn] at hexec
  dsimp only
  rw [← clampA_eq]
  split
  · next hk =>
    rw [hexec, Shaper.stage_fixed_none hk]
    rfl
  · next hk =>
    rw [Shaper.stage_fixed_integ hk] at hexec
    exact ⟨_, bits64_integFixed_toInt _ _ _, hexec⟩
  · next hk =>
    rw [Shaper.stage_fixed_lpf hk] at hexec
    exact ⟨_, bits64_lpfFixed_toInt _ _ _, hexec⟩
  · next hk =>
    rw [Shaper.stage_fixed_hpf hk] at hexec
    exact ⟨_, bits64_hpfFixed_toInt _ _ _ _, hexec⟩

/-! ## The low-pass -/

/-- A weighted mean with weights `a` and `d - a` of `d`, rounded down, lies between its two parts (rule R168 a). -/
theorem weightedMean_between {a d : Int} (ha : 0 ≤ a) (had : a ≤ d) (hd : 0 < d) (x s : Int) :
    min x s ≤ (a * x + (d - a) * s) / d ∧ (a * x + (d - a) * s) / d ≤ max x s := by
  have hda : 0 ≤ d - a := by omega
  constructor
  · rw [Int.le_ediv_iff_mul_le hd]
    calc min x s * d = a * min x s + (d - a) * min x s := by ring
      _ ≤ a * x + (d - a) * s := by gcongr <;> omega
  · refine Int.ediv_le_of_le_mul hd ?_
    calc a * x + (d - a) * s ≤ a * max x s + (d - a) * max x s := by gcongr <;> omega
      _ = max x s * d := by ring

/-- Between two s64 values the saturation does not act. -/
theorem bits64_lpfFixed_between (c : Half) (s x : Word) :
    min x.toInt s.toInt ≤ (bits64 (lpfFixed c s.toInt x.toInt)).toInt ∧
      (bits64 (lpfFixed c s.toInt x.toInt)).toInt ≤ max x.toInt s.toInt := by
  obtain ⟨hc0, hc1⟩ := clampA_bounds c
  obtain ⟨hlo, hhi⟩ := weightedMean_between (a := clampA c) (d := 2 ^ 31) (by omega) (by omega) (by decide) x.toInt s.toInt
  have hx0 := x.le_toInt
  have hx1 := x.toInt_lt
  have hs0 := s.le_toInt
  have hs1 := s.toInt_lt
  rw [bits64_lpfFixed_toInt]
  generalize (clampA c * x.toInt + (2 ^ 31 - clampA c) * s.toInt) / 2 ^ 31 = y at hlo hhi ⊢
  omega

/-- Settles O16: the output is a weighted mean; when both parts are one value, nothing else lies between them. -/
theorem lowPassStaysBetween : Obligations.LowPassStaysBetween := fun s t k x h ha hr hk hexec => by
  rw [exec_stage ha h, hr, wordIn, Shaper.stage_fixed_lpf hk] at hexec
  rw [← next_inj hexec, State.respond_sh, Quad.get_set_same]
  obtain ⟨hlo, hhi⟩ :=
    bits64_lpfFixed_between (s.sh.coef.get ⟨k.toNat, h⟩) (s.sh.acc.get ⟨k.toNat, h⟩) x
  exact ⟨hlo, hhi, fun heq => by omega⟩

/-! ## The clip -/

theorem clipFixed_eq (gain : Half) (x : Word) :
    clipFixed gain x = max (-32768) (min 32767
      (if 0 ≤ x.toInt * gain.toNat then x.toInt * gain.toNat / 2 ^ 47
        else -(-(x.toInt * gain.toNat) / 2 ^ 47))) := by
  rw [clipFixed, clip16_eq, truncShift_eq]

/-- Settles O21: the clip's truncation by the sign of the product, and its clamp as a maximum and a minimum. -/
theorem clipFixedTruncatesThenClamps : Obligations.ClipFixedTruncatesThenClamps := fun s x ha hr => by
  rw [exec_clip ha, hr, clip, wordIn, clipFixed_eq]
  rfl

/-- The clip of rule R209 gives an s16 whatever the product. -/
theorem fClip16_bounds (a : Half) : -32768 ≤ fClip16 a ∧ fClip16 a ≤ 32767 := by
  unfold fClip16
  split
  · decide
  · split <;> decide
  · exact clip16_bounds _

theorem clip_bounds (r : NumRepr) (gain : Half) (x : Word) : -32768 ≤ clip r gain x ∧ clip r gain x ≤ 32767 := by
  cases r with
  | fixed => exact clip16_bounds _
  | float => exact fClip16_bounds _

/-! ## SHAPE -/

/-- The conversion of a 32-bit sample overflows no Q31 word (rule R162). -/
theorem chainInput_fixed_toInt (n : Half) : (chainInput .fixed n.toInt).toInt = n.toInt * 2 ^ 31 := by
  have h0 := n.le_toInt
  have h1 := n.toInt_lt
  exact bits64_toInt (by omega) (by omega)

/-- Settles O23: the chain's equation is the four slots in order, and the clip fits a sample. -/
theorem shapeRunsSlotsInOrder : Obligations.ShapeRunsSlotsInOrder := by
  refine ⟨fun _ _ => rfl, fun s n ha => ⟨fun hr => ?_, rfl, fun hr => ?_, ?_⟩⟩
  · rw [hr, chainInput_fixed_toInt]
  · rw [hr]; rfl
  · obtain ⟨h0, h1⟩ := clip_bounds s.par.repr s.sh.gain
      (s.sh.chainEval s.par.repr (chainInput s.par.repr n.toInt)).1
    exact ⟨_, bits16_toInt h0 h1, exec_shape ha n⟩

/-! ### The white chain -/

theorem Shaper.chainEval_white {sh : Shaper} (h : ∀ k : Fin 4, sh.chain.get k = .none) (x : Word) :
    sh.chainEval .fixed x = (x, sh) := by
  simp only [Shaper.chainEval_eq, Shaper.stage_fixed_none (h _)]

theorem Shaper.shape_white {sh : Shaper} (h : ∀ k : Fin 4, sh.chain.get k = .none) (n : Int) :
    sh.shape .fixed n = (bits16 (clipFixed sh.gain (chainInput .fixed n)), sh) := by
  rw [Shaper.shape, Shaper.chainEval_white h]; rfl

/-- Gain 0.5 on a converted sample is one division by 2 toward zero (rule R175). -/
theorem clipFixed_half (n : Half) : clipFixed 0x00008000 (chainInput .fixed n.toInt) = clip16 (Int.tdiv n.toInt 2) := by
  have hp : n.toInt * 2 ^ 31 * (0x00008000 : Half).toNat = n.toInt * 2 ^ 46 := by
    rw [mul_assoc]; rfl
  rw [clipFixed, chainInput_fixed_toInt, hp, truncShift, show (2 : Int) ^ 47 = 2 * 2 ^ 46 by decide,
    Int.mul_tdiv_mul_of_pos_left _ _ (by decide)]

theorem abs_tdiv_two_le {n : Int} (h : |n| ≤ 65535) : |Int.tdiv n 2| ≤ 32767 := by
  rw [Int.abs_eq_natAbs] at h ⊢
  rw [Int.natAbs_tdiv]
  change ((n.natAbs / 2 : Nat) : Int) ≤ 32767
  omega

/-- Settles O24: the chain hands the sample on, the clip halves it, and half a normal draw is an s16. -/
theorem whiteChainHalvesTheSample : Obligations.WhiteChainHalvesTheSample := fun s n ha hr hg hk => by
  obtain ⟨h0, h1⟩ := clip16_bounds (Int.tdiv n.toInt 2)
  refine ⟨clip16 (Int.tdiv n.toInt 2), ?_, fun hn => ?_⟩
  · rw [exec_shape ha, hr, Shaper.shape_white hk, hg, clipFixed_half, sampleRes_bits16 h0 h1]
    rfl
  · have hhalf := abs_tdiv_two_le hn
    obtain ⟨hlo, hhi⟩ := abs_le.mp hhalf
    have hclip : clip16 (Int.tdiv n.toInt 2) = Int.tdiv n.toInt 2 := clamp_of_mem (by omega) (by omega)
    exact ⟨hclip, by rwa [hclip]⟩

/-! ## The host's coefficients -/

/-- A ratio below 1, scaled by `2^31` and rounded down, is at most `2^31 - 1`. -/
theorem scaledRatio_le (a : Nat) {b : Nat} (hb : 0 < b) : 2 ^ 31 * a / (a + b) ≤ 2 ^ 31 - 1 :=
  Nat.le_sub_one_of_lt ((Nat.div_lt_iff_lt_mul (by omega)).mpr (by omega))

theorem one_le_scaledRatio {a b : Nat} (ha : 0 < a) (h : b ≤ (2 ^ 31 - 1) * a) : 1 ≤ 2 ^ 31 * a / (a + b) :=
  (Nat.one_le_div_iff (by omega)).mpr (by omega)

section
variable {fc fs : Nat}

theorem alphaLpFixed_le (hs : 1 ≤ fs) : alphaLpFixed fc fs ≤ 2 ^ 31 - 1 := by
  rw [alphaLpFixed, Nat.add_comm]
  exact scaledRatio_le _ (by omega)

theorem one_le_alphaLpFixed (hc : 1 ≤ fc) (hs : fs < 2 ^ 32) : 1 ≤ alphaLpFixed fc fs := by
  rw [alphaLpFixed, Nat.add_comm]
  exact one_le_scaledRatio (by rw [twoPiQ16]; omega) (by rw [twoPiQ16]; omega)

theorem alphaHpFixed_le (hc : 1 ≤ fc) : alphaHpFixed fc fs ≤ 2 ^ 31 - 1 :=
  scaledRatio_le _ (by rw [twoPiQ16]; omega)

/-- Below half the rate the high-pass ratio is more than 1 / 2^31 by far. -/
theorem one_le_alphaHpFixed (h : 2 * fc < fs) : 1 ≤ alphaHpFixed fc fs :=
  one_le_scaledRatio (by omega) (by rw [twoPiQ16]; omega)

end

/-- A coefficient in [1, 2^31 - 1] is used as it is (rule R163). -/
theorem clampA_ofNat {a : Nat} (h0 : 1 ≤ a) (h1 : a ≤ 2 ^ 31 - 1) : clampA (BitVec.ofNat 32 a) = a := by
  rw [clampA_eq, BitVec.toNat_ofNat, Nat.mod_eq_of_lt (by omega)]
  omega

/-- Settles O26; the last clause by evaluation. -/
theorem referenceCoefficientsInRange : Obligations.ReferenceCoefficientsInRange := by
  refine ⟨fun fc fs hc0 _ hs0 hs1 => ?_, by decide⟩
  have hlp0 := one_le_alphaLpFixed hc0 hs1
  have hlp1 : alphaLpFixed fc fs ≤ 2 ^ 31 - 1 := alphaLpFixed_le hs0
  have hhp1 : alphaHpFixed fc fs ≤ 2 ^ 31 - 1 := alphaHpFixed_le hc0
  refine ⟨hlp0, hlp1, hhp1, fun h => ?_⟩
  have hhp0 := one_le_alphaHpFixed h
  exact ⟨hhp0, clampA_ofNat hlp0 hlp1, clampA_ofNat hhp0 hhp1⟩

/-! ### At 1000 Hz and 48000 Hz -/

section
open Set Real

/-- Two values in an interval whose width is one part in 10^5 of its lower end agree to one part in 10^5. -/
theorem abs_sub_le_of_mem_Icc {l u q x : ℝ} (hw : u - l ≤ l / 10 ^ 5) (hq : q ∈ Icc l u) (hx : x ∈ Icc l u) :
    |q - x| ≤ x / 10 ^ 5 := by
  obtain ⟨hq0, hq1⟩ := hq
  obtain ⟨hx0, hx1⟩ := hx
  calc |q - x| ≤ u - l := abs_le.mpr ⟨by linarith, by linarith⟩
    _ ≤ l / 10 ^ 5 := hw
    _ ≤ x / 10 ^ 5 := by gcongr

/-- Where the real, the fixed-point and the binary32 low-pass coefficient of the reference pair lie. -/
def lpRange : Set ℝ := Icc 0.115748 0.115749

/-- Where the real, the fixed-point and the binary32 high-pass coefficient of the reference pair lie. -/
def hpRange : Set ℝ := Icc 0.884251 0.884252

theorem abs_sub_le_of_mem_lpRange {q x : ℝ} (hq : q ∈ lpRange) (hx : x ∈ lpRange) : |q - x| ≤ x / 10 ^ 5 :=
  abs_sub_le_of_mem_Icc (by norm_num) hq hx

theorem abs_sub_le_of_mem_hpRange {q x : ℝ} (hq : q ∈ hpRange) (hx : x ∈ hpRange) : |q - x| ≤ x / 10 ^ 5 :=
  abs_sub_le_of_mem_Icc (by norm_num) hq hx

/-- The real low-pass formula of rule R191, by six digits of pi. -/
theorem lowPass_mem_lpRange : 2 * π * 1000 / (48000 + 2 * π * 1000) ∈ lpRange := by
  have h0 := pi_gt_d6
  have h1 := pi_lt_d6
  exact ⟨(le_div_iff₀ (by linarith)).mpr (by linarith), (div_le_iff₀ (by linarith)).mpr (by linarith)⟩

/-- The real high-pass formula of rule R191, by six digits of pi. -/
theorem highPass_mem_hpRange : 48000 / (48000 + 2 * π * 1000) ∈ hpRange := by
  have h0 := pi_gt_d6
  have h1 := pi_lt_d6
  exact ⟨(le_div_iff₀ (by linarith)).mpr (by linarith), (div_le_iff₀ (by linarith)).mpr (by linarith)⟩

theorem alphaLpFixed_mem_lpRange : (alphaLpFixed 1000 48000 : ℝ) / 2 ^ 31 ∈ lpRange := by
  have h : alphaLpFixed 1000 48000 = 248567627 := by decide
  rw [h, lpRange, mem_Icc]
  norm_num

theorem alphaHpFixed_mem_hpRange : (alphaHpFixed 1000 48000 : ℝ) / 2 ^ 31 ∈ hpRange := by
  have h : alphaHpFixed 1000 48000 = 1898916020 := by decide
  rw [h, hpRange, mem_Icc]
  norm_num

theorem patternValue_of_unpack_fin {w : Half} {neg : Bool} {m : Nat} {e : Int} (h : unpack w = .fin neg m e) :
    patternValue w = some (dyadic neg m e) := by
  rw [patternValue, h]

theorem patternValue_alphaLpFloat :
    patternValue (alphaLpFloat 1000 48000) = some (dyadic false 15535471 (-27)) :=
  patternValue_of_unpack_fin (by decide +kernel)

theorem patternValue_alphaHpFloat :
    patternValue (alphaHpFloat 1000 48000) = some (dyadic false 14835282 (-24)) :=
  patternValue_of_unpack_fin (by decide +kernel)

theorem alphaLpFloat_mem_lpRange : ((dyadic false 15535471 (-27) : ℚ) : ℝ) ∈ lpRange := by
  rw [dyadic, lpRange, mem_Icc]
  norm_num

theorem alphaHpFloat_mem_hpRange : ((dyadic false 14835282 (-24) : ℚ) : ℝ) ∈ hpRange := by
  rw [dyadic, hpRange, mem_Icc]
  norm_num

/-- Settles O27: the three low-pass values lie in one narrow interval, and so do the three high-pass values. -/
theorem coefficientsAgreeAtReferencePair : Obligations.CoefficientsAgreeAtReferencePair :=
  ⟨_, _, patternValue_alphaLpFloat, patternValue_alphaHpFloat,
    abs_sub_le_of_mem_lpRange alphaLpFixed_mem_lpRange lowPass_mem_lpRange,
    abs_sub_le_of_mem_hpRange alphaHpFixed_mem_hpRange highPass_mem_hpRange,
    abs_sub_le_of_mem_lpRange alphaLpFloat_mem_lpRange lowPass_mem_lpRange,
    abs_sub_le_of_mem_hpRange alphaHpFloat_mem_hpRange highPass_mem_hpRange,
    abs_sub_le_of_mem_lpRange alphaLpFixed_mem_lpRange alphaLpFloat_mem_lpRange,
    abs_sub_le_of_mem_hpRange alphaHpFixed_mem_hpRange alphaHpFloat_mem_hpRange⟩

end

end Sys2Proof.Machine

/-! SUPPORT. binary32 patterns (`42_shaper_float.md` rule R201): sign and magnitude bits, the value they stand for, and
the order of patterns. -/

namespace Sys2Proof.Machine

/-! ## Patterns as a sign and a magnitude -/

theorem packBits_toNat (neg : Bool) {mag : Nat} (h : mag < 2 ^ 31) :
    (packBits neg mag).toNat = (if neg then 2 ^ 31 else 0) + mag := by
  rw [packBits, BitVec.toNat_ofNat]
  split <;> omega

theorem exists_packBits (w : Half) : ∃ neg mag, mag < 2 ^ 31 ∧ w = packBits neg mag := by
  refine ⟨decide (2 ^ 31 ≤ w.toNat), w.toNat % 2 ^ 31, by omega, BitVec.eq_of_toNat_eq ?_⟩
  rw [packBits_toNat _ (by omega)]
  simp only [decide_eq_true_eq]
  split <;> omega

section
variable (neg : Bool) {mag : Nat} (h : mag < 2 ^ 31)
include h

theorem packBits_getLsbD_31 : (packBits neg mag).getLsbD 31 = neg := by
  rw [BitVec.getLsbD, packBits_toNat neg h, Nat.testBit_eq_decide_div_mod_eq]
  cases neg <;> simp <;> omega

theorem packBits_getLsbD_0 : (packBits neg mag).getLsbD 0 = decide (mag % 2 = 1) := by
  rw [BitVec.getLsbD, packBits_toNat neg h, Nat.testBit_eq_decide_div_mod_eq, decide_eq_decide]
  split <;> omega

theorem packBits_getLsbD_of_lt {i : Nat} (hi : i < 31) :
    (packBits neg mag).getLsbD i = mag.testBit i := by
  rw [BitVec.getLsbD, packBits_toNat neg h]
  cases neg
  · simp
  · exact Nat.testBit_two_pow_add_gt hi mag

theorem packBits_sign : ((packBits neg mag).extractLsb' 31 1 == 1) = neg := by
  rw [Bool.eq_iff_iff, beq_iff_eq, ← BitVec.toNat_inj, BitVec.extractLsb'_toNat, packBits_toNat neg h,
    Nat.shiftRight_eq_div_pow]
  cases neg <;> simp <;> omega

theorem packBits_magnitude : ((packBits neg mag).extractLsb' 0 31).toNat = mag := by
  rw [BitVec.extractLsb'_toNat, packBits_toNat neg h, Nat.shiftRight_zero]
  split <;> omega

theorem packBits_exponent : ((packBits neg mag).extractLsb' 23 8).toNat = mag / 2 ^ 23 := by
  rw [BitVec.extractLsb'_toNat, packBits_toNat neg h, Nat.shiftRight_eq_div_pow]
  split <;> omega

theorem packBits_fraction : ((packBits neg mag).extractLsb' 0 23).toNat = mag % 2 ^ 23 := by
  rw [BitVec.extractLsb'_toNat, packBits_toNat neg h, Nat.shiftRight_zero]
  split <;> omega

/-- The fields of a pattern, by its magnitude bits (rule R201). -/
theorem unpack_packBits :
    unpack (packBits neg mag) =
      if infMag < mag then .nan else if mag = infMag then .inf neg
      else if mag < 2 ^ 23 then .fin neg mag (-149)
      else .fin neg (2 ^ 23 + mag % 2 ^ 23) ((mag / 2 ^ 23 : Nat) - 150) := by
  simp only [unpack, packBits_sign neg h, packBits_exponent neg h, packBits_fraction neg h]
  rcases lt_trichotomy mag infMag with hlt | rfl | hgt
  · have hex : mag / 2 ^ 23 ≠ 255 := by unfold infMag at hlt; omega
    rw [if_neg hlt.not_gt, if_neg hlt.ne, if_neg hex]
    by_cases hm : mag < 2 ^ 23
    · rw [if_pos hm, if_pos (Nat.div_eq_of_lt hm), Nat.mod_eq_of_lt hm]
    · rw [if_neg hm, if_neg (by omega)]
  · rfl
  · unfold infMag at hgt ⊢
    rw [if_pos hgt, if_pos (by omega), if_neg (by omega)]

theorem fKey_packBits : fKey (packBits neg mag) = if neg then -(mag : Int) else mag := by
  simp only [fKey, packBits_sign neg h, packBits_magnitude neg h]

end

/-! ## Dyadic rationals -/

theorem dyadic_mul_pow (neg : Bool) (m k : Nat) (e : Int) : dyadic neg (m * 2 ^ k) e = dyadic neg m (k + e) := by
  rw [dyadic, dyadic, zpow_add₀ (by norm_num), zpow_natCast]
  push_cast
  ring

theorem dyadic_false (m : Nat) (e : Int) : dyadic false m e = m * 2 ^ e := by
  simp [dyadic]

theorem dyadic_true (m : Nat) (e : Int) : dyadic true m e = -(m * 2 ^ e) := by
  simp [dyadic]

@[simp] theorem dyadic_zero (neg : Bool) (e : Int) : dyadic neg 0 e = 0 := by
  simp [dyadic]

theorem abs_dyadic (neg : Bool) (m : Nat) (e : Int) : |dyadic neg m e| = m * 2 ^ e := by
  have h : (0 : ℚ) ≤ m * 2 ^ e := by positivity
  cases neg
  · rw [dyadic_false, abs_of_nonneg h]
  · rw [dyadic_true, abs_neg, abs_of_nonneg h]

theorem dyadic_natAbs {v : Int} {neg : Bool} (h : v ≠ 0 → neg = decide (v < 0)) (e : Int) :
    dyadic neg v.natAbs e = v * 2 ^ e := by
  rcases lt_trichotomy v 0 with hv | rfl | hv
  · obtain rfl : neg = true := (h hv.ne).trans (decide_eq_true hv)
    rw [dyadic_true, Nat.cast_natAbs, abs_of_neg hv, Int.cast_neg, neg_mul, neg_neg]
  · simp
  · obtain rfl : neg = false := (h hv.ne').trans (decide_eq_false hv.not_gt)
    rw [dyadic_false, Nat.cast_natAbs, abs_of_pos hv]

theorem dyadic_eq_zero_iff {neg : Bool} {m : Nat} {e : Int} : dyadic neg m e = 0 ↔ m = 0 := by
  rw [← abs_eq_zero, abs_dyadic, mul_eq_zero, or_iff_left (by positivity), Nat.cast_eq_zero]

theorem decide_dyadic_lt_zero {neg : Bool} {m : Nat} {e : Int} (h : m ≠ 0) : decide (dyadic neg m e < 0) = neg := by
  have hpos : (0 : ℚ) < m * 2 ^ e := mul_pos (Nat.cast_pos.mpr (Nat.pos_of_ne_zero h)) (by positivity)
  cases neg
  · simpa [dyadic_false] using hpos.le
  · simpa [dyadic_true] using hpos

theorem dyadic_not (neg : Bool) (m : Nat) (e : Int) : dyadic (!neg) m e = -dyadic neg m e := by
  cases neg
  · rw [Bool.not_false, dyadic_true, dyadic_false]
  · rw [Bool.not_true, dyadic_true, dyadic_false, neg_neg]

theorem dyadic_mul (na nb : Bool) (ma mb : Nat) (ea eb : Int) :
    dyadic (na != nb) (ma * mb) (ea + eb) = dyadic na ma ea * dyadic nb mb eb := by
  rw [dyadic, dyadic, dyadic, zpow_add₀ two_ne_zero, Nat.cast_mul]
  cases na <;> cases nb <;> simp <;> ring

/-! ## The value of a magnitude -/

/-- The value of a magnitude in units of 2^-149, the least positive binary32: the exponent and fraction bits counted on
past infinity. -/
def magUnits (mag : Nat) : Nat :=
  if mag < 2 ^ 23 then mag else (2 ^ 23 + mag % 2 ^ 23) * 2 ^ (mag / 2 ^ 23 - 1)

/-- `n` units of the last place `2^s`: subnormal with `s = 0`, else normalised; `n = 2^24` is a carry into the next
exponent. -/
theorem magUnits_of_normal {s n : Nat} (h0 : s = 0 ∨ 2 ^ 23 ≤ n) (h1 : n ≤ 2 ^ 24) :
    magUnits (2 ^ 23 * s + n) = n * 2 ^ s := by
  unfold magUnits
  split
  · next h =>
    obtain rfl : s = 0 := by omega
    omega
  · next h =>
    rcases h1.lt_or_eq with hn | rfl
    · rw [show 2 ^ 23 + (2 ^ 23 * s + n) % 2 ^ 23 = n by omega, show (2 ^ 23 * s + n) / 2 ^ 23 - 1 = s by omega]
    · rw [show (2 ^ 23 * s + 2 ^ 24) % 2 ^ 23 = 0 by omega, show (2 ^ 23 * s + 2 ^ 24) / 2 ^ 23 - 1 = s + 1 by omega]
      ring

/-- The step from one magnitude to the next, subnormals, carries and all. -/
theorem magUnits_succ (mag : Nat) : magUnits (mag + 1) = magUnits mag + 2 ^ (mag / 2 ^ 23 - 1) := by
  obtain ⟨s, n, h0, h1, rfl⟩ : ∃ s n, (s = 0 ∨ 2 ^ 23 ≤ n) ∧ n < 2 ^ 24 ∧ mag = 2 ^ 23 * s + n :=
    ⟨mag / 2 ^ 23 - 1, mag - 2 ^ 23 * (mag / 2 ^ 23 - 1), by omega, by omega, by omega⟩
  rw [add_assoc, magUnits_of_normal (by omega) h1, magUnits_of_normal h0 h1.le,
    show (2 ^ 23 * s + n) / 2 ^ 23 - 1 = s by omega, Nat.succ_mul]

theorem magUnits_strictMono : StrictMono magUnits :=
  strictMono_nat_of_lt_succ fun mag => by rw [magUnits_succ]; exact Nat.lt_add_of_pos_right (by positivity)

theorem patternValue_packBits (neg : Bool) {mag : Nat} (h : mag < infMag) :
    patternValue (packBits neg mag) = some (dyadic neg (magUnits mag) (-149)) := by
  have hunpack := unpack_packBits neg (h.trans (by decide : infMag < 2 ^ 31))
  rw [if_neg h.not_gt, if_neg h.ne] at hunpack
  by_cases hm : mag < 2 ^ 23
  · rw [if_pos hm] at hunpack
    rw [patternValue_of_unpack_fin hunpack, magUnits, if_pos hm]
  · rw [if_neg hm] at hunpack
    rw [patternValue_of_unpack_fin hunpack, magUnits, if_neg hm, dyadic_mul_pow]
    congr 2
    omega

theorem patternValue_eq_none {neg : Bool} {mag : Nat} (h : mag < 2 ^ 31) (hi : infMag ≤ mag) :
    patternValue (packBits neg mag) = none := by
  rw [patternValue, unpack_packBits neg h]
  rcases hi.eq_or_lt with rfl | hlt
  · rw [if_neg (lt_irrefl _), if_pos rfl]
  · rw [if_pos hlt]

theorem unpack_eq_inf_iff {w : Half} {neg : Bool} : unpack w = .inf neg ↔ w = packBits neg infMag := by
  constructor
  · obtain ⟨neg', mag, hm, rfl⟩ := exists_packBits w
    rw [unpack_packBits neg' hm]
    intro hw
    split_ifs at hw with h1 h2
    cases hw
    rw [h2]
  · rintro rfl
    exact unpack_packBits_inf neg

theorem exists_packBits_of_unpack_fin {w : Half} {neg : Bool} {m : Nat} {e : Int} (h : unpack w = .fin neg m e) :
    ∃ mag < infMag, w = packBits neg mag := by
  obtain ⟨neg', mag, hm, rfl⟩ := exists_packBits w
  rw [unpack_packBits neg' hm] at h
  split_ifs at h with h1 h2 h3 <;> cases h <;> exact ⟨_, by omega, rfl⟩

theorem getLsbD_31_of_unpack_fin {w : Half} {neg : Bool} {m : Nat} {e : Int} (h : unpack w = .fin neg m e) :
    w.getLsbD 31 = neg := by
  obtain ⟨mag, hlt, rfl⟩ := exists_packBits_of_unpack_fin h
  exact packBits_getLsbD_31 neg (hlt.trans (by decide))

theorem unpack_fin_zero {w : Half} {neg : Bool} {e : Int} (h : unpack w = .fin neg 0 e) : w = packBits neg 0 := by
  obtain ⟨mag, hlt, rfl⟩ := exists_packBits_of_unpack_fin h
  rw [unpack_packBits neg (hlt.trans (by decide)), if_neg hlt.not_gt, if_neg hlt.ne] at h
  split_ifs at h
  · cases h; rfl
  · injection h with _ h
    omega

/-! ## The key of a pattern and its value -/

/-- The value of the key `k` (`fKey`) in units of 2^-149; odd, and strictly rising past both infinities. -/
def keyUnits (k : Int) : Int := k.sign * magUnits k.natAbs

theorem keyUnits_neg (k : Int) : keyUnits (-k) = -keyUnits k := by
  rw [keyUnits, Int.sign_neg, Int.natAbs_neg, neg_mul, keyUnits]

@[simp] theorem keyUnits_natCast (n : Nat) : keyUnits n = magUnits n := by
  cases n with
  | zero => rfl
  | succ n => rw [keyUnits, Int.natAbs_natCast, Int.sign_natCast_of_ne_zero n.succ_ne_zero, one_mul]

theorem keyUnits_strictMono : StrictMono keyUnits := by
  refine strictMono_of_odd_strictMonoOn_nonneg keyUnits_neg fun a ha b hb hab => ?_
  lift a to Nat using ha
  lift b to Nat using hb
  rw [keyUnits_natCast, keyUnits_natCast]
  exact_mod_cast magUnits_strictMono (by exact_mod_cast hab)

/-- The value of the key `k`. -/
def keyValue (k : Int) : ℚ := keyUnits k * 2 ^ (-149 : Int)

theorem keyValue_strictMono : StrictMono keyValue := fun _ _ h =>
  mul_lt_mul_of_pos_right (Int.cast_lt.mpr (keyUnits_strictMono h)) (by positivity)

theorem keyValue_neg (k : Int) : keyValue (-k) = -keyValue k := by
  rw [keyValue, keyUnits_neg, Int.cast_neg, neg_mul, keyValue]

theorem keyValue_natCast (n : Nat) : keyValue n = magUnits n * 2 ^ (-149 : Int) := by
  rw [keyValue, keyUnits_natCast, Int.cast_natCast]

@[simp] theorem keyValue_zero : keyValue 0 = 0 := by
  simp [keyValue, keyUnits]

theorem keyValue_fKey_packBits (neg : Bool) {mag : Nat} (h : mag < 2 ^ 31) :
    keyValue (fKey (packBits neg mag)) = dyadic neg (magUnits mag) (-149) := by
  rw [fKey_packBits neg h, dyadic]
  cases neg
  · simp [keyValue_natCast]
  · simp [keyValue_neg, keyValue_natCast]

theorem fKey_packBits_natAbs (neg : Bool) {mag : Nat} (h : mag < 2 ^ 31) : (fKey (packBits neg mag)).natAbs = mag := by
  rw [fKey_packBits neg h]
  split <;> simp

/-- The finite patterns are those whose key is within the infinities, and the key tells the value. -/
theorem patternValue_eq_keyValue_iff {w : Half} {v : ℚ} :
    patternValue w = some v ↔ (fKey w).natAbs < infMag ∧ v = keyValue (fKey w) := by
  obtain ⟨neg, mag, hm, rfl⟩ := exists_packBits w
  rw [fKey_packBits_natAbs neg hm, keyValue_fKey_packBits neg hm]
  rcases lt_or_ge mag infMag with hlt | hge
  · rw [patternValue_packBits neg hlt, Option.some_inj, eq_comm, iff_and_self]
    exact fun _ => hlt
  · rw [patternValue_eq_none hm hge]
    simp [hge]

theorem unpack_of_patternValue {w : Half} {v : ℚ} (h : patternValue w = some v) :
    ∃ neg m e, unpack w = .fin neg m e ∧ v = dyadic neg m e := by
  unfold patternValue at h
  split at h
  · next neg m e hw => exact ⟨neg, m, e, hw, (Option.some.inj h).symm⟩
  · cases h
  · cases h

theorem isNan_of_patternValue {w : Half} {v : ℚ} (h : patternValue w = some v) : isNan w = false := by
  obtain ⟨neg, m, e, hw, -⟩ := unpack_of_patternValue h
  rw [isNan, hw]
  rfl

/-- Patterns compare as their values do. -/
theorem fKey_le_iff {a b : Half} {va vb : ℚ} (ha : patternValue a = some va) (hb : patternValue b = some vb) :
    fKey a ≤ fKey b ↔ va ≤ vb := by
  obtain ⟨-, rfl⟩ := patternValue_eq_keyValue_iff.mp ha
  obtain ⟨-, rfl⟩ := patternValue_eq_keyValue_iff.mp hb
  exact keyValue_strictMono.le_iff_le.symm

theorem fLt_iff {a b : Half} {va vb : ℚ} (ha : patternValue a = some va) (hb : patternValue b = some vb) :
    fLt a b = true ↔ va < vb := by
  rw [← not_le, ← fKey_le_iff hb ha]
  simp [fLt, isNan_of_patternValue ha, isNan_of_patternValue hb]

end Sys2Proof.Machine

/-! SUPPORT. Rounding to nearest, ties to even (`42_shaper_float.md` rule R200): a rounded pattern lies between the
midpoints to its neighbours, infinities counted as values. -/

namespace Sys2Proof.Machine

/-! ## Rounding -/

/-- `k` is the key of the pattern that `x` rounds to: `x` lies between the midpoints on either side of `k`, and on one
only if `k` is even. -/
structure RoundsTo (x : ℚ) (k : Int) : Prop where
  lower : keyValue (k - 1) + keyValue k ≤ 2 * x
  upper : 2 * x ≤ keyValue k + keyValue (k + 1)
  even : 2 * x = keyValue (k - 1) + keyValue k ∨ 2 * x = keyValue k + keyValue (k + 1) → Even k

theorem RoundsTo.neg {x : ℚ} {k : Int} (h : RoundsTo x k) : RoundsTo (-x) (-k) := by
  have e0 : keyValue (-k - 1) = -keyValue (k + 1) := by rw [← keyValue_neg]; congr 1; ring
  have e1 : keyValue (-k + 1) = -keyValue (k - 1) := by rw [← keyValue_neg]; congr 1; ring
  obtain ⟨hl, hu, he⟩ := h
  constructor
  · rw [e0, keyValue_neg]; linarith
  · rw [e1, keyValue_neg]; linarith
  · rw [e0, e1, keyValue_neg, even_neg]
    rintro (h | h)
    · exact he (.inr (by linarith))
    · exact he (.inl (by linarith))

/-- Between the midpoints no key is nearer, and one as near makes `k` even. -/
theorem RoundsTo.nearest {x : ℚ} {k : Int} (h : RoundsTo x k) (j : Int) :
    |keyValue k - x| ≤ |keyValue j - x| ∧
      (|keyValue k - x| = |keyValue j - x| → keyValue k ≠ keyValue j → Even k) := by
  have hk0 := keyValue_strictMono (show k - 1 < k by omega)
  have hk1 := keyValue_strictMono (show k < k + 1 by omega)
  obtain ⟨hl, hu, he⟩ := h
  rcases lt_trichotomy j k with hj | rfl | hj
  · have hle : keyValue j ≤ keyValue (k - 1) := keyValue_strictMono.monotone (by omega)
    constructor
    · rw [abs_sub_comm (keyValue j), abs_of_nonneg (show 0 ≤ x - keyValue j by linarith), abs_le]
      constructor <;> linarith
    · intro heq hne
      rcases abs_eq_abs.mp heq with heq | heq
      · exact absurd (sub_left_injective heq) hne
      · exact he (.inl (by linarith))
  · exact ⟨le_rfl, fun _ hne => absurd rfl hne⟩
  · have hle : keyValue (k + 1) ≤ keyValue j := keyValue_strictMono.monotone (by omega)
    constructor
    · rw [abs_of_nonneg (show 0 ≤ keyValue j - x by linarith), abs_le]
      constructor <;> linarith
    · intro heq hne
      rcases abs_eq_abs.mp heq with heq | heq
      · exact absurd (sub_left_injective heq) hne
      · exact he (.inr (by linarith))

theorem getLsbD_0_eq_false_of_even {w : Half} (h : Even (fKey w)) : w.getLsbD 0 = false := by
  obtain ⟨neg, mag, hm, rfl⟩ := exists_packBits w
  rw [packBits_getLsbD_0 neg hm, decide_eq_false_iff_not]
  rw [fKey_packBits neg hm] at h
  rw [Int.even_iff] at h
  split at h <;> omega

theorem RoundsTo.nearestEven {x : ℚ} {w : Half} (h : RoundsTo x (fKey w)) (hw : (fKey w).natAbs < infMag) :
    NearestEven x w := by
  refine ⟨_, patternValue_eq_keyValue_iff.mpr ⟨hw, rfl⟩, fun w' v' hv' => ?_⟩
  obtain ⟨-, rfl⟩ := patternValue_eq_keyValue_iff.mp hv'
  obtain ⟨hle, heven⟩ := h.nearest (fKey w')
  exact ⟨hle, fun heq hne => getLsbD_0_eq_false_of_even (heven heq hne)⟩

/-! ### The overflow threshold -/

/-- The overflow threshold is the midpoint of the largest finite value and `2^128`, where infinity's key stands. -/
theorem keyValue_threshold : keyValue (infMag - 1) + keyValue infMag = 2 * (2 ^ 128 - 2 ^ 103) := by
  have h0 : keyUnits (infMag - 1) = (2 ^ 24 - 1) * 2 ^ 253 := by decide
  have h1 : keyUnits infMag = 2 ^ 24 * 2 ^ 253 := by decide
  rw [keyValue, keyValue, h0, h1]
  norm_num

theorem RoundsTo.lt_infMag {x : ℚ} {k : Int} (h : RoundsTo x k) (hx : x < 2 ^ 128 - 2 ^ 103) : k < infMag := by
  by_contra hk
  have h0 : keyValue (infMag - 1) ≤ keyValue (k - 1) := keyValue_strictMono.monotone (by omega)
  have h1 : keyValue infMag ≤ keyValue k := keyValue_strictMono.monotone (by omega)
  linarith [h.lower, keyValue_threshold]

/-- At the threshold itself the tie goes to infinity, whose key is even. -/
theorem RoundsTo.infMag_le {x : ℚ} {k : Int} (h : RoundsTo x k) (hx : 2 ^ 128 - 2 ^ 103 ≤ x) : infMag ≤ k := by
  by_contra hk
  have h1 : keyValue (k + 1) ≤ keyValue infMag := keyValue_strictMono.monotone (by omega)
  rcases (show k ≤ infMag - 1 by omega).lt_or_eq with hlt | heq
  · linarith [h.upper, keyValue_threshold, keyValue_strictMono hlt]
  · obtain rfl := heq
    rw [sub_add_cancel] at h1
    have hupper := h.upper
    rw [sub_add_cancel] at hupper
    have heven := h.even (.inr (by rw [sub_add_cancel]; linarith [keyValue_threshold]))
    exact absurd heven (by decide)

/-! ### Rounding to an integer and to a pattern -/

/-- `n` is `z` rounded to an integer, ties to even. -/
structure RoundsToNat (z : ℚ) (n : Nat) : Prop where
  lower : 2 * n - 1 ≤ 2 * z
  upper : 2 * z ≤ 2 * n + 1
  even : 2 * z = 2 * n - 1 ∨ 2 * z = 2 * n + 1 → Even n

theorem roundsToNat_self (n : Nat) : RoundsToNat n n := by
  constructor
  · linarith
  · linarith
  · rintro (h | h) <;> linarith

/-- `shiftRoundEven`, in units of half the divisor. -/
theorem shiftRoundEven_bounds (m d : Nat) :
    2 * (shiftRoundEven m d * 2 ^ d) ≤ 2 * m + 2 ^ d ∧ 2 * m ≤ 2 * (shiftRoundEven m d * 2 ^ d) + 2 ^ d ∧
      (2 * m + 2 ^ d = 2 * (shiftRoundEven m d * 2 ^ d) ∨ 2 * m = 2 * (shiftRoundEven m d * 2 ^ d) + 2 ^ d →
        shiftRoundEven m d % 2 = 0) := by
  have hlt := Nat.mod_lt m (show 0 < 2 ^ d by positivity)
  have hm := Nat.div_add_mod' m (2 ^ d)
  unfold shiftRoundEven
  generalize m / 2 ^ d = n at *
  generalize m % 2 ^ d = r at *
  generalize 2 ^ d = t at *
  dsimp only
  split
  · rw [add_mul n 1 t, one_mul]
    omega
  · omega

theorem shiftRoundEven_rounds (m d : Nat) : RoundsToNat (m / 2 ^ d) (shiftRoundEven m d) := by
  obtain ⟨hl, hu, he⟩ := shiftRoundEven_bounds m d
  generalize shiftRoundEven m d = k at *
  have ht : (0 : ℚ) < 2 ^ d := by positivity
  have he' : (2 * m + 2 ^ d : ℚ) = 2 * (k * 2 ^ d) ∨ (2 * m : ℚ) = 2 * (k * 2 ^ d) + 2 ^ d → k % 2 = 0 := fun h =>
    he (by exact_mod_cast h)
  have hl' : 2 * (k * 2 ^ d : ℚ) ≤ 2 * m + 2 ^ d := by exact_mod_cast hl
  have hu' : (2 * m : ℚ) ≤ 2 * (k * 2 ^ d) + 2 ^ d := by exact_mod_cast hu
  constructor
  · rw [← mul_div_assoc, le_div_iff₀ ht]; linarith
  · rw [← mul_div_assoc, div_le_iff₀ ht]; linarith
  · rw [← mul_div_assoc, div_eq_iff ht.ne', div_eq_iff ht.ne', Nat.even_iff]
    exact fun h => he' (h.imp (fun h => by linarith) fun h => by linarith)

theorem keyValue_of_normal {s n : Nat} (h0 : s = 0 ∨ 2 ^ 23 ≤ n) (h1 : n ≤ 2 ^ 24) :
    keyValue (2 ^ 23 * s + n : Nat) = n * 2 ^ ((s : Int) - 149) := by
  rw [keyValue_natCast, magUnits_of_normal h0 h1, sub_eq_add_neg, zpow_add₀ two_ne_zero, zpow_natCast]
  push_cast
  ring

theorem keyValue_pred_of_normal {s n : Nat} (h0 : s = 0 ∨ 2 ^ 23 < n) (hn : 0 < n) (h1 : n ≤ 2 ^ 24) :
    keyValue ((2 ^ 23 * s + n : Nat) - 1) = (n - 1) * 2 ^ ((s : Int) - 149) := by
  have h := keyValue_of_normal (s := s) (n := n - 1) (by omega) (by omega)
  rw [Nat.cast_sub hn, Nat.cast_one] at h
  rw [← h]
  congr 1
  omega

theorem keyValue_succ_of_normal {s n : Nat} (h0 : s = 0 ∨ 2 ^ 23 ≤ n) (h1 : n < 2 ^ 24) :
    keyValue ((2 ^ 23 * s + n : Nat) + 1) = (n + 1) * 2 ^ ((s : Int) - 149) := by
  have h := keyValue_of_normal (s := s) (n := n + 1) (by omega) h1
  rwa [← add_assoc, Nat.cast_add_one, Nat.cast_add_one] at h

theorem RoundsToNat.le_of_lt {z : ℚ} {n b : Nat} (h : RoundsToNat z n) (hz : z < b) : n ≤ b := by
  have hlt : ((2 * n : Nat) : ℚ) < (2 * b + 1 : Nat) := by push_cast; linarith [h.lower]
  have := Nat.cast_lt.mp hlt
  omega

theorem RoundsToNat.ge_of_le {z : ℚ} {n b : Nat} (h : RoundsToNat z n) (hz : b ≤ z) : b ≤ n := by
  have hle : ((2 * b : Nat) : ℚ) ≤ (2 * n + 1 : Nat) := by push_cast; linarith [h.upper]
  have := Nat.cast_le.mp hle
  omega

/-- A value of `z` units of the last place `2^(s - 149)` rounds to the key with that exponent and `z` rounded. On the
side of the key where `z` lies the next key is one unit away; on the other side it is only said to be another. -/
theorem RoundsToNat.roundsTo {z : ℚ} {s n : Nat} (h : RoundsToNat z n) (hz : 0 ≤ z) (h1 : z < (2 ^ 24 : Nat))
    (h0 : s = 0 ∨ (2 ^ 23 : Nat) ≤ z) : RoundsTo (z * 2 ^ ((s : Int) - 149)) (2 ^ 23 * s + n : Nat) := by
  have hn1 := h.le_of_lt h1
  have hn0 : s = 0 ∨ 2 ^ 23 ≤ n := h0.imp_right h.ge_of_le
  have hk := keyValue_of_normal hn0 hn1
  have heven (hn : Even n) : Even ((2 ^ 23 * s + n : Nat) : Int) := by
    rw [Int.even_coe_nat, Nat.even_add]
    exact iff_of_true ((show Even (2 ^ 23) by decide).mul_right s) hn
  have hu : (0 : ℚ) < 2 ^ ((s : Int) - 149) := by positivity
  have hpred := keyValue_strictMono (sub_one_lt ((2 ^ 23 * s + n : Nat) : Int))
  have hsucc := keyValue_strictMono (lt_add_one ((2 ^ 23 * s + n : Nat) : Int))
  rcases lt_trichotomy z n with hzn | hzn | hzn
  · have hlt : z * 2 ^ ((s : Int) - 149) < n * 2 ^ ((s : Int) - 149) := mul_lt_mul_of_pos_right hzn hu
    have hb := keyValue_pred_of_normal (h0.imp_right fun h0 => Nat.cast_lt.mp (h0.trans_lt hzn))
      (Nat.cast_pos.mp (hz.trans_lt hzn)) hn1
    constructor
    · rw [hb, hk]
      linarith [mul_le_mul_of_nonneg_right h.lower hu.le]
    · linarith
    · rintro (heq | heq)
      · rw [hb, hk] at heq
        exact heven (h.even (.inl (mul_right_cancel₀ hu.ne' (by linarith))))
      · linarith
  · rw [hzn, ← hk]
    constructor
    · linarith
    · linarith
    · rintro (heq | heq) <;> linarith
  · have hlt : n * 2 ^ ((s : Int) - 149) < z * 2 ^ ((s : Int) - 149) := mul_lt_mul_of_pos_right hzn hu
    have ha := keyValue_succ_of_normal hn0 (Nat.cast_lt.mp (hzn.trans h1))
    constructor
    · linarith
    · rw [ha, hk]
      linarith [mul_le_mul_of_nonneg_right h.upper hu.le]
    · rintro (heq | heq)
      · linarith
      · rw [ha, hk] at heq
        exact heven (h.even (.inr (mul_right_cancel₀ hu.ne' (by linarith))))

theorem mul_zpow_bounds {m : Nat} (hm : m ≠ 0) (e : Int) :
    (2 : ℚ) ^ ((Nat.log2 m : Int) + e) ≤ m * 2 ^ e ∧ (m : ℚ) * 2 ^ e < 2 ^ ((Nat.log2 m : Int) + 1 + e) := by
  have h0 : ((2 ^ Nat.log2 m : Nat) : ℚ) ≤ m := Nat.cast_le.mpr (Nat.log2_self_le hm)
  have h1 : (m : ℚ) < (2 ^ (Nat.log2 m + 1) : Nat) := Nat.cast_lt.mpr Nat.lt_log2_self
  rw [Nat.cast_pow, Nat.cast_ofNat, ← zpow_natCast] at h0 h1
  have hpos : (0 : ℚ) < 2 ^ e := by positivity
  rw [zpow_add₀ two_ne_zero, zpow_add₀ two_ne_zero _ e]
  exact ⟨mul_le_mul_of_nonneg_right h0 hpos.le, mul_lt_mul_of_pos_right (by exact_mod_cast h1) hpos⟩

/-- `roundMag` up to its bound at infinity: `m * 2^e` in units of the last place `2^(s - 149)`, rounded. -/
theorem roundMag_eq {m : Nat} (hm : m ≠ 0) (e : Int) :
    ∃ R : Nat, roundMag m e = min R infMag ∧ RoundsTo (m * 2 ^ e) R := by
  unfold roundMag
  generalize hq : max ((Nat.log2 m : Int) + e - 23) (-149) = q
  obtain ⟨s, rfl⟩ : ∃ s : Nat, q = (s : Int) - 149 := ⟨(q + 149).toNat, by omega⟩
  obtain ⟨hlo, hhi⟩ := mul_zpow_bounds hm (e - (s - 149))
  have hx : (m : ℚ) * 2 ^ e = m * 2 ^ (e - (s - 149)) * 2 ^ ((s : Int) - 149) := by
    rw [mul_assoc, ← zpow_add₀ two_ne_zero, sub_add_cancel]
  have h1 : (m : ℚ) * 2 ^ (e - (s - 149)) < (2 ^ 24 : Nat) := by
    refine hhi.trans_le ?_
    rw [Nat.cast_pow, Nat.cast_ofNat, ← zpow_natCast]
    exact zpow_le_zpow_right₀ one_le_two (by omega)
  have h0 : s = 0 ∨ (2 ^ 23 : Nat) ≤ (m : ℚ) * 2 ^ (e - (s - 149)) := by
    refine or_iff_not_imp_left.mpr fun hs => le_trans ?_ hlo
    rw [Nat.cast_pow, Nat.cast_ofNat, ← zpow_natCast]
    exact zpow_le_zpow_right₀ one_le_two (by omega)
  rw [hx]
  dsimp only
  rw [sub_add_cancel, Int.toNat_natCast]
  refine ⟨_, rfl, RoundsToNat.roundsTo ?_ (by positivity) h1 h0⟩
  split
  · next hle =>
    obtain ⟨d, hd⟩ := Int.eq_ofNat_of_zero_le (sub_nonneg.mpr hle)
    rw [hd, Int.toNat_natCast, zpow_natCast]
    exact_mod_cast roundsToNat_self (m * 2 ^ d)
  · next hlt =>
    obtain ⟨d, hd⟩ := Int.eq_ofNat_of_zero_le (show 0 ≤ (s : Int) - 149 - e by omega)
    rw [← neg_sub, hd, Int.toNat_natCast, zpow_neg, zpow_natCast, ← div_eq_mul_inv]
    exact shiftRoundEven_rounds m d

/-! ### The rounded pattern -/

/-- `w` is the pattern of `x` rounded to nearest, ties to even, infinite from the overflow threshold on. -/
def IsRounded (x : ℚ) (w : Half) : Prop :=
  (|x| < 2 ^ 128 - 2 ^ 103 → NearestEven x w) ∧ (2 ^ 128 - 2 ^ 103 ≤ |x| → unpack w = .inf (decide (x < 0)))

theorem roundsTo_zero : RoundsTo 0 0 := by
  have h0 := keyValue_strictMono (show (-1 : Int) < 0 by decide)
  have h1 := keyValue_strictMono (show (0 : Int) < 1 by decide)
  rw [keyValue_zero] at h0 h1
  constructor
  · rw [zero_sub, keyValue_zero]; linarith
  · rw [zero_add, keyValue_zero]; linarith
  · exact fun _ => Even.zero

theorem roundPack_eq (neg : Bool) (m : Nat) (e : Int) :
    ∃ R : Nat, roundPack neg m e = packBits neg (min R infMag) ∧ RoundsTo (m * 2 ^ e) R := by
  unfold roundPack
  split
  · next h =>
    rw [h, Nat.cast_zero, zero_mul]
    exact ⟨0, rfl, roundsTo_zero⟩
  · next h =>
    obtain ⟨R, hR, hrounds⟩ := roundMag_eq h e
    exact ⟨R, by rw [hR], hrounds⟩

theorem RoundsTo.signed {m : Nat} {e : Int} {R : Nat} (h : RoundsTo (m * 2 ^ e) R) (neg : Bool) (hR : R < 2 ^ 31) :
    RoundsTo (dyadic neg m e) (fKey (packBits neg R)) := by
  rw [fKey_packBits neg hR]
  cases neg
  · rw [dyadic_false]; exact h
  · rw [dyadic_true]; exact h.neg

theorem roundPack_isRounded (neg : Bool) (m : Nat) (e : Int) : IsRounded (dyadic neg m e) (roundPack neg m e) := by
  obtain ⟨R, hR, hrounds⟩ := roundPack_eq neg m e
  have hi : infMag < 2 ^ 31 := by decide
  rw [hR, IsRounded, abs_dyadic]
  constructor
  · intro hx
    have hlt : R < infMag := Int.ofNat_lt.mp (hrounds.lt_infMag hx)
    rw [min_eq_left hlt.le]
    refine (hrounds.signed neg (hlt.trans hi)).nearestEven ?_
    rwa [fKey_packBits_natAbs neg (hlt.trans hi)]
  · intro hx
    rw [min_eq_right (Int.ofNat_le.mp (hrounds.infMag_le hx)), unpack_packBits_inf, decide_dyadic_lt_zero]
    rintro rfl
    norm_num at hx

theorem roundPack_getLsbD_31 (neg : Bool) (m : Nat) (e : Int) : (roundPack neg m e).getLsbD 31 = neg := by
  obtain ⟨R, hR, -⟩ := roundPack_eq neg m e
  rw [hR, packBits_getLsbD_31]
  exact (min_le_right _ _).trans_lt (by decide)

end Sys2Proof.Machine

/-! SUPPORT. The operations of the shaper in FLOAT (`42_shaper_float.md` rule R200, rule R202): sum, difference,
product, scaling and the conversion of integers. -/

namespace Sys2Proof.Machine

/-! ## The operations -/

theorem quietNan_nanPattern (n : Nat) : QuietNan (nanPattern n) := ⟨unpack_nanPattern n, nanPattern_quiet n⟩

/-! ### Negation -/

theorem fNeg_packBits (neg : Bool) {mag : Nat} (h : mag < 2 ^ 31) : fNeg (packBits neg mag) = packBits (!neg) mag := by
  apply BitVec.eq_of_getLsbD_eq
  intro i hi
  have hsign : (0x80000000 : Half) = BitVec.twoPow 32 31 := by decide
  rw [fNeg, hsign, BitVec.getLsbD_xor, BitVec.getLsbD_twoPow]
  rcases (show i < 31 ∨ i = 31 by omega) with hlt | rfl
  · rw [packBits_getLsbD_of_lt neg h hlt, packBits_getLsbD_of_lt (!neg) h hlt]
    simp [hlt.ne']
  · rw [packBits_getLsbD_31 neg h, packBits_getLsbD_31 (!neg) h]
    simp

/-- The datum of the other sign. -/
def Datum.negate (d : Datum) : Datum :=
  match d with
  | .nan => .nan
  | .inf neg => .inf (!neg)
  | .fin neg m e => .fin (!neg) m e

theorem unpack_fNeg (w : Half) : unpack (fNeg w) = (unpack w).negate := by
  obtain ⟨neg, mag, hm, rfl⟩ := exists_packBits w
  rw [fNeg_packBits neg hm, unpack_packBits neg hm, unpack_packBits (!neg) hm]
  split_ifs <;> rfl

theorem fNeg_eq_negZero_iff {w : Half} : fNeg w = 0x80000000 ↔ w = 0 :=
  xor_right_eq_self_iff

theorem unpack_fNeg_nan {w : Half} (h : unpack w = .nan) : unpack (fNeg w) = .nan := by
  rw [unpack_fNeg, h]; rfl

theorem unpack_fNeg_inf {w : Half} {neg : Bool} (h : unpack w = .inf neg) : unpack (fNeg w) = .inf (!neg) := by
  rw [unpack_fNeg, h]; rfl

theorem patternValue_fNeg {w : Half} {v : ℚ} (h : patternValue w = some v) : patternValue (fNeg w) = some (-v) := by
  obtain ⟨neg, m, e, hw, rfl⟩ := unpack_of_patternValue h
  rw [← dyadic_not]
  exact patternValue_of_unpack_fin (by rw [unpack_fNeg, hw]; rfl)

/-! ### Sum and difference -/

theorem alignInt_value (neg : Bool) (m : Nat) {own e : Int} (h : e ≤ own) :
    (alignInt neg m own e : ℚ) * 2 ^ e = dyadic neg m own := by
  obtain ⟨d, hd⟩ := Int.eq_ofNat_of_zero_le (sub_nonneg.mpr h)
  have hdy := dyadic_mul_pow neg m d e
  rw [← hd, sub_add_cancel] at hdy
  rw [← hdy, alignInt, hd, Int.toNat_natCast]
  cases neg
  · simp [dyadic_false]
  · simp [dyadic_true]

section
variable {a b : Half} {na nb : Bool} {ma mb : Nat} {ea eb : Int} (n : Nat)
  (ha : unpack a = .fin na ma ea) (hb : unpack b = .fin nb mb eb)
include ha hb

/-- The sum of two finite patterns is one rounding of an integer at the lower of the two exponents. -/
theorem fAdd_fin : ∃ (v : Int) (e : Int), (v : ℚ) * 2 ^ e = dyadic na ma ea + dyadic nb mb eb ∧
    fAdd n a b = roundPack (if v = 0 then na && nb else decide (v < 0)) v.natAbs e := by
  refine ⟨_, _, ?_, by simp only [fAdd, ha, hb]; rfl⟩
  rw [Int.cast_add, add_mul, alignInt_value _ _ (min_le_left ea eb), alignInt_value _ _ (min_le_right ea eb)]

theorem fMul_fin : fMul n a b = roundPack (na != nb) (ma * mb) (ea + eb) := by
  simp only [fMul, ha, hb]

end

theorem fAdd_isRounded {a b : Half} {va vb : ℚ} (n : Nat) (ha : patternValue a = some va)
    (hb : patternValue b = some vb) : IsRounded (va + vb) (fAdd n a b) := by
  obtain ⟨na, ma, ea, ua, rfl⟩ := unpack_of_patternValue ha
  obtain ⟨nb, mb, eb, ub, rfl⟩ := unpack_of_patternValue hb
  obtain ⟨v, e, hv, hadd⟩ := fAdd_fin n ua ub
  rw [hadd, ← hv, ← dyadic_natAbs fun h => if_neg h]
  exact roundPack_isRounded _ _ _

theorem fSub_isRounded {a b : Half} {va vb : ℚ} (n : Nat) (ha : patternValue a = some va)
    (hb : patternValue b = some vb) : IsRounded (va - vb) (fSub n a b) := by
  rw [sub_eq_add_neg]
  exact fAdd_isRounded n ha (patternValue_fNeg hb)

theorem fMul_isRounded {a b : Half} {va vb : ℚ} (n : Nat) (ha : patternValue a = some va)
    (hb : patternValue b = some vb) : IsRounded (va * vb) (fMul n a b) := by
  obtain ⟨na, ma, ea, ua, rfl⟩ := unpack_of_patternValue ha
  obtain ⟨nb, mb, eb, ub, rfl⟩ := unpack_of_patternValue hb
  rw [fMul_fin n ua ub, ← dyadic_mul]
  exact roundPack_isRounded _ _ _

theorem fScaleDown_fin {a : Half} {na : Bool} {ma : Nat} {ea : Int} (n k : Nat) (ha : unpack a = .fin na ma ea) :
    fScaleDown n a k = roundPack na ma (ea - k) := by
  simp only [fScaleDown, ha]

theorem fScaleDown_isRounded {a : Half} {va : ℚ} (n k : Nat) (ha : patternValue a = some va) :
    IsRounded (va / 2 ^ k) (fScaleDown n a k) := by
  obtain ⟨na, ma, ea, ua, rfl⟩ := unpack_of_patternValue ha
  have hdiv : dyadic na ma ea / 2 ^ k = dyadic na ma (ea - k) := by
    rw [dyadic, dyadic, zpow_sub₀ two_ne_zero, zpow_natCast, mul_div_assoc]
  rw [fScaleDown_fin n k ua, hdiv]
  exact roundPack_isRounded _ _ _

/-! ### Signs of exact zeros, products and scalings -/

/-- Terms of one sign cancel only if both are zeros. -/
theorem dyadic_add_eq_zero {neg : Bool} {ma mb : Nat} {ea eb : Int}
    (h : dyadic neg ma ea + dyadic neg mb eb = 0) : ma = 0 ∧ mb = 0 := by
  have ha : (0 : ℚ) ≤ ma * 2 ^ ea := by positivity
  have hb : (0 : ℚ) ≤ mb * 2 ^ eb := by positivity
  rw [← dyadic_eq_zero_iff (neg := neg) (e := ea), ← dyadic_eq_zero_iff (neg := neg) (e := eb)]
  cases neg
  · rw [dyadic_false, dyadic_false] at *
    constructor <;> linarith
  · rw [dyadic_true, dyadic_true] at *
    constructor <;> linarith

theorem fAdd_exact_zero {a b : Half} {va vb : ℚ} (n : Nat) (ha : patternValue a = some va)
    (hb : patternValue b = some vb) (h : va + vb = 0) :
    fAdd n a b = if a = 0x80000000 ∧ b = 0x80000000 then 0x80000000 else 0 := by
  obtain ⟨na, ma, ea, ua, rfl⟩ := unpack_of_patternValue ha
  obtain ⟨nb, mb, eb, ub, rfl⟩ := unpack_of_patternValue hb
  obtain ⟨v, e, hv, hadd⟩ := fAdd_fin n ua ub
  have hv0 : v = 0 := by
    rw [h, mul_eq_zero, or_iff_left (by positivity)] at hv
    exact_mod_cast hv
  rw [hadd, hv0, if_pos rfl]
  cases hand : na && nb
  · rw [if_neg]
    · rfl
    · rintro ⟨rfl, rfl⟩
      cases ua
      cases ub
      exact absurd hand (by decide)
  · rw [Bool.and_eq_true] at hand
    obtain ⟨rfl, rfl⟩ := hand
    obtain ⟨rfl, rfl⟩ := dyadic_add_eq_zero h
    rw [unpack_fin_zero ua, unpack_fin_zero ub]
    rfl

theorem fSub_exact_zero {a b : Half} {va vb : ℚ} (n : Nat) (ha : patternValue a = some va)
    (hb : patternValue b = some vb) (h : va - vb = 0) :
    fSub n a b = if a = 0x80000000 ∧ b = 0 then 0x80000000 else 0 := by
  rw [fSub, fAdd_exact_zero n ha (patternValue_fNeg hb) (by rwa [← sub_eq_add_neg])]
  simp only [fNeg_eq_negZero_iff]

theorem fMul_getLsbD_31 {a b : Half} {va vb : ℚ} (n : Nat) (ha : patternValue a = some va)
    (hb : patternValue b = some vb) : (fMul n a b).getLsbD 31 = (a.getLsbD 31 != b.getLsbD 31) := by
  obtain ⟨na, ma, ea, ua, -⟩ := unpack_of_patternValue ha
  obtain ⟨nb, mb, eb, ub, -⟩ := unpack_of_patternValue hb
  rw [fMul_fin n ua ub, roundPack_getLsbD_31, getLsbD_31_of_unpack_fin ua, getLsbD_31_of_unpack_fin ub]

theorem fScaleDown_getLsbD_31 {a : Half} {va : ℚ} (n k : Nat) (ha : patternValue a = some va) :
    (fScaleDown n a k).getLsbD 31 = a.getLsbD 31 := by
  obtain ⟨na, ma, ea, ua, -⟩ := unpack_of_patternValue ha
  rw [fScaleDown_fin n k ua, roundPack_getLsbD_31, getLsbD_31_of_unpack_fin ua]

/-! ### Infinities and NaNs -/

section
variable (n : Nat) {a b : Half} {na nb : Bool} {v : ℚ}

theorem fSub_nan (h : unpack a = .nan ∨ unpack b = .nan) : fSub n a b = nanPattern n := by
  rcases h with h | h
  · exact fAdd_nan_left n _ h
  · exact fAdd_nan_right n _ (unpack_fNeg_nan h)

theorem fAdd_nan (h : unpack a = .nan ∨ unpack b = .nan) : fAdd n a b = nanPattern n :=
  h.elim (fAdd_nan_left n b) (fAdd_nan_right n a)

theorem fMul_nan (h : unpack a = .nan ∨ unpack b = .nan) : fMul n a b = nanPattern n :=
  h.elim (fMul_nan_left n b) (fMul_nan_right n a)

theorem fAdd_inf_inf (ha : unpack a = .inf na) (hb : unpack b = .inf nb) :
    fAdd n a b = if na = nb then packBits na infMag else nanPattern n := by
  simp only [fAdd, ha, hb]

theorem fAdd_inf_fin (ha : unpack a = .inf na) (hb : patternValue b = some v) :
    unpack (fAdd n a b) = .inf na := by
  obtain ⟨nb, mb, eb, ub, -⟩ := unpack_of_patternValue hb
  simp only [fAdd, ha, ub, unpack_packBits_inf]

theorem fAdd_fin_inf (ha : patternValue a = some v) (hb : unpack b = .inf nb) :
    unpack (fAdd n a b) = .inf nb := by
  obtain ⟨na, ma, ea, ua, -⟩ := unpack_of_patternValue ha
  simp only [fAdd, ua, hb, unpack_packBits_inf]

theorem fMul_inf_inf (ha : unpack a = .inf na) (hb : unpack b = .inf nb) :
    unpack (fMul n a b) = .inf (na != nb) := by
  simp only [fMul, ha, hb, unpack_packBits_inf]

theorem fMul_inf_fin (ha : unpack a = .inf na) (hb : patternValue b = some v) :
    fMul n a b = if v = 0 then nanPattern n else packBits (na != decide (v < 0)) infMag := by
  obtain ⟨nb, mb, eb, ub, rfl⟩ := unpack_of_patternValue hb
  simp only [fMul, ha, ub, dyadic_eq_zero_iff]
  split
  · rfl
  · next h => rw [decide_dyadic_lt_zero h]

theorem fMul_fin_inf (ha : patternValue a = some v) (hb : unpack b = .inf nb) :
    fMul n a b = if v = 0 then nanPattern n else packBits (nb != decide (v < 0)) infMag := by
  obtain ⟨na, ma, ea, ua, rfl⟩ := unpack_of_patternValue ha
  simp only [fMul, ua, hb, dyadic_eq_zero_iff]
  split
  · rfl
  · next h => rw [decide_dyadic_lt_zero h, bne_comm]

end

/-- Settles O20, one operation and one kind of operands at a time. -/
theorem floatOperationsRoundToNearestEven : Obligations.FloatOperationsRoundToNearestEven := fun n a b k => by
  refine ⟨fun va vb ha hb => ?_, fun h => ?_, fun h => ?_, fun na h => ?_, fun na nb ha hb => ?_, fun na vb ha hb => ?_,
    fun va nb ha hb => ?_⟩
  · exact ⟨fAdd_isRounded n ha hb, fSub_isRounded n ha hb, fMul_isRounded n ha hb, fScaleDown_isRounded n k ha,
      fAdd_exact_zero n ha hb, fSub_exact_zero n ha hb, fMul_getLsbD_31 n ha hb, fScaleDown_getLsbD_31 n k ha⟩
  · rw [fAdd_nan n h, fSub_nan n h, fMul_nan n h]
    exact ⟨quietNan_nanPattern n, quietNan_nanPattern n, quietNan_nanPattern n⟩
  · rw [fScaleDown_nan n k h]
    exact quietNan_nanPattern n
  · rw [fScaleDown_inf n k h, unpack_packBits_inf]
  · rw [fSub, fAdd_inf_inf n ha hb, fAdd_inf_inf n ha (unpack_fNeg_inf hb)]
    refine ⟨fMul_inf_inf n ha hb, ?_, fun hne => ?_⟩
    · rintro rfl
      rw [if_pos rfl, if_neg (by simp)]
      exact ⟨unpack_packBits_inf na, quietNan_nanPattern n⟩
    · rw [if_neg hne, if_pos (Bool.eq_not_of_ne hne)]
      exact ⟨quietNan_nanPattern n, unpack_packBits_inf na⟩
  · rw [fMul_inf_fin n ha hb]
    refine ⟨fAdd_inf_fin n ha hb, fAdd_inf_fin n ha (patternValue_fNeg hb), fun h0 => ?_, fun h0 => ?_⟩
    · rw [if_pos h0]; exact quietNan_nanPattern n
    · rw [if_neg h0, unpack_packBits_inf]
  · rw [fMul_fin_inf n ha hb]
    refine ⟨fAdd_fin_inf n ha hb, fAdd_fin_inf n ha (unpack_fNeg_inf hb), fun h0 => ?_, fun h0 => ?_⟩
    · rw [if_pos h0]; exact quietNan_nanPattern n
    · rw [if_neg h0, unpack_packBits_inf]

/-! ## The input conversion -/

/-- A number of at most 24 bits and any power of two is a value in units of 2^-149. -/
theorem exists_magUnits_eq {n : Nat} (h : n ≤ 2 ^ 24) (s : Nat) : ∃ mag, magUnits mag = n * 2 ^ s := by
  induction s generalizing n with
  | zero => exact ⟨n, by simpa using magUnits_of_normal (s := 0) (.inl rfl) h⟩
  | succ s ih =>
    by_cases hn : 2 ^ 23 ≤ n
    · exact ⟨_, magUnits_of_normal (.inr hn) h⟩
    · obtain ⟨mag, hmag⟩ := ih (n := 2 * n) (by omega)
      exact ⟨mag, by rw [hmag, pow_succ]; ring⟩

theorem exists_patternValue_int {n : Int} (h : |n| ≤ 2 ^ 24) : ∃ w, patternValue w = some (n : ℚ) := by
  rw [Int.abs_eq_natAbs] at h
  obtain ⟨mag, hmag⟩ := exists_magUnits_eq (n := n.natAbs) (by omega) 149
  have hlt : mag < infMag := by
    rw [← magUnits_strictMono.lt_iff_lt, hmag]
    calc n.natAbs * 2 ^ 149 ≤ 2 ^ 24 * 2 ^ 149 := Nat.mul_le_mul_right _ (by omega)
      _ < magUnits infMag := by decide
  refine ⟨packBits (decide (n < 0)) mag, ?_⟩
  rw [patternValue_packBits _ hlt, hmag, dyadic_mul_pow, dyadic_natAbs (fun _ => rfl),
    Nat.cast_ofNat, add_neg_cancel, zpow_zero, mul_one]

theorem fOfInt_isRounded (n : Int) : IsRounded n (fOfInt n) := by
  have h := roundPack_isRounded (decide (n < 0)) n.natAbs 0
  rwa [dyadic_natAbs (fun _ => rfl), zpow_zero, mul_one] at h

theorem NearestEven.value_eq {x : ℚ} {w w' : Half} (h : NearestEven x w) (hx : patternValue w' = some x) :
    patternValue w = some x := by
  obtain ⟨v, hv, hnear⟩ := h
  obtain ⟨hle, -⟩ := hnear w' x hx
  rw [sub_self, abs_zero, abs_nonpos_iff, sub_eq_zero] at hle
  rw [hv, hle]

/-- Settles O19: the conversion is one rounding, and up to 24 bits the integer itself is a binary32. -/
theorem floatOfSmallIntegerExact : Obligations.FloatOfSmallIntegerExact := fun n hn => by
  have hnear : NearestEven n (fOfInt n) := (fOfInt_isRounded n).1 (by
    calc |(n : ℚ)| < 2 ^ 31 := by exact_mod_cast hn
      _ < 2 ^ 128 - 2 ^ 103 := by norm_num)
  refine ⟨fOfInt n, rfl, hnear, fun h24 => ?_⟩
  obtain ⟨w, hw⟩ := exists_patternValue_int h24
  exact hnear.value_eq hw

end Sys2Proof.Machine

/-! SUPPORT. The shaper in FLOAT (`42_shaper_float.md` rule R203 to rule R210): the alpha, STAGE and CLIP. -/

namespace Sys2Proof.Machine

/-! ## The alpha -/

theorem patternValue_alphaMin : patternValue 0x30000000 = some (1 / 2 ^ 31) := by
  rw [patternValue_of_unpack_fin (neg := false) (m := 2 ^ 23) (e := -54) (by decide), dyadic_false]
  norm_num

theorem patternValue_alphaMax : patternValue 0x3F7FFFFF = some (1 - 1 / 2 ^ 24) := by
  rw [patternValue_of_unpack_fin (neg := false) (m := 2 ^ 24 - 1) (e := -24) (by decide), dyadic_false]
  norm_num

theorem patternValue_one : patternValue 0x3F800000 = some 1 := by
  rw [patternValue_of_unpack_fin (neg := false) (m := 2 ^ 23) (e := -23) (by decide), dyadic_false]
  norm_num

theorem patternValue_posZero : patternValue 0 = some 0 := by
  rw [patternValue_of_unpack_fin (neg := false) (m := 0) (e := -149) (by decide), dyadic_zero]

theorem clampF_nan {c : Half} (h : unpack c = .nan) : clampF c = 0x30000000 := by
  rw [clampF, isNan, h]
  rfl

theorem clampF_inf {c : Half} {neg : Bool} (h : unpack c = .inf neg) :
    clampF c = if neg then 0x30000000 else 0x3F7FFFFF := by
  rw [unpack_eq_inf_iff.mp h]
  cases neg <;> decide

section
variable {c : Half} {q : ℚ} (h : patternValue c = some q)
include h

theorem clampF_of_finite : clampF c = if q ≤ 0 then 0x30000000 else if 1 ≤ q then 0x3F7FFFFF else c := by
  have h0 : fKey c ≤ 0 ↔ q ≤ 0 := fKey_le_iff h patternValue_posZero
  simp only [clampF, isNan_of_patternValue h, h0, fKey_le_iff patternValue_one h, Bool.false_eq_true, if_false]

theorem clampF_nonpos (hq : q ≤ 0) : clampF c = 0x30000000 := by
  rw [clampF_of_finite h, if_pos hq]

theorem clampF_one_le (hq : 1 ≤ q) : clampF c = 0x3F7FFFFF := by
  rw [clampF_of_finite h, if_neg (by linarith), if_pos hq]

theorem clampF_inside (h0 : 0 < q) (h1 : q < 1) : clampF c = c := by
  rw [clampF_of_finite h, if_neg h0.not_ge, if_neg h1.not_ge]

end

theorem clampF_inside_unitInterval (c : Half) : ∃ q, patternValue (clampF c) = some q ∧ 0 < q ∧ q < 1 := by
  have hmin : ∃ q, patternValue 0x30000000 = some q ∧ 0 < q ∧ q < 1 := ⟨_, patternValue_alphaMin, by norm_num⟩
  have hmax : ∃ q, patternValue 0x3F7FFFFF = some q ∧ 0 < q ∧ q < 1 := ⟨_, patternValue_alphaMax, by norm_num⟩
  rcases hc : unpack c with _ | neg | ⟨neg, m, e⟩
  · rwa [clampF_nan hc]
  · rw [clampF_inf hc]
    cases neg <;> assumption
  · have hq := patternValue_of_unpack_fin hc
    rcases le_or_gt (dyadic neg m e) 0 with h0 | h0
    · rwa [clampF_nonpos hq h0]
    rcases le_or_gt 1 (dyadic neg m e) with h1 | h1
    · rwa [clampF_one_le hq h1]
    exact ⟨_, by rwa [clampF_inside hq h0 h1], h0, h1⟩

/-- Settles O18, by the kind of datum and, for a finite one, by its value. -/
theorem floatAlphaInsideUnitInterval : Obligations.FloatAlphaInsideUnitInterval :=
  ⟨patternValue_alphaMin, patternValue_alphaMax, fun c =>
    ⟨clampF_inside_unitInterval c, fun _ hq => ⟨clampF_nonpos hq, clampF_one_le hq, clampF_inside hq⟩, clampF_nan,
      fun _ => clampF_inf⟩⟩

/-! ## INTEG's saturation and STAGE -/

theorem patternValue_minusRail : patternValue 0xC7000000 = some (-32768) := by
  rw [patternValue_of_unpack_fin (neg := true) (m := 2 ^ 23) (e := -8) (by decide), dyadic_true]
  norm_num

theorem patternValue_plusRail : patternValue 0x46FFFE00 = some 32767 := by
  rw [patternValue_of_unpack_fin (neg := false) (m := 32767 * 2 ^ 9) (e := -9) (by decide), dyadic_false]
  norm_num

section
variable {t : Half}

theorem fSaturate16_nan (h : unpack t = .nan) : fSaturate16 t = t := by
  have hnan : isNan t = true := by rw [isNan, h]; rfl
  simp [fSaturate16, fLt, hnan]

theorem fSaturate16_inf {neg : Bool} (h : unpack t = .inf neg) :
    fSaturate16 t = if neg then 0xC7000000 else 0x46FFFE00 := by
  rw [unpack_eq_inf_iff.mp h]
  cases neg <;> decide

theorem fSaturate16_finite {q : ℚ} (h : patternValue t = some q) :
    fSaturate16 t = if 32767 < q then 0x46FFFE00 else if q < -32768 then 0xC7000000 else t := by
  simp only [fSaturate16, fLt_iff patternValue_plusRail h, fLt_iff h patternValue_minusRail]

/-- INTEG's saturation by values: the two rails, and what lies between them (rule R204). -/
theorem fSaturate16_rails {q : ℚ} (h : patternValue t = some q) :
    (q < -32768 → fSaturate16 t = 0xC7000000) ∧ (32767 < q → fSaturate16 t = 0x46FFFE00) ∧
      (-32768 ≤ q → q ≤ 32767 → fSaturate16 t = t) := by
  rw [fSaturate16_finite h]
  refine ⟨fun hlt => ?_, fun hgt => if_pos hgt, fun h0 h1 => ?_⟩
  · rw [if_neg (by linarith), if_pos hlt]
  · rw [if_neg h1.not_gt, if_neg h0.not_gt]

end

theorem lowPattern_wordIn_float (x : Word) : lowPattern (wordIn .float x) = lowPattern x :=
  BitVec.eq_of_toNat_eq (by simp [lowPattern, wordIn])

/-- In FLOAT a slot's evaluation writes S[k] and P[k] and counts four NaN numbers (log entry 2). -/
theorem Shaper.stage_float (k : Fin 4) (x : Word) (sh : Shaper) :
    sh.stage .float k x =
      let o := slotFloat sh.nans (sh.chain.get k) (sh.coef.get k) (sh.acc.get k) (sh.prev.get k) x
      (o.y, { sh with acc := sh.acc.set k o.acc, prev := sh.prev.set k o.prev, nans := sh.nans + 4 }) :=
  rfl

section
variable {k : Fin 4} {sh : Shaper}

/-- A slot of kind NONE hands its input pattern on (rule R204). -/
theorem Shaper.stage_float_none (h : sh.chain.get k = .none) (x : Word) :
    sh.stage .float k (wordIn .float x) = ((lowPattern x).setWidth 64, { sh with nans := sh.nans + 4 }) := by
  simp only [Shaper.stage_float, h, slotFloat, Quad.set_get, lowPattern_wordIn_float]

theorem Shaper.stage_float_integ (h : sh.chain.get k = .integ) (x : Word) :
    sh.stage .float k (wordIn .float x) =
      let y := (integFloat sh.nans (sh.coef.get k) (lowPattern (sh.acc.get k)) (lowPattern x)).setWidth 64
      (y, { sh with acc := sh.acc.set k y, nans := sh.nans + 4 }) := by
  simp only [Shaper.stage_float, h, slotFloat, Quad.set_get, lowPattern_wordIn_float]

theorem Shaper.stage_float_lpf (h : sh.chain.get k = .lpf) (x : Word) :
    sh.stage .float k (wordIn .float x) =
      let y := (lpfFloat sh.nans (sh.coef.get k) (lowPattern (sh.acc.get k)) (lowPattern x)).setWidth 64
      (y, { sh with acc := sh.acc.set k y, nans := sh.nans + 4 }) := by
  simp only [Shaper.stage_float, h, slotFloat, Quad.set_get, lowPattern_wordIn_float]

theorem Shaper.stage_float_hpf (h : sh.chain.get k = .hpf) (x : Word) :
    sh.stage .float k (wordIn .float x) =
      let y := (hpfFloat sh.nans (sh.coef.get k) (lowPattern (sh.acc.get k)) (lowPattern (sh.prev.get k))
        (lowPattern x)).setWidth 64
      (y, { sh with
        acc := sh.acc.set k y
        prev := sh.prev.set k ((lowPattern x).setWidth 64)
        nans := sh.nans + 4 }) := by
  simp only [Shaper.stage_float, h, slotFloat, lowPattern_wordIn_float]

end

/-- Settles O17, by the slot's kind; INTEG's saturation by the kind of datum of its sum. -/
theorem stageFloatByKind : Obligations.StageFloatByKind := by
  refine ⟨patternValue_minusRail, patternValue_plusRail, fun s k x h ha hr => ?_⟩
  have hexec := exec_stage ha h x
  rw [hr] at hexec
  dsimp only
  split
  · next hk => rw [hexec, Shaper.stage_float_none hk]; rfl
  · next hk =>
    rw [Shaper.stage_float_integ hk] at hexec
    rw [← integShift_eq]
    exact ⟨_, hexec, fSaturate16_nan, fun _ => fSaturate16_inf, fun _ => fSaturate16_rails⟩
  · next hk => rw [hexec, Shaper.stage_float_lpf hk]; rfl
  · next hk => rw [hexec, Shaper.stage_float_hpf hk]; rfl

/-! ## The clip -/

/-- Which NaN a product is makes no difference to its datum. -/
theorem unpack_fMul (n : Nat) (a b : Half) : unpack (fMul n a b) = unpack (fMul 0 a b) := by
  rcases ha : unpack a <;> rcases hb : unpack b <;>
    simp only [fMul, ha, hb, apply_ite unpack, unpack_nanPattern]

theorem fClip16_congr {a b : Half} (h : unpack a = unpack b) : fClip16 a = fClip16 b := by
  rw [fClip16, fClip16, h]

theorem fClip16_nan {a : Half} (h : unpack a = .nan) : fClip16 a = 0 := by
  rw [fClip16, h]

theorem fClip16_inf {a : Half} {neg : Bool} (h : unpack a = .inf neg) : fClip16 a = if neg then -32768 else 32767 := by
  rw [fClip16, h]

/-- The integer part of `m * 2^e`. -/
theorem floor_dyadic (m : Nat) (e : Int) :
    ⌊(m * 2 ^ e : ℚ)⌋ = if 0 ≤ e then ((m * 2 ^ e.toNat : Nat) : Int) else ((m / 2 ^ (-e).toNat : Nat) : Int) := by
  split
  · next h =>
    lift e to Nat using h
    rw [Int.toNat_natCast, zpow_natCast]
    exact_mod_cast Int.floor_natCast (R := ℚ) (m * 2 ^ e)
  · next h =>
    obtain ⟨d, rfl⟩ : ∃ d : Nat, e = -(d : Int) := ⟨(-e).toNat, by omega⟩
    rw [neg_neg, Int.toNat_natCast, zpow_neg, zpow_natCast, ← div_eq_mul_inv]
    exact_mod_cast Rat.floor_natCast_div_natCast m (2 ^ d)

theorem fClip16_finite {a : Half} {q : ℚ} (h : patternValue a = some q) :
    fClip16 a = max (-32768) (min 32767 (if 0 ≤ q then ⌊q⌋ else ⌈q⌉)) := by
  obtain ⟨neg, m, e, ha, rfl⟩ := unpack_of_patternValue h
  rw [fClip16, ha]
  dsimp only
  rw [← floor_dyadic, clip16_eq]
  have h0 : (0 : ℚ) ≤ m * 2 ^ e := by positivity
  cases neg
  · rw [dyadic_false, if_pos h0]; rfl
  · rw [dyadic_true, Int.ceil_neg]
    rcases h0.eq_or_lt with hz | hpos
    · rw [← hz]; rfl
    · rw [if_pos rfl, if_neg (by linarith)]

/-- Settles O22, by the kind of datum of the product, which does not depend on a NaN's number. -/
theorem clipFloatTruncatesThenClamps : Obligations.ClipFloatTruncatesThenClamps := fun s x ha hr => by
  refine ⟨clipFloat s.sh.gain (wordIn .float x), ?_, fun n => ?_⟩
  · rw [exec_clip ha, hr]; rfl
  · rw [clipFloat, lowPattern_wordIn_float, lowPattern, ← fClip16_congr (unpack_fMul n _ _)]
    exact ⟨fClip16_nan, fun _ => fClip16_inf, fun _ => fClip16_finite⟩

end Sys2Proof.Machine

/-! SUPPORT. The producer's side of the buffers (`43_buffer.md` rule R222 to rule R233): what a busy machine refuses, each
command taken up, FILL as repeated GEN, and START's loop. -/

namespace Sys2Proof.Machine

/-! ## A busy machine -/

/-- A command other than NOP and RDCSR stands behind `command`, those two behind `systemCommand` (rule R272 a). -/
theorem exec_notReady {s : State} {i : Instr} (hi : i.isCommand = true) (h : s.running = true ∨ s.waiting = true) :
    exec i s = .next s.noRsp := by
  cases i with
  | nop | rdcsr => rw [exec]; exact systemCommand_notReady h
  | cIdle | cTake | cRead | cReturn => cases hi
  | _ => rw [exec]; exact command_notReady h

/-- Settles O36: neither acceptance rule lets a command through. -/
theorem busyMachineAcceptsNothing : Obligations.BusyMachineAcceptsNothing := fun _ h =>
  ⟨fun _ hi => exec_notReady hi h, command_notReady h⟩

/-! ## The commands, taken up -/

/-- The guard of PUT and GEN. -/
theorem State.noRoom_iff (s : State) :
    (!s.pool.hold || s.full) = true ↔
      s.pool.own.get s.pool.pp ≠ .acquired ∨ (s.pool.cnt.get s.pool.pp).toNat = s.par.cap := by
  simp [State.full]

/-- The guard of REL. -/
theorem State.notFull_iff (s : State) :
    (!s.pool.hold || !s.full) = true ↔
      s.pool.own.get s.pool.pp ≠ .acquired ∨ (s.pool.cnt.get s.pool.pp).toNat ≠ s.par.cap := by
  simp [State.full]

/-- A held buffer with room: what PUT and GEN ask of the pool (rule R224), at a number that names a buffer. -/
structure State.Room (s : State) : Prop where
  held : s.pool.own.get s.pool.pp = .acquired
  pp_lt : s.pool.pp.val < s.par.nbuf
  cnt_lt : (s.pool.cnt.get s.pool.pp).toNat < s.par.cap

section
variable {s : State}

theorem State.Room.not_noRoom (h : s.Room) : ¬(!s.pool.hold || s.full) = true := by
  rw [State.noRoom_iff, not_or]
  exact ⟨not_not_intro h.held, h.cnt_lt.ne⟩

theorem State.Room.canStore (h : s.Room) : s.canStore = true := (State.canStore_iff s).mpr ⟨h.pp_lt, h.cnt_lt⟩

theorem exec_acq (ha : s.Accepts) (ho : s.pool.own.get s.pool.pp ≠ .acquired) :
    exec .acq s = .next s.acquireOrWait := by
  obtain ⟨hrun, hwait, hhalt⟩ := ha
  rw [exec, execAcq, command_accepts hrun hwait hhalt, if_neg (by rwa [Pool.hold_iff])]

theorem exec_put_protocol (ha : s.Accepts) (v : Sample)
    (h : s.pool.own.get s.pool.pp ≠ .acquired ∨ (s.pool.cnt.get s.pool.pp).toNat = s.par.cap) :
    exec (.put v) s = .next (s.takeFault .protocol) := by
  obtain ⟨hrun, hwait, hhalt⟩ := ha
  rw [exec, execPut, command_accepts hrun hwait hhalt, if_pos ((State.noRoom_iff s).mpr h)]

theorem exec_put (ha : s.Accepts) (v : Sample) (h : s.Room) :
    exec (.put v) s = .next (State.respond { s with pool := s.pool.store s.par.cap v } 0) := by
  obtain ⟨hrun, hwait, hhalt⟩ := ha
  rw [exec, execPut, command_accepts hrun hwait hhalt, if_neg h.not_noRoom, if_pos h.canStore]

theorem exec_rel_protocol (ha : s.Accepts)
    (h : s.pool.own.get s.pool.pp ≠ .acquired ∨ (s.pool.cnt.get s.pool.pp).toNat ≠ s.par.cap) :
    exec .rel s = .next (s.takeFault .protocol) := by
  obtain ⟨hrun, hwait, hhalt⟩ := ha
  rw [exec, execRel, command_accepts hrun hwait hhalt, if_pos ((State.notFull_iff s).mpr h)]

theorem exec_rel (ha : s.Accepts) (ho : s.pool.own.get s.pool.pp = .acquired)
    (hf : (s.pool.cnt.get s.pool.pp).toNat = s.par.cap) :
    exec .rel s = .next (State.respond { s with pool := s.pool.release s.par.nbuf } 0) := by
  obtain ⟨hrun, hwait, hhalt⟩ := ha
  have hguard : ¬(!s.pool.hold || !s.full) = true := by
    rw [State.notFull_iff, not_or]
    exact ⟨not_not_intro ho, not_not_intro hf⟩
  rw [exec, execRel, command_accepts hrun hwait hhalt, if_neg hguard]

theorem exec_gen_unseeded (ha : s.Accepts) (hs : s.rng.seeded = false) :
    exec .gen s = .next (s.takeFault .notSeeded) := by
  obtain ⟨hrun, hwait, hhalt⟩ := ha
  rw [exec, execGen, command_accepts hrun hwait hhalt, seededOnly_unseeded hs]

theorem exec_gen_protocol (ha : s.Accepts) (hs : s.rng.seeded = true)
    (h : s.pool.own.get s.pool.pp ≠ .acquired ∨ (s.pool.cnt.get s.pool.pp).toNat = s.par.cap) :
    exec .gen s = .next (s.takeFault .protocol) := by
  obtain ⟨hrun, hwait, hhalt⟩ := ha
  rw [exec, execGen, command_accepts hrun hwait hhalt, seededOnly_seeded hs, if_pos ((State.noRoom_iff s).mpr h)]

theorem exec_gen (ha : s.Accepts) (hs : s.rng.seeded = true) (h : s.Room) :
    exec .gen s = .next (s.genBody.2.respond (sampleRes s.genBody.1)) := by
  obtain ⟨hrun, hwait, hhalt⟩ := ha
  rw [exec, execGen, command_accepts hrun hwait hhalt, seededOnly_seeded hs, if_neg h.not_noRoom, if_pos h.canStore]

theorem exec_fill (ha : s.Accepts) (hs : s.rng.seeded = true) (ho : s.pool.own.get s.pool.pp = .acquired)
    (hpp : s.pool.pp.val < s.par.nbuf) (hc : (s.pool.cnt.get s.pool.pp).toNat ≤ s.par.cap) :
    exec .fill s = .next
      ((s.genTimes (s.par.cap - (s.pool.cnt.get s.pool.pp).toNat)).respond
        (BitVec.ofNat 64 (s.par.cap - (s.pool.cnt.get s.pool.pp).toNat))) := by
  obtain ⟨hrun, hwait, hhalt⟩ := ha
  have hstore : (s.full || s.canStore) = true := by
    rw [Bool.or_eq_true, State.full_iff, State.canStore_iff]
    omega
  rw [exec, execFill, command_accepts hrun hwait hhalt, seededOnly_seeded hs, (Pool.hold_iff _).mpr ho]
  exact if_pos hstore

theorem exec_start (ha : s.Accepts) (hs : s.rng.seeded = true) (ho : s.pool.own.get s.pool.pp ≠ .acquired)
    (hk : s.sinkOk = true) : exec .start s = .next { s with running := true, phase := .acquire, rsp := none } := by
  obtain ⟨hrun, hwait, hhalt⟩ := ha
  rw [exec, execStart, command_accepts hrun hwait hhalt, seededOnly_seeded hs, if_neg (by rwa [Pool.hold_iff]), hk]
  rfl

end

/-! ## ACQ -/

/-- The blocked acquire, with the command in execution written as an update only when it changes. -/
theorem acquireOrWait_free_of_not_waiting {s : State} (hw : s.waiting = false)
    (h : s.pool.own.get s.pool.pp = .free) :
    s.acquireOrWait = { s with pool := s.pool.acquire, rsp := some ⟨BitVec.ofNat 64 s.pool.pp.val, false⟩ } := by
  rw [acquireOrWait_free h]
  cases s
  cases hw
  rfl

theorem acquireOrWait_waits_of_waiting {s : State} (hw : s.waiting = true)
    (h : s.pool.own.get s.pool.pp ≠ .free) : s.acquireOrWait = { s with rsp := none } := by
  rw [acquireOrWait_waits h]
  cases s
  cases hw
  rfl

/-- Settles O28: an ACQ taken up is the blocked acquire, which a FREE buffer lets go at once. -/
theorem acqTakesTheFreeBuffer : Obligations.AcqTakesTheFreeBuffer := fun s ha ho => by
  have ⟨_, hwait, _⟩ := ha
  rw [exec_acq ha (by rw [ho]; decide), acquireOrWait_free_of_not_waiting hwait ho]
  rfl

theorem perform_producer_waiting {s : State} (hrun : s.running = false) (hwait : s.waiting = true) :
    perform .producer s = .next s.acquireOrWait := by
  simp [perform, producerStep, hrun, hwait]

/-- Settles O29: both the command and the producer's step are the blocked acquire. -/
theorem acqBlocksUntilFree : Obligations.AcqBlocksUntilFree := by
  refine fun s hrun => ⟨fun ha ho => ?_, fun hwait ho => ?_, fun hwait ho => ?_⟩
  · have ⟨hacq, hfree⟩ : s.pool.own.get s.pool.pp ≠ .acquired ∧ s.pool.own.get s.pool.pp ≠ .free := by
      rcases ho with ho | ho <;> rw [ho] <;> decide
    rw [exec_acq ha hacq, acquireOrWait_waits hfree]
  · rw [perform_producer_waiting hrun hwait, acquireOrWait_waits_of_waiting hwait ho]
  · rw [perform_producer_waiting hrun hwait, acquireOrWait_free ho]
    rfl

/-! ## PUT -/

theorem Mem.read_writeSample_low (m : List Host.Cell) (addr : Nat) (v : Sample) :
    Mem.read (Mem.writeSample m addr v) (2 * addr) = some (v.extractLsb' 0 8) := by
  rw [Mem.writeSample, Mem.read_write_other _ _ (by omega), Mem.read_write_same]

theorem Mem.read_writeSample_high (m : List Host.Cell) (addr : Nat) (v : Sample) :
    Mem.read (Mem.writeSample m addr v) (2 * addr + 1) = some (v.extractLsb' 8 8) := by
  rw [Mem.writeSample, Mem.read_write_same]

/-- Settles O30: the memory answered is the one `Mem.writeSample` makes at the next address. -/
theorem putStoresOneSample : Obligations.PutStoresOneSample := by
  refine ⟨fun _ _ => rfl, fun s v ha h => exec_put_protocol ha v h, fun s v ha ho hpp hc => ?_⟩
  exact ⟨_, exec_put ha v ⟨ho, hpp, hc⟩, Mem.read_writeSample_low _ _ v, Mem.read_writeSample_high _ _ v,
    Mem.readSample_writeSample_same _ _ v, fun _ => Mem.read_writeSample_other v⟩

/-! ## REL -/

/-- The next index, by cases instead of a remainder (rule R37). -/
theorem ringNext_val {nbuf : Nat} {i : Fin 4} (hi : i.val < nbuf) :
    (ringNext nbuf i).val = if i.val + 1 = nbuf then 0 else (i.val + 1) % 4 := by
  rw [ringNext, Fin.val_ofNat]
  split
  · next h => rw [h, Nat.mod_self]
  · next h => rw [Nat.mod_eq_of_lt (a := i.val + 1) (by omega)]

/-- Settles O31: the new PP is the ring's next index. -/
theorem relHandsOver : Obligations.RelHandsOver :=
  ⟨fun _ _ => rfl, fun _ ha h => exec_rel_protocol ha h,
    fun _ ha ho hf hpp => ⟨_, ringNext_val hpp, exec_rel ha ho hf⟩⟩

/-! ## GEN -/

/-- What a draw of generator `a` leaves alone, any number of them leaves alone. -/
theorem Rng.drawSum_keeps_of_alg {α : Type} {a : Alg} (f : Rng → α)
    (hf : ∀ r : Rng, r.alg = a → f r.draw.2 = f r) (n : Nat) {r : Rng} (h : r.alg = a) :
    f (r.drawSum n).2 = f r := by
  induction n generalizing r with
  | zero => rfl
  | succ k ih => rw [Rng.drawSum_succ]; exact (ih (r.draw_alg.trans h)).trans (hf r h)

theorem Rng.normal_pst_of_xs32 {r : Rng} (h : r.alg = .xs32) (n : Nat) : (r.normal n).2.pst = r.pst :=
  Rng.drawSum_keeps_of_alg Rng.pst (fun _ h => by rw [Rng.draw_xs32 h]) n h

theorem Rng.normal_xs_of_pcg32 {r : Rng} (h : r.alg = .pcg32) (n : Nat) : (r.normal n).2.xs = r.xs :=
  Rng.drawSum_keeps_of_alg Rng.xs (fun _ h => by rw [Rng.draw_pcg32 h]) n h

theorem Rng.eq_of_fields {q r : Rng} (hs : q.seeded = r.seeded) (ha : q.alg = r.alg) (hx : q.xs = r.xs)
    (hp : q.pst = r.pst) (hi : q.pinc = r.pinc) : q = r := by
  cases q
  cases r
  cases hs; cases ha; cases hx; cases hp; cases hi
  rfl

/-- A normal draw moves the live word only (rule R34). -/
theorem Rng.normal_eq_live (n : Nat) (r : Rng) :
    (r.normal n).2 = { r with
      xs := if r.alg = .xs32 then (r.normal n).2.xs else r.xs
      pst := if r.alg = .pcg32 then (r.normal n).2.pst else r.pst } := by
  refine Rng.eq_of_fields (r.normal_seeded n) (r.normal_alg n) ?_ ?_ (r.normal_pinc n) <;> cases h : r.alg
  · rfl
  · exact Rng.normal_xs_of_pcg32 h n
  · exact Rng.normal_pst_of_xs32 h n
  · rfl

theorem Rng.normal_eq_afterDraws (n : Nat) (r : Rng) : (r.normal n).2 = r.afterDraws n := by
  rw [Rng.normal_snd, Rng.drawSum_eq]

/-- Settles O32: a GEN taken up is one `gen_body`, whose store is `Mem.writeSample` at the next address. -/
theorem genMakesOneSample : Obligations.GenMakesOneSample := by
  refine ⟨fun _ _ => rfl, fun s ha hs => exec_gen_unseeded ha hs, fun s ha hs h => exec_gen_protocol ha hs h,
    fun s ha hs ho hpp hc => ⟨s.rng.normal_eq_afterDraws _, s.rng.normal_eq_live _, rfl, ?_⟩⟩
  exact ⟨_, exec_gen ha hs ⟨ho, hpp, hc⟩, Mem.readSample_writeSample_same _ _ _,
    fun _ => Mem.read_writeSample_other _⟩

/-! ## FILL -/

theorem Quad.set_set {α : Type} (q : Quad α) (i : Fin 4) (v w : α) : (q.set i v).set i w = q.set i w := by
  fin_cases i <;> rfl

section
variable {s : State}

/-- Generating reads no response. -/
theorem State.genTimes_rsp (m : Nat) (s : State) (rsp : Option Rsp) :
    State.genTimes m { s with rsp := rsp } = { s.genTimes m with rsp := rsp } := by
  induction m generalizing s with
  | zero => rfl
  | succ k ih => exact ih s.genBody.2

theorem State.genBody_cnt_toNat (hcap : s.par.cap < 2 ^ 32) (hc : (s.pool.cnt.get s.pool.pp).toNat < s.par.cap) :
    (s.genBody.2.pool.cnt.get s.pool.pp).toNat = (s.pool.cnt.get s.pool.pp).toNat + 1 := by
  rw [← toNat_add_one_of_lt_cap hcap hc, ← Pool.store_cnt_pp]
  rfl

/-- The part of the state that generating writes: the generator, S, P, the counter of NaNs, the samples and the count of
the held buffer (rule R228). -/
theorem State.genTimes_frame (m : Nat) (s : State) :
    s.genTimes m = { s with
      rng := (s.genTimes m).rng
      sh := { s.sh with
        acc := (s.genTimes m).sh.acc, prev := (s.genTimes m).sh.prev, nans := (s.genTimes m).sh.nans }
      pool := { s.pool with
        mem := (s.genTimes m).pool.mem
        cnt := s.pool.cnt.set s.pool.pp ((s.genTimes m).pool.cnt.get s.pool.pp) } } := by
  induction m generalizing s with
  | zero => simp
  | succ k ih =>
    have hrest := ih s.genBody.2
    rw [← State.genTimes_succ] at hrest
    generalize s.genTimes (k + 1) = t at hrest ⊢
    refine hrest.trans ?_
    simp only [State.genBody_eq, Pool.store_own, Pool.store_cnt, Pool.store_pp, Pool.store_tp, Pool.store_rp,
      Shaper.shape_chain, Shaper.shape_coef, Shaper.shape_gain, Quad.set_set]

/-- `m` samples more, when there is room for them (rule R230). -/
theorem State.genTimes_cnt_toNat {m : Nat} (hcap : s.par.cap < 2 ^ 32)
    (hm : (s.pool.cnt.get s.pool.pp).toNat + m ≤ s.par.cap) :
    ((s.genTimes m).pool.cnt.get s.pool.pp).toNat = (s.pool.cnt.get s.pool.pp).toNat + m := by
  induction m generalizing s with
  | zero => rfl
  | succ k ih =>
    have hcnt := State.genBody_cnt_toNat hcap (s := s) (by omega)
    calc ((s.genBody.2.genTimes k).pool.cnt.get s.pool.pp).toNat
      _ = (s.genBody.2.pool.cnt.get s.pool.pp).toNat + k :=
        ih (s := s.genBody.2) hcap (show (s.genBody.2.pool.cnt.get s.pool.pp).toNat + k ≤ s.par.cap by omega)
      _ = (s.pool.cnt.get s.pool.pp).toNat + (k + 1) := by omega

/-- The samples go to the next `m` slots, two bytes each (rule R73); every other byte stays. -/
theorem State.genTimes_read_other {m a : Nat} (hcap : s.par.cap < 2 ^ 32)
    (hm : (s.pool.cnt.get s.pool.pp).toNat + m ≤ s.par.cap)
    (hout : a < 2 * s.pool.nextAddr s.par.cap ∨ 2 * (s.pool.nextAddr s.par.cap + m) ≤ a) :
    Mem.read (s.genTimes m).pool.mem a = Mem.read s.pool.mem a := by
  induction m generalizing s with
  | zero => rfl
  | succ k ih =>
    have hcnt := State.genBody_cnt_toNat hcap (s := s) (by omega)
    have hnext : s.genBody.2.pool.nextAddr s.par.cap = s.pool.nextAddr s.par.cap + 1 := by
      change _ + (s.genBody.2.pool.cnt.get s.pool.pp).toNat = _
      rw [hcnt]
      rfl
    have hrest : Mem.read (s.genBody.2.genTimes k).pool.mem a = Mem.read s.genBody.2.pool.mem a := by
      refine ih (s := s.genBody.2) hcap ?_ ?_
      · change (s.genBody.2.pool.cnt.get s.pool.pp).toNat + k ≤ s.par.cap
        omega
      · change a < 2 * s.genBody.2.pool.nextAddr s.par.cap ∨ 2 * (s.genBody.2.pool.nextAddr s.par.cap + k) ≤ a
        omega
    exact hrest.trans (Mem.read_writeSample_other _ (by omega) (by omega))

/-- GEN, as often as the held buffer has room for, is `gen_body` as often but for the response. -/
theorem execTimes_gen {m : Nat} (ha : s.Accepts) (hs : s.rng.seeded = true)
    (ho : s.pool.own.get s.pool.pp = .acquired) (hpp : s.pool.pp.val < s.par.nbuf) (hcap : s.par.cap < 2 ^ 32)
    (hm : (s.pool.cnt.get s.pool.pp).toNat + m ≤ s.par.cap) :
    ∃ rsp, execTimes .gen m s = .next { s.genTimes m with rsp := rsp } := by
  induction m generalizing s with
  | zero => exact ⟨s.rsp, rfl⟩
  | succ k ih =>
    have hc : (s.pool.cnt.get s.pool.pp).toNat < s.par.cap := by omega
    have hcnt := State.genBody_cnt_toNat hcap hc
    obtain ⟨rsp, hrest⟩ := ih (s := s.genBody.2.respond (sampleRes s.genBody.1)) ha
      ((Rng.normal_seeded _ _).trans hs) ho hpp hcap
      (show (s.genBody.2.pool.cnt.get s.pool.pp).toNat + k ≤ s.par.cap by omega)
    refine ⟨rsp, ?_⟩
    rw [execTimes, exec_gen ha hs ⟨ho, hpp, hc⟩]
    dsimp only
    rw [hrest, State.respond, State.genTimes_rsp, State.genTimes_succ]

end

/-- Settles O33: both sides are `m` times `gen_body`, whose frame, count and bytes are known. -/
theorem fillIsRepeatedGen : Obligations.FillIsRepeatedGen := by
  intro s ha hs ho hpp hle hcap m addr
  have hm : (s.pool.cnt.get s.pool.pp).toNat + m = s.par.cap := Nat.add_sub_cancel' hle
  obtain ⟨rsp, hgen⟩ := execTimes_gen ha hs ho hpp hcap hm.le
  refine ⟨_, hgen, exec_fill ha hs ho hpp hle, ?_, ?_, fun a hout => State.genTimes_read_other hcap hm.le hout⟩
  · exact congrArg (fun t : State => { t with rsp := rsp }) (State.genTimes_frame m s)
  · exact (State.genTimes_cnt_toNat hcap hm.le).trans hm

/-! ## START and its loop -/

/-- Settles O34: START taken up, its three faults ruled out. -/
theorem startEntersTheLoop : Obligations.StartEntersTheLoop := fun _ => exec_start

section
variable {s : State}

theorem perform_producer_running (hrun : s.running = true) : perform .producer s = loopStep s := by
  simp [perform, producerStep, hrun]

theorem loopStep_acquire_waits (hp : s.phase = .acquire) (ho : s.pool.own.get s.pool.pp ≠ .free) :
    loopStep s = .next s := by
  simp [loopStep, hp, ho]

theorem loopStep_acquire_free (hp : s.phase = .acquire) (ho : s.pool.own.get s.pool.pp = .free) :
    loopStep s = .next { s with pool := s.pool.acquire, phase := .fill } := by
  simp [loopStep, hp, ho]

theorem loopStep_fill (hp : s.phase = .fill) (hc : s.canStore = true) :
    loopStep s = .next { s.genBody.2 with phase := if s.genBody.2.full then .release else .fill } := by
  simp [loopStep, hp, hc]

theorem loopStep_release (hp : s.phase = .release) :
    loopStep s = .next { s with pool := s.pool.release s.par.nbuf, phase := .acquire } := by
  simp [loopStep, hp]

/-- A draw does not read SEEDED, which gates the commands only (rule R130). -/
theorem Rng.draw_withSeeded (r : Rng) (b : Bool) :
    Rng.draw { r with seeded := b } = (r.draw.1, { r.draw.2 with seeded := b }) := by
  unfold Rng.draw
  dsimp only
  cases r.alg <;> rfl

theorem Rng.drawSum_withSeeded (n : Nat) (r : Rng) (b : Bool) :
    Rng.drawSum n { r with seeded := b } = ((r.drawSum n).1, { (r.drawSum n).2 with seeded := b }) := by
  induction n generalizing r with
  | zero => rfl
  | succ k ih => rw [Rng.drawSum_succ, Rng.draw_withSeeded, ih, Rng.drawSum_succ]

theorem Rng.normal_withSeeded (n : Nat) (r : Rng) (b : Bool) :
    Rng.normal n { r with seeded := b } = ((r.normal n).1, { (r.normal n).2 with seeded := b }) := by
  rw [Rng.normal, Rng.drawSum_withSeeded]
  rfl

theorem State.genBody_full_iff (hcap : s.par.cap < 2 ^ 32)
    (hc : (s.pool.cnt.get s.pool.pp).toNat < s.par.cap) :
    s.genBody.2.full = true ↔ (s.pool.cnt.get s.pool.pp).toNat + 1 = s.par.cap := by
  rw [State.full_iff, ← State.genBody_cnt_toNat hcap hc]
  rfl

end

/-- `s` as a host finds it that may present GEN: nothing in execution, seeded, the buffer at PP held. -/
def State.readyForGen (s : State) : State :=
  { s with
    running := false
    waiting := false
    halted := false
    rng := { s.rng with seeded := true }
    pool := { s.pool with own := s.pool.own.set s.pool.pp .acquired } }

/-- `gen_body` reads neither the control state nor SEEDED nor OWN: the sample and what is written are the same. -/
theorem State.genBody_readyForGen (s : State) :
    s.genBody.2 = { s with
      rng := { s.readyForGen.genBody.2.rng with seeded := s.rng.seeded }
      sh := s.readyForGen.genBody.2.sh
      pool := { s.pool with
        mem := s.readyForGen.genBody.2.pool.mem, cnt := s.readyForGen.genBody.2.pool.cnt } } := by
  have hnormal := Rng.normal_withSeeded s.par.ndraw s.rng true
  have hrng : { (s.rng.normal s.par.ndraw).2 with seeded := s.rng.seeded } = (s.rng.normal s.par.ndraw).2 :=
    Rng.eq_of_fields (Rng.normal_seeded s.par.ndraw s.rng).symm rfl rfl rfl rfl
  simp only [State.genBody_eq, State.readyForGen, hnormal, hrng]
  rfl

/-- Settles O35: the loop's step phase by phase, the fill phase being the `gen_body` of GEN. -/
theorem loopPhases : Obligations.LoopPhases := by
  intro s hrun
  rw [perform_producer_running hrun]
  refine ⟨loopStep_acquire_waits, loopStep_acquire_free, fun hp hpp hc hcap => ?_, loopStep_release⟩
  have hroom : s.readyForGen.Room := ⟨Quad.get_set_same _ _ _, hpp, hc⟩
  refine ⟨_, exec_gen (s := s.readyForGen) ⟨rfl, rfl, rfl⟩ rfl hroom, ?_⟩
  rw [loopStep_fill hp ((State.canStore_iff s).mpr ⟨hpp, hc⟩)]
  simp only [State.genBody_full_iff hcap hc]
  rw [State.genBody_readyForGen]
  rfl

end Sys2Proof.Machine

/-! SUPPORT. The consumer's side of the buffers (`43_buffer.md` rule R234 to rule R237), and the cycle of ownership (rule
R221). -/

namespace Sys2Proof.Machine

/-! ## The consumer's operations -/

/-- Settles O37: C_TAKE asks for c_avail, which is OWN[TP] = RELEASED. -/
theorem takeOrUnderrun : Obligations.TakeOrUnderrun := by
  refine fun s => ⟨fun ho => ?_, fun ho => ?_⟩ <;> rw [exec, execCTake]
  · rw [if_pos (by simp [State.cAvail, ho])]
    rfl
  · rw [if_neg (by simp [State.cAvail, ho])]
    rfl

theorem State.readAccepted_iff (s : State) (idx : BitVec 2) (slot : Half) :
    s.readAccepted idx slot = true ↔
      idx.toNat < s.par.nbuf ∧ slot.toNat < s.par.cap ∧ s.pool.own.get idx.toFin = .inflight := by
  simp [State.readAccepted, ringIdx, and_assoc]

/-- Settles O38: C_READ's condition is that of rule R235, and its answer changes the response alone. -/
theorem readOnlyWhileInFlight : Obligations.ReadOnlyWhileInFlight := by
  refine fun s idx slot => ⟨fun hok v hv => ?_, fun hno => ?_⟩ <;> rw [exec, execCRead]
  · rw [if_pos ((State.readAccepted_iff s idx slot).mpr hok), sampleAddr, hv]
    rfl
  · rw [if_neg ((State.readAccepted_iff s idx slot).not.mpr hno)]
    rfl

/-- Settles O39: C_RETURN asks for OWN[RP] = INFLIGHT. -/
theorem returnFreesOldestInFlight : Obligations.ReturnFreesOldestInFlight := by
  refine fun s => ⟨fun ho => ?_, fun ho => ?_⟩ <;> rw [exec, execCReturn]
  · rw [if_pos (by simp [ho])]
    rfl
  · rw [if_neg (by simp [ho])]
    rfl

/-! ## Ownership moves along the cycle -/

/-- A transition of rule R221 that takes buffer `i` of `p` to the owner `o`, at the transition's own pointer. -/
def Pool.Transition (cap : Nat) (p : Pool) (i : Fin 4) (o : Own) : Prop :=
  (p.own.get i = .free ∧ o = .acquired ∧ i = p.pp) ∨
    (p.own.get i = .acquired ∧ o = .released ∧ i = p.pp ∧ (p.cnt.get i).toNat = cap) ∨
    (p.own.get i = .released ∧ o = .inflight ∧ i = p.tp) ∨
    (p.own.get i = .inflight ∧ o = .free ∧ i = p.rp)

/-- Each buffer keeps its owner from `p` to `q`, or makes a transition of `p`. -/
def Pool.OwnMoves (cap : Nat) (p q : Pool) : Prop :=
  ∀ i, q.own.get i = p.own.get i ∨ p.Transition cap i (q.own.get i)

section
variable {cap : Nat} {p q : Pool}

theorem Pool.OwnMoves.of_own_eq (h : q.own = p.own) : p.OwnMoves cap q := fun _ => .inl (by rw [h])

theorem Pool.OwnMoves.of_set {i : Fin 4} {o : Own} (h : q.own = p.own.set i o) (ht : p.Transition cap i o) :
    p.OwnMoves cap q := fun j => by
  rw [h]
  by_cases hj : j = i
  · rw [hj, Quad.get_set_same]
    exact .inr ht
  · exact .inl (Quad.get_set_other _ _ hj)

theorem Pool.acquire_ownMoves (ho : p.own.get p.pp = .free) : p.OwnMoves cap p.acquire :=
  .of_set rfl (.inl ⟨ho, rfl, rfl⟩)

theorem Pool.release_ownMoves (n : Nat) (ho : p.own.get p.pp = .acquired) (hf : (p.cnt.get p.pp).toNat = cap) :
    p.OwnMoves cap (p.release n) :=
  .of_set rfl (.inr (.inl ⟨ho, rfl, rfl, hf⟩))

theorem Pool.take_ownMoves (n : Nat) (ho : p.own.get p.tp = .released) : p.OwnMoves cap (p.take n) :=
  .of_set rfl (.inr (.inr (.inl ⟨ho, rfl, rfl⟩)))

theorem Pool.giveBack_ownMoves (n : Nat) (ho : p.own.get p.rp = .inflight) : p.OwnMoves cap (p.giveBack n) :=
  .of_set rfl (.inr (.inr (.inr ⟨ho, rfl, rfl⟩)))

end

section
variable {s t : State}

theorem acquireOrWait_ownMoves (s : State) : s.pool.OwnMoves s.par.cap s.acquireOrWait.pool := by
  by_cases ho : s.pool.own.get s.pool.pp = .free
  · rw [acquireOrWait_free ho]
    exact Pool.acquire_ownMoves ho
  · rw [acquireOrWait_waits ho]
    exact .of_own_eq rfl

/-- ACQ, REL, C_TAKE and C_RETURN alone write OWN. -/
theorem Effect.ownMoves {i : Instr} (h : Effect s i t) : s.pool.OwnMoves s.par.cap t.pool := by
  cases h with
  | acq => exact acquireOrWait_ownMoves s
  | rel hr hh ho hf => exact Pool.release_ownMoves _ ho ((State.full_iff s).mp hf)
  | cTake ho => exact Pool.take_ownMoves _ ho
  | cReturn ho => exact Pool.giveBack_ownMoves _ ho
  | fill => exact .of_own_eq (State.genTimes_own _ s)
  | _ => exact .of_own_eq rfl

theorem execIllegal_ownMoves (h : execIllegal s = .next t) : s.pool.OwnMoves s.par.cap t.pool := by
  rcases execIllegal_next h with ⟨-, rfl⟩ | ⟨-, -, rfl⟩ | ⟨-, -, rfl⟩ <;> exact .of_own_eq rfl

/-- In the release phase the invariant has START's loop hold a full buffer. -/
theorem loopStep_ownMoves (h : loopStep s = .next t) (hs : s.Inv) (hrun : s.running = true) :
    s.pool.OwnMoves s.par.cap t.pool := by
  rcases loopStep_next h with ⟨-, ho, rfl⟩ | ⟨-, -, rfl⟩ | ⟨-, -, rfl⟩ | ⟨hp, rfl⟩
  · exact Pool.acquire_ownMoves ho
  · exact .of_own_eq rfl
  · exact .of_own_eq rfl
  · have hphase := hs.control.running_phase hrun
    rw [hp] at hphase
    obtain ⟨hhold, hfull⟩ := hphase
    exact Pool.release_ownMoves _ ((Pool.hold_iff _).mp hhold) ((State.full_iff s).mp hfull)

theorem producerStep_ownMoves (h : producerStep s = .next t) (hs : s.Inv) : s.pool.OwnMoves s.par.cap t.pool := by
  rcases producerStep_cases s with ⟨hrun, hp⟩ | ⟨-, -, hp⟩ | ⟨-, -, hp⟩ <;> rw [hp] at h
  · exact loopStep_ownMoves h hs hrun
  · rw [← next_inj h]; exact acquireOrWait_ownMoves s
  · rw [next_inj h]; exact .of_own_eq rfl

theorem perform_ownMoves {e : Input} (h : perform e s = .next t) (hs : s.Inv) (he : e ≠ .rstPulse) :
    s.pool.OwnMoves s.par.cap t.pool := by
  rcases perform_next h with ⟨_, _, _, _, hx⟩ | ⟨_, _, _, _, hx⟩ | ⟨_, hx⟩ | ⟨_, _, rfl⟩ | ⟨hrst, _⟩
  · exact (exec_effect hx).ownMoves
  · exact execIllegal_ownMoves hx
  · exact producerStep_ownMoves hx hs
  · exact .of_own_eq rfl
  · exact absurd hrst he

/-- Taking the input off the list leaves the pool alone, and whatever the step then does moves OWN along the cycle. -/
theorem step_ownMoves (h : step s = .next t) (hs : s.Inv) (hrst : s.inputs.head? ≠ some .rstPulse) :
    s.pool.OwnMoves s.par.cap t.pool := by
  have hafter : s.afterInput.Inv := hs.outputs ..
  rw [← s.afterInput_pool, ← s.afterInput_par]
  rcases step_cases s with ⟨-, hstep⟩ | ⟨-, -, hstep⟩ | ⟨-, e, _, hi, hstep⟩ <;> rw [hstep] at h
  · cases h
  · exact producerStep_ownMoves h hafter
  · exact perform_ownMoves h hafter (by rintro rfl; exact hrst (by rw [hi]; rfl))

end

/-- Settles O57, by the cases of a step: whatever writes OWN makes a transition of rule R221. -/
theorem ownershipMovesAlongTheCycle : Obligations.OwnershipMovesAlongTheCycle := fun _ _ hs h hrst =>
  step_ownMoves h hs hrst

end Sys2Proof.Machine

/-! SUPPORT. The system commands (`44_system.md`): NOP, RDCSR and WRCSR taken up, and the CHAIN value of four kinds. -/

namespace Sys2Proof.Machine

/-! ## NOP, RDCSR and WRCSR, taken up -/

section
variable {s : State}

theorem exec_nop (hrun : s.running = false) (hwait : s.waiting = false) : exec .nop s = .next (s.respond 0) := by
  rw [exec, execNop, systemCommand_accepts hrun hwait]

theorem exec_rdcsr (hrun : s.running = false) (hwait : s.waiting = false) {c : Csr}
    (hseed : csrNeedsSeed c = true → s.rng.seeded = true) :
    exec (.rdcsr c.num) s = .next (s.respond (s.csrRead c)) := by
  have hguard : ¬(csrNeedsSeed c && !s.rng.seeded) = true := by simpa using hseed
  rw [exec, execRdcsr, systemCommand_accepts hrun hwait, Csr.ofNum_num]
  exact if_neg hguard

theorem exec_wrcsr (ha : s.Accepts) {c : Csr} {v : Word} {sh : Shaper}
    (hw : s.sh.csrWrite s.par.repr c v = some sh) :
    exec (.wrcsr c.num v) s = .next (State.respond { s with sh := sh } 0) := by
  obtain ⟨hrun, hwait, hhalt⟩ := ha
  rw [exec, execWrcsr, command_accepts hrun hwait hhalt, Csr.ofNum_num]
  simp only [hw]

end

/-- Settles O1: no operand and no state but the pins of acceptance is read. -/
theorem nopOnlyResponds : Obligations.NopOnlyResponds :=
  ⟨fun _ _ => rfl, fun _ hrun hwait => exec_nop hrun hwait⟩

/-! ## RDCSR -/

theorem csrNeedsSeed_iff (c : Csr) : csrNeedsSeed c = true ↔ c = .rng0 ∨ c = .rng1 := by
  simp [csrNeedsSeed]

section
variable {r : Rng}

theorem Rng.word0_xs32 (h : r.alg = .xs32) : r.word0 = r.xs.setWidth 64 := by rw [Rng.word0, h]

theorem Rng.word0_pcg32 (h : r.alg = .pcg32) : r.word0 = r.pst := by rw [Rng.word0, h]

theorem Rng.word1_xs32 (h : r.alg = .xs32) : r.word1 = 0 := by rw [Rng.word1, h]

theorem Rng.word1_pcg32 (h : r.alg = .pcg32) : r.word1 = r.pinc := by rw [Rng.word1, h]

end

/-- Settles O2: the response is `State.csrRead`, register by register; the RNG words are those of the live generator. -/
theorem rdcsrReturnsRegister : Obligations.RdcsrReturnsRegister := fun s c hrun hwait hseed => by
  refine ⟨s.csrRead c, exec_rdcsr hrun hwait fun h => hseed ((csrNeedsSeed_iff c).mp h), ?_⟩
  cases c with
  | rng0 => exact ⟨Rng.word0_xs32, Rng.word0_pcg32⟩
  | rng1 => exact ⟨Rng.word1_xs32, Rng.word1_pcg32⟩
  | _ => rfl

/-! ## WRCSR -/

/-- The CHAIN value of four kinds reads back as those kinds, whatever stands above it (rule R44). -/
theorem chainOf_of_low16 {v : Word} {k0 k1 k2 k3 : Kind} (h : v.extractLsb' 0 16 = chainWord k0 k1 k2 k3) :
    chainOf v = some ⟨k0, k1, k2, k3⟩ := by
  have hnibble (lo : Nat) (hlo : lo + 4 ≤ 16) : v.extractLsb' lo 4 = (chainWord k0 k1 k2 k3).extractLsb' lo 4 := by
    rw [← h, BitVec.extractLsb'_extractLsb'_of_le hlo]
  obtain ⟨h0, h1, h2, h3⟩ := chainWord_nibbles k0 k1 k2 k3
  rw [chainOf, hnibble 0 (by decide), hnibble 4 (by decide), hnibble 8 (by decide), hnibble 12 (by decide)]
  simp only [h0, h1, h2, h3, Kind.ofNibble_code]

theorem Shaper.csrWrite_chain {v : Word} {q : Quad Kind} (h : chainOf v = some q) (r : NumRepr) (sh : Shaper) :
    sh.csrWrite r .chain v = some { sh with chain := q } := by
  simp only [Shaper.csrWrite, h]

/-- Settles O5: `Shaper.csrWrite` stores each register's value, and `accIn` is the width S and P have. -/
theorem wrcsrStoresRaw : Obligations.WrcsrStoresRaw := fun s v ha => by
  refine ⟨fun k => exec_wrcsr (c := .coef k) ha rfl, fun k => ⟨accIn s.par.repr v, ?_, ?_, ?_⟩,
    exec_wrcsr (c := .gain) ha rfl, fun k0 k1 k2 k3 h => ?_⟩
  · intro hr; rw [hr]; rfl
  · intro hr; rw [hr]; rfl
  · exact ⟨exec_wrcsr (c := .acc k) ha rfl, exec_wrcsr (c := .prev k) ha rfl⟩
  · exact exec_wrcsr (c := .chain) ha (Shaper.csrWrite_chain (chainOf_of_low16 h) _ _)

end Sys2Proof.Machine

/-! SUPPORT. Faults and halting (`60_exceptions.md` rule R270 to rule R289): what each agent leaves alone, the table of
faults row by row, what a halted machine keeps, and why no run from reset stops. -/

namespace Sys2Proof.Machine

/-! ## The two agents (rule R286) -/

/-- Of the effects, those of the consumer's own operations are updates of the fields named here. -/
theorem Effect.consumer_frame {s t : State} {i : Instr} (h : Effect s i t) (hi : i.isCommand = false) :
    t = { s with
      pool := { s.pool with own := t.pool.own, tp := t.pool.tp, rp := t.pool.rp }
      underrun := t.underrun
      cRsp := t.cRsp } := by
  cases h with
  | cIdle | cTake | cTakeStarved | cRead | cReadNot | cReturn | cReturnNot => rfl
  | notReady _ hc | discarded _ hc | faulted _ _ hc => rw [hi] at hc; cases hc
  | _ => cases hi

/-- Settles O41, effect by effect of the four consumer operations. -/
theorem consumerTouchesOnlyItsOwn : Obligations.ConsumerTouchesOnlyItsOwn := fun _ _ _ hi h =>
  (exec_effect h).consumer_frame hi

/-- What belongs to the consumer: TP, RP, UNDERRUN and its result. -/
def State.consumerPart (s : State) : Fin 4 × Fin 4 × Bool × Option Sample :=
  (s.pool.tp, s.pool.rp, s.underrun, s.cRsp)

theorem State.consumerPart_eq_iff {s t : State} :
    t.consumerPart = s.consumerPart ↔
      t.pool.tp = s.pool.tp ∧ t.pool.rp = s.pool.rp ∧ t.underrun = s.underrun ∧ t.cRsp = s.cRsp := by
  simp only [State.consumerPart, Prod.mk.injEq]

theorem acquireOrWait_consumerPart (s : State) : s.acquireOrWait.consumerPart = s.consumerPart := by
  unfold State.acquireOrWait
  split <;> rfl

/-- A command's effect is an update of other fields; FILL is many of them, ACQ one of two. -/
theorem Effect.consumerPart {s t : State} {i : Instr} (h : Effect s i t) (hi : i.isCommand = true) :
    t.consumerPart = s.consumerPart := by
  cases h with
  | acq => exact acquireOrWait_consumerPart s
  | fill => exact State.genTimes_keeps State.consumerPart (fun _ => rfl) _ s
  | cIdle | cTake | cTakeStarved | cRead | cReadNot | cReturn | cReturnNot => cases hi
  | _ => rfl

theorem loopStep_consumerPart {s t : State} (h : loopStep s = .next t) : t.consumerPart = s.consumerPart := by
  rcases loopStep_next h with ⟨-, -, rfl⟩ | ⟨-, -, rfl⟩ | ⟨-, -, rfl⟩ | ⟨-, rfl⟩ <;> rfl

theorem producerStep_consumerPart {s t : State} (h : producerStep s = .next t) :
    t.consumerPart = s.consumerPart := by
  rcases producerStep_cases s with ⟨-, hp⟩ | ⟨-, -, hp⟩ | ⟨-, -, hp⟩ <;> rw [hp] at h
  · exact loopStep_consumerPart h
  · rw [← next_inj h, acquireOrWait_consumerPart]
  · rw [next_inj h]

/-- Settles O42: the commands by their effects, the producer's own steps by their cases. -/
theorem producerNeverTouchesConsumerState : Obligations.ProducerNeverTouchesConsumerState := fun _ _ h =>
  State.consumerPart_eq_iff.mp <| h.elim (fun ⟨_, hi, hx⟩ => (exec_effect hx).consumerPart hi) producerStep_consumerPart

/-! ## HALTED and ERR -/

/-- `t` has HALTED and ERR as `s` has them, or is `s`, not halted, after fault entry (rule R274). -/
def State.KeptOrFaulted (s t : State) : Prop :=
  (t.halted = s.halted ∧ t.err = s.err) ∨ (s.halted = false ∧ ∃ f, f ≠ .none ∧ t = s.takeFault f)

theorem acquireOrWait_err (s : State) : s.acquireOrWait.err = s.err := by
  unfold State.acquireOrWait
  split <;> rfl

theorem Effect.keptOrFaulted {s t : State} {i : Instr} (h : Effect s i t) : s.KeptOrFaulted t := by
  cases h with
  | faulted f _ hc hr hh hf => exact .inr ⟨hh, _, hf, rfl⟩
  | acq => exact .inl ⟨acquireOrWait_halted s, acquireOrWait_err s⟩
  | fill => exact .inl ⟨State.genTimes_halted _ s, State.genTimes_keeps State.err (fun _ => rfl) _ s⟩
  | _ => exact .inl ⟨rfl, rfl⟩

theorem execIllegal_keptOrFaulted {s t : State} (h : execIllegal s = .next t) : s.KeptOrFaulted t := by
  rcases execIllegal_next h with ⟨-, rfl⟩ | ⟨-, -, rfl⟩ | ⟨-, hh, rfl⟩
  · exact .inl ⟨rfl, rfl⟩
  · exact .inl ⟨rfl, rfl⟩
  · exact .inr ⟨hh, _, by decide, rfl⟩

/-- Settles O44: a state that was not halted and now is has taken a fault. -/
theorem faultsArePrecise : Obligations.FaultsArePrecise := fun s t ha h ht => by
  obtain ⟨hrun, -, hhalt⟩ := ha
  have hcases : s.KeptOrFaulted t :=
    h.elim (fun ⟨_, hx⟩ => (exec_effect hx).keptOrFaulted) execIllegal_keptOrFaulted
  rcases hcases with ⟨hkept, -⟩ | ⟨-, f, hf, rfl⟩
  · rw [hkept, hhalt] at ht; cases ht
  · exact ⟨hf, rfl, rfl, rfl, rfl, hrun⟩

/-- Once halted, no fault is taken any more: the first one wins (rule R276). -/
theorem State.KeptOrFaulted.halted {s t : State} (h : s.KeptOrFaulted t) (hh : s.halted = true) :
    t.halted = true ∧ t.err = s.err := by
  rcases h with ⟨hkept, herr⟩ | ⟨hnot, -⟩
  · exact ⟨hkept.trans hh, herr⟩
  · rw [hnot] at hh; cases hh

theorem loopStep_keptOrFaulted {s t : State} (h : loopStep s = .next t) : s.KeptOrFaulted t := by
  rcases loopStep_next h with ⟨-, -, rfl⟩ | ⟨-, -, rfl⟩ | ⟨-, -, rfl⟩ | ⟨-, rfl⟩ <;> exact .inl ⟨rfl, rfl⟩

theorem producerStep_keptOrFaulted {s t : State} (h : producerStep s = .next t) : s.KeptOrFaulted t := by
  rcases producerStep_cases s with ⟨-, hp⟩ | ⟨-, -, hp⟩ | ⟨-, -, hp⟩ <;> rw [hp] at h
  · exact loopStep_keptOrFaulted h
  · rw [← next_inj h]; exact .inl ⟨acquireOrWait_halted s, acquireOrWait_err s⟩
  · rw [next_inj h]; exact .inl ⟨rfl, rfl⟩

theorem perform_keptOrFaulted {e : Input} {s t : State} (h : perform e s = .next t) (he : e ≠ .rstPulse) :
    s.KeptOrFaulted t := by
  rcases perform_next h with ⟨_, _, _, _, hx⟩ | ⟨_, _, _, _, hx⟩ | ⟨_, hx⟩ | ⟨_, _, rfl⟩ | ⟨hrst, _⟩
  · exact (exec_effect hx).keptOrFaulted
  · exact execIllegal_keptOrFaulted hx
  · exact producerStep_keptOrFaulted hx
  · exact .inl ⟨rfl, rfl⟩
  · exact absurd hrst he

/-- A reset pulse makes the step `applyReset`, whatever else holds. -/
theorem step_next_rstPulse {s t : State} (h : step s = .next t) (hrst : s.inputs.head? = some .rstPulse) :
    t = s.afterInput.applyReset := by
  rcases step_cases s with ⟨-, hstep⟩ | ⟨-, hi, -⟩ | ⟨hw, e, rest, hi, -⟩
  · rw [hstep] at h; cases h
  · rw [hi] at hrst; cases hrst
  · rw [hi] at hrst
    cases hrst
    rw [step_rstPulse hw hi] at h
    exact (next_inj h).symm

/-- Settles O47: taking the input off the list leaves HALTED and ERR alone, and so does what the step then does, but for
the pulse. -/
theorem haltIsStickyUntilReset : Obligations.HaltIsStickyUntilReset := fun s t hh h => by
  refine ⟨fun hrst => ?_, fun hrst => by rw [step_next_rstPulse h hrst]; exact ⟨rfl, rfl⟩⟩
  have hmove : s.afterInput.KeptOrFaulted t := by
    rcases step_cases s with ⟨-, hstep⟩ | ⟨-, -, hstep⟩ | ⟨-, e, _, hi, hstep⟩ <;> rw [hstep] at h
    · cases h
    · exact producerStep_keptOrFaulted h
    · exact perform_keptOrFaulted h (by rintro rfl; exact hrst (by rw [hi]; rfl))
  exact hmove.halted hh

/-! ## Commands presented while HALTED (rule R276) -/

section
variable {s : State} (hrun : s.running = false) (hwait : s.waiting = false) (hhalt : s.halted = true)
include hrun hwait hhalt

theorem exec_halted {i : Instr} (hi : i.isCommand = true) (hnop : i ≠ .nop) (hrd : ∀ n, i ≠ .rdcsr n) :
    exec i s = .next s.respondErr := by
  cases i with
  | nop => exact absurd rfl hnop
  | rdcsr n => exact absurd rfl (hrd n)
  | cIdle | cTake | cRead | cReturn => cases hi
  | _ => rw [exec]; exact command_halted hrun hwait hhalt

theorem exec_rdcsr_undefined_halted {n : BitVec 8} (hn : Csr.ofNum n = none) :
    exec (.rdcsr n) s = .next s.respondErr := by
  rw [exec, execRdcsr, systemCommand_accepts hrun hwait, hn]
  exact congrArg _ (raiseFault_halted _ hhalt)

theorem exec_rdcsr_unseeded_halted {n : BitVec 8} {c : Csr} (hn : Csr.ofNum n = some c) (hc : csrNeedsSeed c = true)
    (hs : s.rng.seeded = false) : exec (.rdcsr n) s = .next s.respondErr := by
  have hguard : (csrNeedsSeed c && !s.rng.seeded) = true := by rw [hc, hs]; rfl
  rw [exec, execRdcsr, systemCommand_accepts hrun hwait, hn]
  exact (if_pos hguard).trans (congrArg _ (raiseFault_halted _ hhalt))

end

theorem Csr.ofNum_eq_none_iff (n : BitVec 8) : Csr.ofNum n = none ↔ csrDefined n = false := by
  rw [← Csr.ofNum_isSome, Option.isSome_eq_false_iff, Option.isNone_iff_eq_none]

/-- Settles O46: `command` discards all but NOP and RDCSR, and RDCSR's two faults leave only the response. -/
theorem haltedDiscardsCommands : Obligations.HaltedDiscardsCommands := fun s hrun hwait hhalt => by
  refine ⟨fun i => exec_halted hrun hwait hhalt, fun n hn => ?_, command_halted hrun hwait hhalt⟩
  rcases hn with hn | ⟨rfl | rfl, hs⟩
  · exact exec_rdcsr_undefined_halted hrun hwait hhalt ((Csr.ofNum_eq_none_iff n).mpr hn)
  · exact exec_rdcsr_unseeded_halted hrun hwait hhalt (c := .rng0) rfl rfl hs
  · exact exec_rdcsr_unseeded_halted hrun hwait hhalt (c := .rng1) rfl rfl hs

/-! ## The table of faults (rule R289) -/

/-- The answer `o` to a command taken up in `s` is the one its row of the table asks for: fault entry with the row's code
and nothing else, or no fault. -/
def AnswersRow (s : State) (row : Option ErrCode) (o : Out) : Prop :=
  match row with
  | some f => o = .next (s.takeFault f)
  | none => ∀ f, ¬FaultsWith f o

section
variable {s : State}

/-! ### The rows in the guards of the machine -/

theorem csrNeedsSeed_iff_num (c : Csr) : csrNeedsSeed c = true ↔ c.num = 0x04 ∨ c.num = 0x05 := by
  cases c with
  | coef k | acc k | prev k => fin_cases k <;> decide
  | _ => decide

theorem faultOf_rdcsr_undefined {n : BitVec 8} (hn : Csr.ofNum n = none) :
    faultOf s (.rdcsr n) = some .badOperand := by
  simp [faultOf, (Csr.ofNum_eq_none_iff n).mp hn]

theorem faultOf_rdcsr {n : BitVec 8} {c : Csr} (hn : Csr.ofNum n = some c) :
    faultOf s (.rdcsr n) = if csrNeedsSeed c && !s.rng.seeded then some .notSeeded else none := by
  have hdef : csrDefined n = true := by rw [← Csr.ofNum_isSome, hn]; rfl
  have hseed := csrNeedsSeed_iff_num c
  rw [Csr.num_of_ofNum hn] at hseed
  simp only [faultOf, hdef, ← hseed]
  cases csrNeedsSeed c <;> cases s.rng.seeded <;> rfl

theorem faultOf_wrcsr_undefined {n : BitVec 8} (hn : Csr.ofNum n = none) (v : Word) :
    faultOf s (.wrcsr n v) = some .badOperand := by
  simp [faultOf, (Csr.ofNum_eq_none_iff n).mp hn]

theorem faultOf_wrcsr {n : BitVec 8} {c : Csr} (hn : Csr.ofNum n = some c) (v : Word) :
    faultOf s (.wrcsr n v) = if (s.sh.csrWrite s.par.repr c v).isSome then none else some .badOperand := by
  have hdef : csrDefined n = true := by rw [← Csr.ofNum_isSome, hn]; rfl
  have hguard : (!csrDefined n || csrReadOnly n || (n == 0x02 && !chainLegal v)) =
      !(s.sh.csrWrite s.par.repr c v).isSome := by
    rw [Shaper.csrWrite_isSome, Csr.num_of_ofNum hn, hdef]
    simp [bne]
  rw [faultOf, hguard]
  cases (s.sh.csrWrite s.par.repr c v).isSome <;> rfl

theorem faultOf_acq : faultOf s .acq = if s.pool.hold then some .protocol else none := by
  simp [faultOf]

theorem faultOf_put (v : Sample) :
    faultOf s (.put v) = if !s.pool.hold || s.full then some .protocol else none := by
  simp [faultOf, State.full]

theorem faultOf_rel : faultOf s .rel = if !s.pool.hold || !s.full then some .protocol else none := by
  simp [faultOf, State.full]

theorem faultOf_gen :
    faultOf s .gen =
      if s.rng.seeded then (if !s.pool.hold || s.full then some .protocol else none) else some .notSeeded := by
  cases hs : s.rng.seeded <;> simp [faultOf, State.full, hs]

theorem faultOf_fill :
    faultOf s .fill = if s.rng.seeded then (if !s.pool.hold then some .protocol else none) else some .notSeeded := by
  cases hs : s.rng.seeded <;> simp [faultOf, hs]

theorem faultOf_start :
    faultOf s .start =
      if s.rng.seeded then
        (if s.pool.hold then some .protocol else if !s.sinkOk then some .sinkFail else none)
      else some .notSeeded := by
  cases hs : s.rng.seeded
  · simp [faultOf, hs]
  · by_cases ho : s.pool.own.get s.pool.pp = .acquired
    · simp [faultOf, hs, ho]
    · cases hk : s.sinkOk <;> simp [faultOf, hs, ho, hk]

/-! ### Answers, guard by guard -/

variable {row row' : Option ErrCode} {o o' : Out}

theorem answersRow_next {t : State} (h : t.halted = false) : AnswersRow s none (.next t) := fun _ =>
  not_faultsWith_next h

theorem answersRow_takeFault (f : ErrCode) : AnswersRow s (some f) (.next (s.takeFault f)) := rfl

theorem answersRow_ite {c : Prop} [Decidable c] (h : AnswersRow s row o) (h' : AnswersRow s row' o') :
    AnswersRow s (if c then row else row') (if c then o else o') := by
  split <;> assumption

/-- Where no sample address exists PUT, GEN and FILL stop, which is no fault of the table (log entry 12). -/
theorem answersRow_ite_stop {c : Prop} [Decidable c] {r : Fault} (h : AnswersRow s none o) :
    AnswersRow s none (if c then o else .fault r) := fun f =>
  not_faultsWith_ite (h f) not_faultsWith_fault

theorem answersRow_command {body : State → Out} (ha : s.Accepts) (h : AnswersRow s row (body s)) :
    AnswersRow s row (command s body) := by
  obtain ⟨hrun, hwait, hhalt⟩ := ha
  rwa [command_accepts hrun hwait hhalt]

theorem answersRow_seededOnly {body : State → Out} (h : AnswersRow s row (body s)) :
    AnswersRow s (if s.rng.seeded then row else some .notSeeded) (seededOnly s body) :=
  answersRow_ite h (answersRow_takeFault _)

/-! ### Command by command -/

theorem execRdcsr_answersRow (ha : s.Accepts) (n : BitVec 8) :
    AnswersRow s (faultOf s (.rdcsr n)) (execRdcsr n s) := by
  obtain ⟨hrun, hwait, hhalt⟩ := ha
  rw [execRdcsr, systemCommand_accepts hrun hwait]
  simp only [raiseFault_running _ hhalt]
  cases hn : Csr.ofNum n with
  | none => rw [faultOf_rdcsr_undefined hn]; exact answersRow_takeFault _
  | some c =>
    rw [faultOf_rdcsr hn]
    exact answersRow_ite (answersRow_takeFault _) (answersRow_next hhalt)

theorem execWrcsr_answersRow (ha : s.Accepts) (n : BitVec 8) (v : Word) :
    AnswersRow s (faultOf s (.wrcsr n v)) (execWrcsr n v s) := by
  have ⟨_, _, hhalt⟩ := ha
  refine answersRow_command ha ?_
  cases hn : Csr.ofNum n with
  | none => rw [faultOf_wrcsr_undefined hn]; exact answersRow_takeFault _
  | some c =>
    rw [faultOf_wrcsr hn]
    dsimp only
    cases s.sh.csrWrite s.par.repr c v with
    | none => exact answersRow_takeFault _
    | some sh => exact answersRow_next hhalt

theorem execStage_answersRow (ha : s.Accepts) (k : BitVec 8) (x : Word) :
    AnswersRow s (faultOf s (.stage k x)) (execStage k x s) := by
  have ⟨_, _, hhalt⟩ := ha
  refine answersRow_command ha ?_
  by_cases hk : 4 ≤ k.toNat
  · rw [slotOf_ge hk, faultOf, if_pos hk]; exact answersRow_takeFault _
  · rw [slotOf_lt (not_le.mp hk), faultOf, if_neg hk]; exact answersRow_next hhalt

/-- Guard by guard, in the order of rule R273. -/
theorem exec_answersRow {i : Instr} (hi : i.isCommand = true) (ha : s.Accepts) :
    AnswersRow s (faultOf s i) (exec i s) := by
  have ⟨hrun, hwait, hhalt⟩ := ha
  have hnext {t : State} (h : t.halted = s.halted) : AnswersRow s none (.next t) := answersRow_next (h.trans hhalt)
  cases i with rw [exec]
  | nop => rw [execNop, systemCommand_accepts hrun hwait]; exact hnext rfl
  | rdcsr n => exact execRdcsr_answersRow ha n
  | wrcsr n v => exact execWrcsr_answersRow ha n v
  | stage k x => exact execStage_answersRow ha k x
  | seedx | seedp | clip | shape => exact answersRow_command ha (hnext rfl)
  | nextu | nextn => exact answersRow_command ha (answersRow_seededOnly (hnext rfl))
  | acq =>
    rw [faultOf_acq]
    exact answersRow_command ha (answersRow_ite (answersRow_takeFault _) (hnext (acquireOrWait_halted s)))
  | put v =>
    rw [faultOf_put]
    exact answersRow_command ha (answersRow_ite (answersRow_takeFault _) (answersRow_ite_stop (hnext rfl)))
  | rel =>
    rw [faultOf_rel]
    exact answersRow_command ha (answersRow_ite (answersRow_takeFault _) (hnext rfl))
  | gen =>
    rw [faultOf_gen]
    exact answersRow_command ha (answersRow_seededOnly
      (answersRow_ite (answersRow_takeFault _) (answersRow_ite_stop (hnext rfl))))
  | fill =>
    rw [faultOf_fill]
    exact answersRow_command ha (answersRow_seededOnly
      (answersRow_ite (answersRow_takeFault _) (answersRow_ite_stop (hnext (State.genTimes_halted _ s)))))
  | start =>
    rw [faultOf_start]
    exact answersRow_command ha (answersRow_seededOnly
      (answersRow_ite (answersRow_takeFault _) (answersRow_ite (answersRow_takeFault _) (hnext rfl))))
  | cIdle | cTake | cRead | cReturn => cases hi

end

/-- Settles O43: every command answers its row; what does not fault leaves HALTED and ERR alone. -/
theorem faultsExactlyAsTabulated : Obligations.FaultsExactlyAsTabulated := fun i s hi ha => by
  have hrow := exec_answersRow hi ha
  refine ⟨fun f hf => ?_, fun hnone t h => ?_, execIllegal_accepts ha⟩
  · rwa [hf] at hrow
  · rw [hnone] at hrow
    rcases (exec_effect h).keptOrFaulted with ⟨hhalt, herr⟩ | ⟨-, f, -, rfl⟩
    · exact ⟨hhalt.trans ha.2.2, herr⟩
    · exact absurd ⟨_, h, rfl, rfl⟩ (hrow f)

/-! ## Why no run stops (rule R278) -/

/-- The step goes on: it answers a next state. -/
def GoesOn (o : Out) : Prop := ∃ t, o = .next t

section
variable {s : State}

theorem goesOn_next (t : State) : GoesOn (.next t) := ⟨t, rfl⟩

theorem goesOn_ite {c : Prop} [Decidable c] {o o' : Out} (h : c → GoesOn o) (h' : ¬c → GoesOn o') :
    GoesOn (if c then o else o') := by
  by_cases hc : c
  · rw [if_pos hc]; exact h hc
  · rw [if_neg hc]; exact h' hc

theorem goesOn_command {body : State → Out} (h : GoesOn (body s)) : GoesOn (command s body) :=
  goesOn_ite (fun _ => goesOn_ite (fun _ => goesOn_next _) fun _ => h) fun _ => goesOn_next _

theorem goesOn_systemCommand {body : State → Out} (h : GoesOn (body s)) : GoesOn (systemCommand s body) :=
  goesOn_ite (fun _ => h) fun _ => goesOn_next _

theorem goesOn_seededOnly {body : State → Out} (h : GoesOn (body s)) : GoesOn (seededOnly s body) :=
  goesOn_ite (fun _ => h) fun _ => goesOn_next _

theorem execRdcsr_goesOn (n : BitVec 8) (s : State) : GoesOn (execRdcsr n s) := by
  refine goesOn_systemCommand ?_
  cases Csr.ofNum n with
  | none => exact goesOn_next _
  | some c => exact goesOn_ite (fun _ => goesOn_next _) fun _ => goesOn_next _

theorem execWrcsr_goesOn (n : BitVec 8) (v : Word) (s : State) : GoesOn (execWrcsr n v s) := by
  refine goesOn_command ?_
  cases Csr.ofNum n with
  | none => exact goesOn_next _
  | some c =>
    dsimp only
    cases s.sh.csrWrite s.par.repr c v <;> exact goesOn_next _

theorem execStage_goesOn (k : BitVec 8) (x : Word) (s : State) : GoesOn (execStage k x s) := by
  refine goesOn_command ?_
  cases slotOf k <;> exact goesOn_next _

/-! ### Under the invariant -/

theorem State.Inv.pp_lt (hs : s.Inv) : s.pool.pp.val < s.par.nbuf :=
  hs.ring.pp_lt (Params.wf_nbuf_pos hs.par) (Params.wf_nbuf_le hs.par)

/-- PP always names a buffer and no count exceeds CAP, so only a full buffer has no room (rule R71). -/
theorem State.Inv.canStore_of_not_full (hs : s.Inv) (hf : ¬s.full = true) : s.canStore = true := by
  have hle := hs.filled.count_le s.pool.pp
  rw [State.full_iff] at hf
  exact (State.canStore_iff s).mpr ⟨hs.pp_lt, by omega⟩

/-- The guard that PUT and GEN pass ends in a store. -/
theorem State.Inv.goesOn_store (hs : s.Inv) {t t' : State} :
    GoesOn (if !s.pool.hold || s.full then .next t' else if s.canStore then .next t else .fault .noSuchSample) := by
  refine goesOn_ite (fun _ => goesOn_next _) fun hguard => ?_
  have hfull : ¬s.full = true := fun h => hguard (by rw [h, Bool.or_true])
  exact goesOn_ite (fun _ => goesOn_next _) fun h => absurd (hs.canStore_of_not_full hfull) h

theorem execFill_goesOn (hs : s.Inv) : GoesOn (execFill s) := by
  refine goesOn_command (goesOn_seededOnly (goesOn_ite (fun _ => goesOn_next _) fun _ => ?_))
  refine goesOn_ite (fun _ => goesOn_next _) fun hguard => ?_
  rw [Bool.or_eq_true, not_or] at hguard
  exact absurd (hs.canStore_of_not_full hguard.1) hguard.2

/-- An INFLIGHT buffer is full, and every slot below its count has been written (rule R238, U2). -/
theorem State.Inv.read_isSome (hs : s.Inv) {idx : BitVec 2} {slot : Half} (h : s.readAccepted idx slot = true) :
    (Mem.readSample s.pool.mem (sampleAddr s.par.cap idx.toNat slot.toNat)).isSome = true := by
  obtain ⟨-, hslot, ho⟩ := (State.readAccepted_iff s idx slot).mp h
  have hfull := hs.filled.handed_over_full _ (.inr ho)
  exact hs.filled.written idx.toFin (by rw [ho]; decide) slot.toNat (by rwa [hfull])

theorem execCRead_goesOn (hs : s.Inv) (idx : BitVec 2) (slot : Half) : GoesOn (execCRead idx slot s) := by
  refine goesOn_ite (fun h => ?_) fun _ => goesOn_next _
  obtain ⟨v, hv⟩ := Option.isSome_iff_exists.mp (hs.read_isSome h)
  rw [hv]
  exact goesOn_next _

theorem exec_goesOn (hs : s.Inv) (i : Instr) : GoesOn (exec i s) := by
  cases i with rw [exec]
  | nop => exact goesOn_systemCommand (goesOn_next _)
  | rdcsr n => exact execRdcsr_goesOn n s
  | wrcsr n v => exact execWrcsr_goesOn n v s
  | stage k x => exact execStage_goesOn k x s
  | seedx | seedp | clip | shape => exact goesOn_command (goesOn_next _)
  | nextu | nextn => exact goesOn_command (goesOn_seededOnly (goesOn_next _))
  | acq | rel => exact goesOn_command (goesOn_ite (fun _ => goesOn_next _) fun _ => goesOn_next _)
  | put => exact goesOn_command hs.goesOn_store
  | gen => exact goesOn_command (goesOn_seededOnly hs.goesOn_store)
  | fill => exact execFill_goesOn hs
  | start =>
    exact goesOn_command (goesOn_seededOnly
      (goesOn_ite (fun _ => goesOn_next _) fun _ => goesOn_ite (fun _ => goesOn_next _) fun _ => goesOn_next _))
  | cRead idx slot => exact execCRead_goesOn hs idx slot
  | cIdle => exact goesOn_next _
  | cTake | cReturn => exact goesOn_ite (fun _ => goesOn_next _) fun _ => goesOn_next _

/-- In the fill phase the invariant has START's loop hold a buffer that is not full. -/
theorem loopStep_goesOn (hs : s.Inv) (hrun : s.running = true) : GoesOn (loopStep s) := by
  have hphase := hs.control.running_phase hrun
  cases hp : s.phase with
  | acquire =>
    by_cases ho : s.pool.own.get s.pool.pp = .free
    · exact ⟨_, loopStep_acquire_free hp ho⟩
    · exact ⟨_, loopStep_acquire_waits hp ho⟩
  | fill =>
    rw [hp] at hphase
    exact ⟨_, loopStep_fill hp (hs.canStore_of_not_full (by simp [hphase.2]))⟩
  | release => exact ⟨_, loopStep_release hp⟩

theorem producerStep_goesOn (hs : s.Inv) : GoesOn (producerStep s) := by
  rcases producerStep_cases s with ⟨hrun, hp⟩ | ⟨-, -, hp⟩ | ⟨-, -, hp⟩ <;> rw [hp]
  · exact loopStep_goesOn hs hrun
  · exact goesOn_next _
  · exact goesOn_next _

theorem perform_goesOn (hs : s.Inv) (e : Input) : GoesOn (perform e s) := by
  cases e with
  | port w =>
    cases hd : decode w with
    | ok i => rw [perform_port_ok hd]; exact exec_goesOn hs i
    | error d => rw [perform_port_error hd]; exact goesOn_command (goesOn_next _)
  | producer => exact producerStep_goesOn hs
  | sinkPin | rstPulse => exact goesOn_next _

end

/-- Settles O54: the parameters are legal, and the state after the input is taken off the list has the invariant. -/
theorem invariantNeverStops : Obligations.InvariantNeverStops := fun s hs => by
  have hafter : s.afterInput.Inv := hs.outputs ..
  rcases step_cases s with ⟨hw, -⟩ | ⟨-, -, hstep⟩ | ⟨-, e, _, -, hstep⟩
  · rw [hs.par] at hw; cases hw
  · rw [hstep]; exact producerStep_goesOn hafter
  · rw [hstep]; exact perform_goesOn hafter e

theorem run_succ_of_step {M : Host.Core} {s t : M.State} (h : M.step s = .next t) (k : Nat) :
    M.run (k + 1) s = M.run k t := by
  rw [Host.Core.run, h]

/-- A state with the invariant steps to one with the invariant, as often as one likes. -/
theorem State.Inv.safeFrom {s : State} (hs : s.Inv) : SafeFrom s := fun k => by
  induction k generalizing s with
  | zero => exact ⟨s, rfl⟩
  | succ k ih =>
    obtain ⟨t, ht⟩ := invariantNeverStops s hs
    obtain ⟨u, hu⟩ := ih (invariantKeptByEveryStep s t hs ht)
    exact ⟨u, (run_succ_of_step ht k).trans hu⟩

/-- Settles O55: the state after reset has the invariant. -/
theorem safeFromReset : Obligations.SafeFromReset := fun p inputs ok hp =>
  (invariantAtReset p inputs ok hp).safeFrom

end Sys2Proof.Machine
